-- ==== Sys2Proof/Word.lean ====
section
/-!
DEFINITION. The word types of the sequencer and its devices (R14, R15): every value is unsigned and has a fixed width.
-/

namespace Sys2Proof

/-- An 8-bit value: a mask byte, a vector, a command byte, a request operand (R14, R69). -/
abbrev Byte := BitVec 8

/-- A 16-bit I/O port address (R51). -/
abbrev Port := BitVec 16

/-- A 32-bit MMIO register value or physical MMIO address (R51). -/
abbrev Word32 := BitVec 32

/-- A 64-bit request word (R69) or redirection entry (R39). -/
abbrev Word64 := BitVec 64

/-- One bit for each of the 256 vectors (R43). -/
abbrev VectorSet := BitVec 256

end Sys2Proof
end

