-- ==== Sys2Proof/Syntax.lean ====
section
/-!
DEFINITION. The instructions: one constructor per row of spec/opcode_table.json, and the names its operands use.
-/

namespace Sys2Proof

/-- The two controller families, of which one machine has exactly one (R4, R9). -/
inductive Family where
  | pic
  | apic
deriving DecidableEq, Repr

/-- The two 8259 chips of the cascade (R2). -/
inductive Chip where
  | master
  | slave
deriving DecidableEq, Repr

/-- The 8259's initialization step counter (R31). -/
inductive InitStep where
  | ready
  | awaitIcw2
  | awaitIcw3
  | awaitIcw4
deriving DecidableEq, Repr

/-- The six delivery modes a request can name (R71). -/
inductive DeliveryMode where
  | fixed
  | lowest
  | smi
  | nmi
  | init
  | extint
deriving DecidableEq, Repr

/-- Destination mode of a redirection entry (R71). -/
inductive DestMode where
  | physical
  | logical
deriving DecidableEq, Repr

/-- Pin polarity of a redirection entry (R71). -/
inductive Polarity where
  | high
  | low
deriving DecidableEq, Repr

/-- Trigger mode of a redirection entry (R71). -/
inductive TriggerMode where
  | edge
  | level
deriving DecidableEq, Repr

/-- One constructor per row of the opcode table: eleven REQ64 requests (R70), eight PIC8 command bytes (R74, R75)
and six APIC32 register writes (R86 to R89). A PIC8 row carries the chip whose port takes the byte; a window write
carries the entry that `ioregsel` selects. -/
inductive Instr where
  /-- R113: `PIC_INIT mb, sb`. -/
  | picInit (mb sb : Byte)
  /-- R117: `PIC_READ_MASKS`. -/
  | picReadMasks
  /-- R118: `PIC_WRITE_MASKS m, s`. -/
  | picWriteMasks (m s : Byte)
  /-- R120: `PIC_MASK line`. -/
  | picMask (line : Byte)
  /-- R121: `PIC_UNMASK line`. -/
  | picUnmask (line : Byte)
  /-- R122: `PIC_UNMASK_ALL`. -/
  | picUnmaskAll
  /-- R125: `PIC_EOI line`. -/
  | picEoi (line : Byte)
  /-- R133: `IOAPIC_WRITE_ENTRY line, vector, dm, dsm, pol, trg, dest`. -/
  | ioapicWriteEntry (line vector : Byte) (dm : DeliveryMode) (dsm : DestMode) (pol : Polarity) (trg : TriggerMode)
      (dest : Byte)
  /-- R134: `IOAPIC_SET_MASK line, masked`. -/
  | ioapicSetMask (line : Byte) (masked : Bool)
  /-- R142: `LAPIC_ENABLE vector`. -/
  | lapicEnable (vector : Byte)
  /-- R143: `LAPIC_EOI`. -/
  | lapicEoi
  /-- R103: ICW1, a command-port byte with bit 4 set. -/
  | icw1 (c : Chip) (v : Byte)
  /-- R104: ICW2, a data-port byte while AwaitICW2. -/
  | icw2 (c : Chip) (v : Byte)
  /-- R105: ICW3, a data-port byte while AwaitICW3. -/
  | icw3 (c : Chip) (v : Byte)
  /-- R106: ICW4, a data-port byte while AwaitICW4. -/
  | icw4 (c : Chip) (v : Byte)
  /-- R107: OCW1, a data-port byte while Ready. -/
  | ocw1 (c : Chip) (v : Byte)
  /-- R108: OCW2 non-specific EOI, the command-port byte 0x20. -/
  | ocw2NonspecificEoi (c : Chip)
  /-- R109: every other OCW2 byte, and 0x20 while the chip is not Ready. -/
  | ocw2Other (c : Chip) (v : Byte)
  /-- R109: an OCW3 byte. -/
  | ocw3 (c : Chip) (v : Byte)
  /-- R128: a write of the I/O APIC index register. -/
  | ioapicIndexWrite (v : Word32)
  /-- R130: a data-window write of the low half of entry `n`. -/
  | ioapicWindowWriteLo (n : Nat) (v : Word32)
  /-- R130: a data-window write of the high half of entry `n`. -/
  | ioapicWindowWriteHi (n : Nat) (v : Word32)
  /-- R136: a write of the spurious-interrupt vector register. -/
  | lapicSvrWrite (v : Word32)
  /-- R138: a write of the task-priority register. -/
  | lapicTprWrite (v : Word32)
  /-- R139: a write of the EOI register. -/
  | lapicEoiWrite (v : Word32)
deriving DecidableEq, Repr

end Sys2Proof
end

