-- ==== Sys2Proof/Config.lean ====
section
/-!
DEFINITION. The parameters of one machine (R9 to R13) and the values the spec leaves free (`draw`, R16).
-/

namespace Sys2Proof

/-- The parameters of one machine instance (R9 to R13). They are fixed for its lifetime; the state carries them so
that one step function describes every instance (log 3). -/
structure Config where
  /-- R9: which controller family is present. -/
  family : Family
  /-- R12: the number of redirection entries. -/
  nRedir : Nat
  /-- R11: the I/O APIC's physical base address. -/
  ioapicBase : Word32
  /-- R11: the Local APIC's physical base address. -/
  lapicBase : Word32
  /-- R13: LAPIC_MATCH as its truth table; bit `256 * mode + destination`. -/
  lapicMatch : BitVec 512
deriving DecidableEq, Repr

/-- R12: the default number of entries, 24; the usual bases of R11. The family, the bases and the all-true match
table are a DESIGN CHOICE (log 4): the spec takes them as arguments. -/
def Config.default : Config where
  family := .pic
  nRedir := 24
  ioapicBase := 0xFEC00000#32
  lapicBase := 0xFEE00000#32
  lapicMatch := BitVec.allOnes 512

/-- R131: the delivery-status bit that the `k`-th free value reads as. It has no body: nothing is known of it
(log 11). -/
opaque Config.freeDeliveryStatus : Nat → Bool

/-- R156: whether a software-disabled Local APIC drops the message that draws the `k`-th free value. It has no body:
nothing is known of it (log 12). -/
opaque Config.freeDrop : Nat → Bool

end Sys2Proof
end

