-- ==== Sys2Proof/WellFormed.lean ====
section
/-!
DEFINITION. Which terms of `Instr` stand for a word of the opcode table.
-/

namespace Sys2Proof

/-- The operands of an instruction lie in the form its table row gives: ICW1 has bit 4 set, OCW2 has bits 4:3 clear,
OCW3 has bits 4:3 equal to 01 (R74), and a window write names an entry an 8-bit index can reach (R12, R86). Every
other operand is a whole field of its word, so every value of it is well formed (R69, R80). -/
def Instr.wellFormed : Instr → Bool
  | .picInit _ _ => true
  | .picReadMasks => true
  | .picWriteMasks _ _ => true
  | .picMask _ => true
  | .picUnmask _ => true
  | .picUnmaskAll => true
  | .picEoi _ => true
  | .ioapicWriteEntry _ _ _ _ _ _ _ => true
  | .ioapicSetMask _ _ => true
  | .lapicEnable _ => true
  | .lapicEoi => true
  | .icw1 _ v => v.getLsbD 4
  | .icw2 _ _ => true
  | .icw3 _ _ => true
  | .icw4 _ _ => true
  | .ocw1 _ _ => true
  | .ocw2NonspecificEoi _ => true
  | .ocw2Other _ v => !v.getLsbD 4 && !v.getLsbD 3
  | .ocw3 _ v => !v.getLsbD 4 && v.getLsbD 3
  | .ioapicIndexWrite _ => true
  | .ioapicWindowWriteLo n _ => decide (n < 120)
  | .ioapicWindowWriteHi n _ => decide (n < 120)
  | .lapicSvrWrite _ => true
  | .lapicTprWrite _ => true
  | .lapicEoiWrite _ => true

end Sys2Proof
end

