-- ==== Sys2Proof/Decode.lean ====
section
/-!
DEFINITION. Decoding the three kinds of encoded word (30_encoding): request words by R69 to R72, 8259 bytes by R74 and
R75, APIC register words by R86 and R91; and, after it, the encoder.
-/

namespace Sys2Proof

/-- Why a word is no instruction. -/
inductive Reject where
  /-- R72: the OP byte is not in the table of R70. -/
  | unknownOp
  /-- R72: a must-be-zero bit is set. -/
  | mustBeZero
  /-- R72: delivery mode 011 or 110. -/
  | reservedDeliveryMode
  /-- R130, R131: the index lies below the redirection table. -/
  | ioapicRegister
deriving DecidableEq, Repr

/-- The eleven operation codes (R70). -/
inductive Opcode where
  | picInit | picReadMasks | picWriteMasks | picMask | picUnmask | picUnmaskAll | picEoi
  | ioapicWriteEntry | ioapicSetMask | lapicEnable | lapicEoi
deriving DecidableEq, Repr

/-- R70: the OP byte of each operation. -/
def Opcode.code : Opcode → Byte
  | .picInit => 0x01#8
  | .picReadMasks => 0x02#8
  | .picWriteMasks => 0x03#8
  | .picMask => 0x04#8
  | .picUnmask => 0x05#8
  | .picUnmaskAll => 0x06#8
  | .picEoi => 0x07#8
  | .ioapicWriteEntry => 0x10#8
  | .ioapicSetMask => 0x11#8
  | .lapicEnable => 0x20#8
  | .lapicEoi => 0x21#8

/-- R70: the operation an OP byte names; every other byte is illegal. -/
def Opcode.ofByte (b : Byte) : Option Opcode :=
  match b.toNat with
  | 0x01 => some .picInit
  | 0x02 => some .picReadMasks
  | 0x03 => some .picWriteMasks
  | 0x04 => some .picMask
  | 0x05 => some .picUnmask
  | 0x06 => some .picUnmaskAll
  | 0x07 => some .picEoi
  | 0x10 => some .ioapicWriteEntry
  | 0x11 => some .ioapicSetMask
  | 0x20 => some .lapicEnable
  | 0x21 => some .lapicEoi
  | _ => none

/-- R70: the family of each operation. -/
def Opcode.family : Opcode → Family
  | .picInit | .picReadMasks | .picWriteMasks | .picMask | .picUnmask | .picUnmaskAll | .picEoi => .pic
  | .ioapicWriteEntry | .ioapicSetMask | .lapicEnable | .lapicEoi => .apic

/-- R72: the bits of a request word that hold operands. -/
def Opcode.freeMask : Opcode → Word64
  | .picInit | .picWriteMasks => 0x0000000000FFFF00#64
  | .picMask | .picUnmask | .picEoi | .lapicEnable => 0x000000000000FF00#64
  | .ioapicWriteEntry => 0x000000FF3FFFFF00#64
  | .ioapicSetMask => 0x000000000001FF00#64
  | .picReadMasks | .picUnmaskAll | .lapicEoi => 0#64

/-- R71: the 3-bit code of a delivery mode. -/
def DeliveryMode.code : DeliveryMode → BitVec 3
  | .fixed => 0b000#3
  | .lowest => 0b001#3
  | .smi => 0b010#3
  | .nmi => 0b100#3
  | .init => 0b101#3
  | .extint => 0b111#3

/-- R71: the delivery mode a code names; 011 and 110 are reserved. -/
def DeliveryMode.ofCode (b : BitVec 3) : Option DeliveryMode :=
  match b.toNat with
  | 0 => some .fixed
  | 1 => some .lowest
  | 2 => some .smi
  | 4 => some .nmi
  | 5 => some .init
  | 7 => some .extint
  | _ => none

/-- R71: 0 PHYSICAL, 1 LOGICAL. -/
def DestMode.bit : DestMode → Bool
  | .physical => false
  | .logical => true

/-- R71: the destination mode of a bit. -/
def DestMode.ofBit : Bool → DestMode
  | false => .physical
  | true => .logical

/-- R71: 0 HIGH, 1 LOW. -/
def Polarity.bit : Polarity → Bool
  | .high => false
  | .low => true

/-- R71: the polarity of a bit. -/
def Polarity.ofBit : Bool → Polarity
  | false => .high
  | true => .low

/-- R71: 0 EDGE, 1 LEVEL. -/
def TriggerMode.bit : TriggerMode → Bool
  | .edge => false
  | .level => true

/-- R71: the trigger mode of a bit. -/
def TriggerMode.ofBit : Bool → TriggerMode
  | false => .edge
  | true => .level

/-- R69: field A, the first operand. -/
def fieldA (w : Word64) : Byte := w.extractLsb' 8 8
/-- R69: field B, the second operand. -/
def fieldB (w : Word64) : Byte := w.extractLsb' 16 8
/-- R69: field C, the third operand. -/
def fieldC (w : Word64) : Byte := w.extractLsb' 24 8
/-- R69: field D, the fourth operand. -/
def fieldD (w : Word64) : Byte := w.extractLsb' 32 8

/-- R72: no bit outside the OP byte and the operand bits is set. -/
def mustBeZeroClear (op : Opcode) (w : Word64) : Bool :=
  w &&& ~~~op.freeMask &&& ~~~0xFF#64 == 0#64

/-- The instruction an operation's word stands for, its fields read by R70 and R71. -/
def decodeFields (op : Opcode) (w : Word64) : Except Reject Instr :=
  match op with
  | .picInit => .ok (.picInit (fieldA w) (fieldB w))
  | .picReadMasks => .ok .picReadMasks
  | .picWriteMasks => .ok (.picWriteMasks (fieldA w) (fieldB w))
  | .picMask => .ok (.picMask (fieldA w))
  | .picUnmask => .ok (.picUnmask (fieldA w))
  | .picUnmaskAll => .ok .picUnmaskAll
  | .picEoi => .ok (.picEoi (fieldA w))
  | .ioapicWriteEntry =>
    match DeliveryMode.ofCode ((fieldC w).extractLsb' 0 3) with
    | none => .error .reservedDeliveryMode
    | some dm => .ok (.ioapicWriteEntry (fieldA w) (fieldB w) dm (.ofBit ((fieldC w).getLsbD 3))
        (.ofBit ((fieldC w).getLsbD 4)) (.ofBit ((fieldC w).getLsbD 5)) (fieldD w))
  | .ioapicSetMask => .ok (.ioapicSetMask (fieldA w) ((fieldB w).getLsbD 0))
  | .lapicEnable => .ok (.lapicEnable (fieldA w))
  | .lapicEoi => .ok .lapicEoi

/-- R72 without its family check (which needs the machine's FAMILY and stands in `hostSubmit`): unknown OP, then a
must-be-zero bit, then a reserved delivery mode. -/
def decodeRequest (w : Word64) : Except Reject Instr :=
  match Opcode.ofByte (w.extractLsb' 0 8) with
  | none => .error .unknownOp
  | some op => if mustBeZeroClear op w then decodeFields op w else .error .mustBeZero

/-- What an 8259 takes a byte for: the eight PIC8 rows of the table. -/
inductive PicKind where
  | icw1 | icw2 | icw3 | icw4 | ocw1 | ocw2NonspecificEoi | ocw2Other | ocw3
deriving DecidableEq, Repr

/-- R74, R109: a command-port byte is decoded by its own bits; the byte 0x20 is the non-specific EOI only while the
chip is Ready. -/
def commandKind (step : InitStep) (v : Byte) : PicKind :=
  if v.getLsbD 4 then .icw1
  else if v.getLsbD 3 then .ocw3
  else if v = 0x20#8 ∧ step = .ready then .ocw2NonspecificEoi
  else .ocw2Other

/-- R75: a data-port byte is decoded by the receiving chip's init step. -/
def dataKind : InitStep → PicKind
  | .awaitIcw2 => .icw2
  | .awaitIcw3 => .icw3
  | .awaitIcw4 => .icw4
  | .ready => .ocw1

/-- The instruction that chip `c` takes a byte of kind `k` for. -/
def PicKind.instr (k : PicKind) (c : Chip) (v : Byte) : Instr :=
  match k with
  | .icw1 => .icw1 c v
  | .icw2 => .icw2 c v
  | .icw3 => .icw3 c v
  | .icw4 => .icw4 c v
  | .ocw1 => .ocw1 c v
  | .ocw2NonspecificEoi => .ocw2NonspecificEoi c
  | .ocw2Other => .ocw2Other c v
  | .ocw3 => .ocw3 c v

/-- The two ports of a chip (R102). -/
inductive PicPort where
  | command
  | data
deriving DecidableEq, Repr

/-- R74, R75: what chip takes the byte `v` on its port `p` for, in init step `step`. -/
def picKind (p : PicPort) (step : InitStep) (v : Byte) : PicKind :=
  match p with
  | .command => commandKind step v
  | .data => dataKind step

/-- The five modelled MMIO registers (R51). -/
inductive MmioReg where
  | ioapicIndex | ioapicWindow | lapicTpr | lapicEoi | lapicSvr
deriving DecidableEq, Repr

/-- Which half of an entry an index selects (R86). -/
inductive Half where
  | lo
  | hi
deriving DecidableEq, Repr

/-- R86, R130: the entry and the half that an index selects; an index below 0x10 is outside the table. Whether the
entry is below N_REDIR is checked where the window is used. -/
def indexTarget (i : Byte) : Option (Nat × Half) :=
  if i.toNat < 0x10 then none
  else some ((i.toNat - 0x10) / 2, if i.getLsbD 0 then .hi else .lo)

/-- What an MMIO write is: the six APIC32 rows of the table. -/
inductive ApicKind where
  | indexWrite | windowWriteLo (n : Nat) | windowWriteHi (n : Nat) | svrWrite | tprWrite | eoiWrite
deriving DecidableEq, Repr

/-- R97, R91: what a write to a register is; a window write is decoded by `ioregsel`. -/
def apicKind (r : MmioReg) (ioregsel : Byte) : Except Reject ApicKind :=
  match r with
  | .ioapicIndex => .ok .indexWrite
  | .ioapicWindow =>
    match indexTarget ioregsel with
    | none => .error .ioapicRegister
    | some (n, .lo) => .ok (.windowWriteLo n)
    | some (n, .hi) => .ok (.windowWriteHi n)
  | .lapicTpr => .ok .tprWrite
  | .lapicEoi => .ok .eoiWrite
  | .lapicSvr => .ok .svrWrite

/-- The instruction that a write of kind `k` is. -/
def ApicKind.instr (k : ApicKind) (v : Word32) : Instr :=
  match k with
  | .indexWrite => .ioapicIndexWrite v
  | .windowWriteLo n => .ioapicWindowWriteLo n v
  | .windowWriteHi n => .ioapicWindowWriteHi n v
  | .svrWrite => .lapicSvrWrite v
  | .tprWrite => .lapicTprWrite v
  | .eoiWrite => .lapicEoiWrite v

/-- Where a word stands, which is what decides its meaning beside its bits (R91). -/
inductive Context where
  /-- A word submitted by the host. -/
  | request
  /-- A byte on a chip's port, the chip being in the given init step. -/
  | pic (c : Chip) (p : PicPort) (step : InitStep)
  /-- A word on an MMIO register, `ioregsel` holding the given index. -/
  | mmio (r : MmioReg) (ioregsel : Byte)
deriving DecidableEq, Repr

/-- The one decoder: total on every word in every context, rejecting by name. A PIC8 byte is the low 8 bits of the
word given, an APIC32 word the low 32. -/
def decode (x : Context) (w : Word64) : Except Reject Instr :=
  match x with
  | .request => decodeRequest w
  | .pic c p step => .ok ((picKind p step (w.setWidth 8)).instr c (w.setWidth 8))
  | .mmio r ioregsel => (apicKind r ioregsel).map fun k => k.instr (w.setWidth 32)

/-- The instruction read from the `nbits` bits `w`, numbered as the opcode table numbers them. A request word fixes
its instruction; a byte or a 32-bit word does not (R91), so the model reads a byte as one on the master's command port
while the chip is Ready, and a 32-bit word as one on the I/O APIC's index register (log 18). -/
def decodeTableWord (nbits w : Nat) : Option Instr :=
  match nbits with
  | 64 => (decode .request (BitVec.ofNat 64 w)).toOption
  | 8 => (decode (.pic .master .command .ready) (BitVec.ofNat 64 w)).toOption
  | 32 => (decode (.mmio .ioapicIndex 0#8) (BitVec.ofNat 64 w)).toOption
  | _ => none

/-- R69: the request word with the given fields; bits 63:40 are zero. -/
def packRequest (op : Opcode) (a b c d : Byte) : Word64 :=
  0#24 ++ d ++ c ++ b ++ a ++ op.code

/-- R71: the C field of IOAPIC_WRITE_ENTRY; bits 7:6 are zero. -/
def packModes (dm : DeliveryMode) (dsm : DestMode) (pol : Polarity) (trg : TriggerMode) : Byte :=
  0#2 ++ BitVec.ofBool trg.bit ++ BitVec.ofBool pol.bit ++ BitVec.ofBool dsm.bit ++ dm.code

/-- The word of an instruction: a request's 64 bits, a PIC8 row's byte or an APIC32 row's word in the low bits. -/
def encode : Instr → Word64
  | .picInit mb sb => packRequest .picInit mb sb 0#8 0#8
  | .picReadMasks => packRequest .picReadMasks 0#8 0#8 0#8 0#8
  | .picWriteMasks m s => packRequest .picWriteMasks m s 0#8 0#8
  | .picMask l => packRequest .picMask l 0#8 0#8 0#8
  | .picUnmask l => packRequest .picUnmask l 0#8 0#8 0#8
  | .picUnmaskAll => packRequest .picUnmaskAll 0#8 0#8 0#8 0#8
  | .picEoi l => packRequest .picEoi l 0#8 0#8 0#8
  | .ioapicWriteEntry n vec dm dsm pol trg dest =>
    packRequest .ioapicWriteEntry n vec (packModes dm dsm pol trg) dest
  | .ioapicSetMask n m => packRequest .ioapicSetMask n ((BitVec.ofBool m).setWidth 8) 0#8 0#8
  | .lapicEnable v => packRequest .lapicEnable v 0#8 0#8 0#8
  | .lapicEoi => packRequest .lapicEoi 0#8 0#8 0#8 0#8
  | .icw1 _ v => v.setWidth 64
  | .icw2 _ v => v.setWidth 64
  | .icw3 _ v => v.setWidth 64
  | .icw4 _ v => v.setWidth 64
  | .ocw1 _ v => v.setWidth 64
  | .ocw2NonspecificEoi _ => 0x20#64
  | .ocw2Other _ v => v.setWidth 64
  | .ocw3 _ v => v.setWidth 64
  | .ioapicIndexWrite v => v.setWidth 64
  | .ioapicWindowWriteLo _ v => v.setWidth 64
  | .ioapicWindowWriteHi _ v => v.setWidth 64
  | .lapicSvrWrite v => v.setWidth 64
  | .lapicTprWrite v => v.setWidth 64
  | .lapicEoiWrite v => v.setWidth 64

/-- R86: the index of the low half of entry `n`. -/
def loIndex (n : Nat) : Byte := BitVec.ofNat 8 (0x10 + 2 * n)

/-- R86: the index of the high half of entry `n`. -/
def hiIndex (n : Nat) : Byte := BitVec.ofNat 8 (0x11 + 2 * n)

/-- A context in which an instruction's word stands for it (R74, R75, R91). -/
def Instr.context : Instr → Context
  | .picInit _ _ => .request
  | .picReadMasks => .request
  | .picWriteMasks _ _ => .request
  | .picMask _ => .request
  | .picUnmask _ => .request
  | .picUnmaskAll => .request
  | .picEoi _ => .request
  | .ioapicWriteEntry _ _ _ _ _ _ _ => .request
  | .ioapicSetMask _ _ => .request
  | .lapicEnable _ => .request
  | .lapicEoi => .request
  | .icw1 c _ => .pic c .command .ready
  | .icw2 c _ => .pic c .data .awaitIcw2
  | .icw3 c _ => .pic c .data .awaitIcw3
  | .icw4 c _ => .pic c .data .awaitIcw4
  | .ocw1 c _ => .pic c .data .ready
  | .ocw2NonspecificEoi c => .pic c .command .ready
  | .ocw2Other c _ => .pic c .command .awaitIcw2
  | .ocw3 c _ => .pic c .command .ready
  | .ioapicIndexWrite _ => .mmio .ioapicIndex 0#8
  | .ioapicWindowWriteLo n _ => .mmio .ioapicWindow (loIndex n)
  | .ioapicWindowWriteHi n _ => .mmio .ioapicWindow (hiIndex n)
  | .lapicSvrWrite _ => .mmio .lapicSvr 0#8
  | .lapicTprWrite _ => .mmio .lapicTpr 0#8
  | .lapicEoiWrite _ => .mmio .lapicEoi 0#8

/-- The number of bits of an instruction's word (R69, R74, 30_encoding section 3). -/
def Instr.width : Instr → Nat
  | .picInit _ _ => 64
  | .picReadMasks => 64
  | .picWriteMasks _ _ => 64
  | .picMask _ => 64
  | .picUnmask _ => 64
  | .picUnmaskAll => 64
  | .picEoi _ => 64
  | .ioapicWriteEntry _ _ _ _ _ _ _ => 64
  | .ioapicSetMask _ _ => 64
  | .lapicEnable _ => 64
  | .lapicEoi => 64
  | .icw1 _ _ => 8
  | .icw2 _ _ => 8
  | .icw3 _ _ => 8
  | .icw4 _ _ => 8
  | .ocw1 _ _ => 8
  | .ocw2NonspecificEoi _ => 8
  | .ocw2Other _ _ => 8
  | .ocw3 _ _ => 8
  | .ioapicIndexWrite _ => 32
  | .ioapicWindowWriteLo _ _ => 32
  | .ioapicWindowWriteHi _ _ => 32
  | .lapicSvrWrite _ => 32
  | .lapicTprWrite _ => 32
  | .lapicEoiWrite _ => 32

end Sys2Proof
end

