-- ==== Sys2Proof/Machine/Bits.lean ====
section
/-!
DEFINITION. The bit and priority helpers of R15 and R16.
-/

namespace Sys2Proof.Machine

/-- R15: `x` with bit `i` set to `b`. -/
def setBit {w : Nat} (x : BitVec w) (i : Nat) (b : Bool) : BitVec w :=
  if b then x ||| BitVec.twoPow w i else x &&& ~~~BitVec.twoPow w i

/-- R16: `highest_pri8`, the smallest index of a set bit. -/
def highestPri8 (x : Byte) : Option Nat :=
  (List.range 8).find? fun i => x.getLsbD i

/-- The largest index below `n` of a set bit. -/
def highestBelow {w : Nat} (x : BitVec w) : Nat → Option Nat
  | 0 => none
  | n + 1 => if x.getLsbD n then some n else highestBelow x n

/-- R16: `highest_vec`, the largest vector in the set. -/
def highestVec (x : VectorSet) : Option Byte :=
  (highestBelow x 256).map fun v => BitVec.ofNat 8 v

/-- R15: a 64-bit value with its low half replaced. -/
def setLoHalf (w : Word64) (v : Word32) : Word64 := w.extractLsb' 32 32 ++ v

/-- R15: a 64-bit value with its high half replaced. -/
def setHiHalf (w : Word64) (v : Word32) : Word64 := v ++ w.extractLsb' 0 32

/-- R15: the low half of a 64-bit value. -/
def loHalf (w : Word64) : Word32 := w.extractLsb' 0 32

/-- R15: the high half of a 64-bit value. -/
def hiHalf (w : Word64) : Word32 := w.extractLsb' 32 32

end Sys2Proof.Machine
end

