-- ==== Sys2Proof/Machine/State.lean ====
section
/-!
DEFINITION. The machine's state (10_state R20 to R50), its faults and refusals, and its reset.
-/

namespace Sys2Proof.Machine

/-- R17: the agents that take steps. -/
inductive Agent where
  | sequencer
  | host
  | environment
deriving DecidableEq, Repr

/-- Why a step has no successor although nothing was refused. Each is a stop of the model, and each is SAFE: the
machine gets no next state, so nothing can be proved of one. -/
inductive Fault where
  /-- R18: the agent whose turn it is has no enabled step. Raised by the host's submission after a fault (R94, R146),
  by an environment step whose enabling condition fails (R150, R151, R155, R158), and by the sequencer's turn while
  no request is in progress (R96). Safe. -/
  | stuck (a : Agent)
  /-- The sequencer is Busy but `req` holds no request, or `upc` lies past the micro-program's end. R22 and R25 rule
  the state out; raised by the sequencer's turn and by a request's meaning in such a state only. Safe. -/
  | noTransaction
  /-- The master's winning request is line 2 but the slave has none. R151 rules it out (`i = 2` implies `INT(S)`);
  raised by `CPU_INTA_PIC` in no state. Safe. -/
  | cascadeUnanswered
deriving DecidableEq, Repr

/-- R147: the reasons a step is refused. The refusing step is a next state with the mark `refused` set; the step after
it answers `refused` with the reason. Each is SAFE: the model claims nothing of a refused run. -/
inductive Refusal where
  /-- R149: a request of the absent family. Raised by a submission. Safe. -/
  | familyAbsent
  /-- R148: a submission or a raw access while a request is in progress. Raised by the host's steps. Safe. -/
  | busy
  /-- R53, R141: a transaction at an address that is not modelled or is of the absent family. Raised by a raw access.
  Safe. -/
  | unmodelledAddress
  /-- R56, R140: a transaction of another width, a misaligned one, or a read of the LAPIC EOI register. Raised by a
  raw access. Safe. -/
  | unmodelledAccess
  /-- R109: an OCW3, an OCW2 other than 0x20, or an OCW2 while the chip is not Ready. Raised by a write to a command
  port. Safe. -/
  | unmodelledCommand
  /-- R153: an interrupt acknowledge outside the modelled configuration. Raised by `CPU_INTA_PIC`. Safe. -/
  | unmodelledMode
  /-- R130, R131: a data-window access outside the redirection table. Raised by a raw access. Safe. -/
  | unmodelledIoapicRegister
  /-- R155: a delivery with a mode other than FIXED or LOWEST. Raised by `PIN` and `IOAPIC_LEVEL`. Safe. -/
  | unmodelledDeliveryMode
  /-- R156, R158: a Local APIC vector below 0x10. Raised by a delivery or an acknowledge. Safe. -/
  | unmodelledVector
  /-- An instruction the model gives no meaning yet. Raised by no arm: every row has its meaning. Safe. -/
  | notModelled (mnemonic : String)
deriving DecidableEq, Repr

/-- R21: the sequencer's phase. -/
inductive Phase where
  | idle
  | busy
  | faulted
deriving DecidableEq, Repr

/-- R144: the sequencer's fault codes. -/
inductive FaultCode where
  | illegalRequest
  | badVectorBase
  | lineOutOfRange
deriving DecidableEq, Repr

/-- R144: the number of a fault code. -/
def FaultCode.code : FaultCode → BitVec 4
  | .illegalRequest => 1#4
  | .badVectorBase => 2#4
  | .lineOutOfRange => 3#4

/-- R21 to R26: the sequencer's registers. -/
structure Sequencer where
  /-- R21. -/
  phase : Phase
  /-- R22: the request word accepted last. -/
  req : Word64
  /-- R23: the temporary register. -/
  t : Word32
  /-- R24: the result register. -/
  res : BitVec 16
  /-- R25: the index of the next transaction. -/
  upc : BitVec 4
  /-- R26: the sticky fault register. -/
  fault : BitVec 4
deriving DecidableEq, Repr

/-- R36: what a command-port read returns. -/
inductive ReadSel where
  | irr
  | isr
deriving DecidableEq, Repr

/-- R28 to R36: one 8259. -/
structure Pic where
  /-- R28: the interrupt mask register. -/
  imr : Byte
  /-- R29: the interrupt request register. -/
  irr : Byte
  /-- R30: the in-service register. -/
  isr : Byte
  /-- R31: the init step. -/
  step : InitStep
  /-- R32: the last ICW1. -/
  icw1 : Byte
  /-- R33: the last ICW2. -/
  icw2 : Byte
  /-- R34: the last ICW3. -/
  icw3 : Byte
  /-- R35: the last ICW4, or 0. -/
  icw4 : Byte
  /-- R36. -/
  readSel : ReadSel
deriving DecidableEq, Repr

/-- R39, R40: one redirection entry and its remote-IRR status. -/
structure Entry where
  /-- R39: `redir[n]`. -/
  word : Word64
  /-- R40: `remote_irr[n]`. -/
  remoteIrr : Bool
deriving DecidableEq, Repr

/-- R38 to R40: the I/O APIC; the list has one entry for each `n` below N_REDIR. -/
structure Ioapic where
  /-- R38: the index latch. -/
  ioregsel : Byte
  /-- R39, R40: entry `n` at position `n`. -/
  entries : List Entry
deriving DecidableEq, Repr

/-- R41 to R43: the Local APIC. -/
structure Lapic where
  /-- R41: the spurious-interrupt vector register. -/
  svr : Word32
  /-- R42: the task-priority register. -/
  tpr : Word32
  /-- R43: accepted, not yet delivered. -/
  irr : VectorSet
  /-- R43: delivered, not yet ended. -/
  isr : VectorSet
  /-- R43: accepted as level-triggered. -/
  tmr : VectorSet
deriving DecidableEq, Repr

/-- R45 to R47: the environment's inputs and the interrupt latches. -/
structure Env where
  /-- R45: the level of pin `n`, at position `n`. -/
  pin : List Bool
  /-- R47: INT(M) has been asserted since the last acknowledge. -/
  picIntLatch : Bool
  /-- R47: LAPIC_INTR has been asserted since the last acknowledge. -/
  lapicIntLatch : Bool
deriving DecidableEq, Repr

/-- R19: the four kinds of bus transaction. -/
inductive BusKind where
  | iow
  | ior
  | mw
  | mr
deriving DecidableEq, Repr

/-- R19: who delivered a vector. -/
inductive VecSource where
  | pic
  | lapic
deriving DecidableEq, Repr

/-- R19: an event of the history; addresses and values are widened to 32 bits (log 23). -/
inductive Event where
  | bus (kind : BusKind) (address : Word32) (width : Nat) (value : Word32)
  | vec (source : VecSource) (vector : Byte)
deriving DecidableEq, Repr

/-- R56, R66: a single bus transaction by the host; `width` counts bytes. -/
inductive Transaction where
  | ioWrite (port : Port) (width : Nat) (v : Word32)
  | ioRead (port : Port) (width : Nat)
  | memWrite (addr : Word32) (width : Nat) (v : Word32)
  | memRead (addr : Word32) (width : Nat)
deriving DecidableEq, Repr

/-- R17: a step that some agent takes next (log 2). -/
inductive Input where
  /-- R96: the sequencer's micro-step. -/
  | sequencer
  /-- R94: the host submits a request word. -/
  | submit (w : Word64)
  /-- R66: the host makes a raw access. -/
  | raw (x : Transaction)
  /-- R150: an edge on PIC line `l`. -/
  | picEdge (l : Nat)
  /-- R151: the CPU acknowledges the 8259 pair. -/
  | cpuIntaPic
  /-- R155.1: pin `n` is driven to `b`. -/
  | pin (n : Nat) (b : Bool)
  /-- R155.2: entry `n` sends its level-triggered message. -/
  | ioapicLevel (n : Nat)
  /-- R158: the CPU acknowledges the Local APIC. -/
  | cpuIntaLapic
deriving DecidableEq, Repr

/-- R20: the whole state of one machine instance. -/
structure State where
  /-- R9 to R13: the instance's parameters; no step changes them (log 3). -/
  cfg : Config
  /-- R21 to R26. -/
  seq : Sequencer
  /-- R28 to R36: the master 8259. -/
  picM : Pic
  /-- R28 to R36: the slave 8259. -/
  picS : Pic
  /-- R38 to R40. -/
  ioapic : Ioapic
  /-- R41 to R43. -/
  lapic : Lapic
  /-- R45 to R47. -/
  env : Env
  /-- R48: the event history, oldest first. -/
  hist : List Event
  /-- R147: the refusal mark, with its reason (log 8). -/
  refused : Option Refusal
  /-- The model's own: the steps other agents take next, oldest first (log 2). -/
  inputs : List Input
  /-- The model's own: how many free values have been drawn (log 11). -/
  draws : Nat
deriving DecidableEq, Repr

/-- R50, R167: the reset of the sequencer's registers. -/
def Sequencer.reset : Sequencer where
  phase := .idle
  req := 0#64
  t := 0#32
  res := 0#16
  upc := 0#4
  fault := 0#4

/-- R50, R167: reset of an instance with parameters `cfg` whose devices and pins hold the drawn values given. -/
def State.resetWith (cfg : Config) (picM picS : Pic) (ioapic : Ioapic) (lapic : Lapic) (pins : List Bool) : State where
  cfg := cfg
  seq := Sequencer.reset
  picM := picM
  picS := picS
  ioapic := ioapic
  lapic := lapic
  env := { pin := pins, picIntLatch := false, lapicIntLatch := false }
  hist := []
  refused := none
  inputs := []
  draws := 0

/-- DESIGN CHOICE (log 5): the named reset value of an 8259; the spec leaves every field a draw (R50). -/
def Pic.named : Pic where
  imr := 0x00#8
  irr := 0x00#8
  isr := 0x00#8
  step := .ready
  icw1 := 0x00#8
  icw2 := 0x00#8
  icw3 := 0x00#8
  icw4 := 0x00#8
  readSel := .irr

/-- PRESUMED (log 6): the 82093AA's power-on values: index 0, every entry masked and remote IRR clear (R168). The other
bits of an entry are a DESIGN CHOICE. -/
def Ioapic.named (nRedir : Nat) : Ioapic where
  ioregsel := 0x00#8
  entries := List.replicate nRedir { word := 0x0000000000010000#64, remoteIrr := false }

/-- PRESUMED (log 6): the Local APIC's power-on value of R168. -/
def Lapic.named : Lapic where
  svr := 0x000000FF#32
  tpr := 0#32
  irr := 0#256
  isr := 0#256
  tmr := 0#256

/-- The machine right after reset: the instance of `State.resetWith` with the values that logs 4 to 7 name. -/
def State.reset : State :=
  State.resetWith Config.default Pic.named Pic.named (Ioapic.named Config.default.nRedir) Lapic.named
    (List.replicate Config.default.nRedir false)

end Sys2Proof.Machine
end

