-- ==== Sys2Proof/Machine/Operands.lean ====
section
/-!
DEFINITION. Operand forms: the line mapping (R119), the redirection entry's fields and packing (R85), the operand
checks of R73, and the addresses of the ports and registers (R10, R51).
-/

namespace Sys2Proof.Machine

/-- R119: the chip that owns logical line `l`. -/
def chipOf (l : Nat) : Chip := if l < 8 then .master else .slave

/-- R119: the chip's own number for logical line `l`. -/
def bitOf (l : Nat) : Nat := if l < 8 then l else l - 8

/-- R10, R102: the address of a chip's port. -/
def portAddr : Chip → PicPort → Port
  | .master, .command => 0x20#16
  | .master, .data => 0x21#16
  | .slave, .command => 0xA0#16
  | .slave, .data => 0xA1#16

/-- R51, R102: the chip and port that an I/O address reaches. -/
def portTarget (p : Port) : Option (Chip × PicPort) :=
  if p = 0x20#16 then some (.master, .command)
  else if p = 0x21#16 then some (.master, .data)
  else if p = 0xA0#16 then some (.slave, .command)
  else if p = 0xA1#16 then some (.slave, .data)
  else none

/-- R51: the address of an MMIO register. -/
def regAddr (cfg : Config) : MmioReg → Word32
  | .ioapicIndex => cfg.ioapicBase
  | .ioapicWindow => cfg.ioapicBase + 0x10#32
  | .lapicTpr => cfg.lapicBase + 0x080#32
  | .lapicEoi => cfg.lapicBase + 0x0B0#32
  | .lapicSvr => cfg.lapicBase + 0x0F0#32

/-- R51, R97: the register that an MMIO address reaches. Where the two windows of an instance overlap, the I/O APIC
answers (log 14). -/
def regTarget (cfg : Config) (a : Word32) : Option MmioReg :=
  if a = regAddr cfg .ioapicIndex then some .ioapicIndex
  else if a = regAddr cfg .ioapicWindow then some .ioapicWindow
  else if a = regAddr cfg .lapicTpr then some .lapicTpr
  else if a = regAddr cfg .lapicEoi then some .lapicEoi
  else if a = regAddr cfg .lapicSvr then some .lapicSvr
  else none

/-- R85: `pack_lo`. -/
def packLo (vec : Byte) (dm : BitVec 3) (dsm pol trg m : Bool) : Word32 :=
  vec.setWidth 32 ||| (dm.setWidth 32 <<< 8) ||| ((BitVec.ofBool dsm).setWidth 32 <<< 11)
    ||| ((BitVec.ofBool pol).setWidth 32 <<< 13) ||| ((BitVec.ofBool trg).setWidth 32 <<< 15)
    ||| ((BitVec.ofBool m).setWidth 32 <<< 16)

/-- R85: `pack_hi`. -/
def packHi (dest : Byte) : Word32 := dest.setWidth 32 <<< 24

/-- R85: the vector field of an entry. -/
def entryVector (e : Word64) : Byte := e.extractLsb' 0 8
/-- R85: the delivery-mode field of an entry. -/
def entryDeliveryMode (e : Word64) : BitVec 3 := e.extractLsb' 8 3
/-- R85: the destination-mode bit of an entry. -/
def entryDestMode (e : Word64) : Bool := e.getLsbD 11
/-- R85: the polarity bit of an entry. -/
def entryPolarity (e : Word64) : Bool := e.getLsbD 13
/-- R85: the trigger-mode bit of an entry. -/
def entryTriggerMode (e : Word64) : Bool := e.getLsbD 15
/-- R85: the mask bit of an entry. -/
def entryMask (e : Word64) : Bool := e.getLsbD 16
/-- R85: the destination field of an entry. -/
def entryDestination (e : Word64) : Byte := e.extractLsb' 56 8

/-- R13: whether LAPIC_MATCH accepts a destination. -/
def lapicMatches (cfg : Config) (destMode : Bool) (destination : Byte) : Bool :=
  cfg.lapicMatch.getLsbD (256 * destMode.toNat + destination.toNat)

/-- R73: the vector bases of PIC_INIT are both at least 32 and their windows are disjoint, the difference taken in
unbounded integers. -/
def basesValid (mb sb : Byte) : Bool :=
  decide (32 ≤ mb.toNat ∧ 32 ≤ sb.toNat ∧ (mb.toNat + 8 ≤ sb.toNat ∨ sb.toNat + 8 ≤ mb.toNat))

/-- R73: the operand check of PIC_INIT. -/
def checkBases (mb sb : Byte) : Option FaultCode :=
  if basesValid mb sb then none else some .badVectorBase

/-- R73: the operand check of a line number. -/
def checkLine (line : Byte) (bound : Nat) : Option FaultCode :=
  if line.toNat < bound then none else some .lineOutOfRange

end Sys2Proof.Machine
end

