-- ==== Sys2Proof/Machine/Flags.lean ====
section
/-!
DEFINITION. The status values the rules derive from the stored state: the 8259 pair's interrupt outputs (R37), the
modelled configuration (R110), the I/O APIC pin conditions (R155), the Local APIC's output (R157) and the interrupt
latches (R47). Flag bits in the usual sense do not exist (R49).
-/

namespace Sys2Proof.Machine

/-- R102: the chip's registers. -/
def State.pic (s : State) : Chip → Pic
  | .master => s.picM
  | .slave => s.picS

/-- R37: the first vector of a chip's window. -/
def Pic.base (p : Pic) : Byte := p.icw2 &&& 0xF8#8

/-- R37: the requests left by the mask, given the chip's effective request register. -/
def Pic.req (p : Pic) (irrEff : Byte) : Byte := irrEff &&& ~~~p.imr

/-- R37: a request of number `i` is above everything in service. -/
def Pic.above (p : Pic) (i : Nat) : Bool :=
  match highestPri8 p.isr with
  | none => true
  | some j => decide (i < j)

/-- R37: the chip's interrupt output, given its effective request register. -/
def Pic.int (p : Pic) (irrEff : Byte) : Bool :=
  decide (p.step = .ready) &&
    match highestPri8 (p.req irrEff) with
    | none => false
    | some i => p.above i

/-- R37: `INT(S)`, the slave's output. -/
def State.intS (s : State) : Bool := s.picS.int s.picS.irr

/-- R37: `irr_eff(c)`; the master's line 2 follows the slave's output as a level. -/
def State.irrEff (s : State) : Chip → Byte
  | .master => setBit s.picM.irr 2 s.intS
  | .slave => s.picS.irr

/-- R37: `req(c)`. -/
def State.reqOf (s : State) (c : Chip) : Byte := (s.pic c).req (s.irrEff c)

/-- R37: `INT(M)`, the pair's output to the CPU. -/
def State.intM (s : State) : Bool := s.picM.int (s.irrEff .master)

/-- R110: the chip's part of the modelled configuration; the two ICW1 values differ in ADI, which is ignored. -/
def Pic.modelled (p : Pic) (icw3 : Byte) : Bool :=
  decide (p.step = .ready ∧ (p.icw1.extractLsb' 0 4 = 0b0001#4 ∨ p.icw1.extractLsb' 0 4 = 0b0101#4) ∧
    p.icw4 = 0x01#8 ∧ p.icw3 = icw3)

/-- R110: `pic_modelled`. -/
def State.picModelled (s : State) : Bool := s.picM.modelled 0x04#8 && s.picS.modelled 0x02#8

/-- R39: `redir[n]`; 0 where no such entry exists. -/
def Ioapic.redir (a : Ioapic) (n : Nat) : Word64 := (a.entries[n]?.map Entry.word).getD 0#64

/-- R40: `remote_irr[n]`; false where no such entry exists. -/
def Ioapic.remoteIrr (a : Ioapic) (n : Nat) : Bool := (a.entries[n]?.map Entry.remoteIrr).getD false

/-- R45: `env.pin[n]`; false where no such pin exists. -/
def Env.level (e : Env) (n : Nat) : Bool := e.pin[n]?.getD false

/-- R155: `asserted(n)` for the pin level `b`. -/
def assertedAt (e : Word64) (b : Bool) : Bool := b ^^ entryPolarity e

/-- R155: `asserted(n)`. -/
def State.asserted (s : State) (n : Nat) : Bool := assertedAt (s.ioapic.redir n) (s.env.level n)

/-- R155: `match(n)`. -/
def State.matched (s : State) (n : Nat) : Bool :=
  lapicMatches s.cfg (entryDestMode (s.ioapic.redir n)) (entryDestination (s.ioapic.redir n))

/-- R157: the priority class of a vector, its bits 7:4. -/
def vectorClass (v : Byte) : Nat := v.toNat / 16

/-- R157: `isrv[7:4]`, the class of the highest vector in service, 0 if there is none. -/
def Lapic.serviceClass (a : Lapic) : Nat :=
  match highestVec a.isr with
  | none => 0
  | some v => vectorClass v

/-- R157: `ppr_class`, the greater of TPR bits 7:4 and the class in service. -/
def Lapic.pprClass (a : Lapic) : Nat := max ((a.tpr.extractLsb' 4 4).toNat) a.serviceClass

/-- R157: `LAPIC_INTR`. -/
def Lapic.intr (a : Lapic) : Bool :=
  match highestVec a.irr with
  | none => false
  | some v => decide (a.pprClass < vectorClass v)

/-- R47: the interrupt latches after a step of any agent. -/
def State.latched (s : State) : State :=
  match s.cfg.family with
  | .pic => { s with env := { s.env with picIntLatch := s.env.picIntLatch || s.intM } }
  | .apic => { s with env := { s.env with lapicIntLatch := s.env.lapicIntLatch || s.lapic.intr } }

end Sys2Proof.Machine
end

