-- ==== Sys2Proof/Machine/Ops.lean ====
section
/-!
DEFINITION. The operations every step shares: how a step ends (R18), refusing (R147), taking a fault (R146), the
history (R19), the responses of the three devices to a transaction (files 41, 45, 46), and sending and acknowledging
interrupts (60_exceptions part 2).
-/

namespace Sys2Proof.Machine

/-- The three outcomes of a step of this machine. -/
abbrev Outcome := Host.Outcome State Fault Refusal

/-! ### How a step ends -/

/-- R147: a refusal sets the mark and changes nothing else. -/
def State.markRefused (s : State) (r : Refusal) : State := { s with refused := some r }

/-- The end of a step that started in `s`: the state it reached with the latches of R47, or the refusal of R147. -/
def finish (s : State) : Except Refusal State → Outcome
  | .ok t => .next t.latched
  | .error r => .next (s.markRefused r)

/-- R146: TAKING A FAULT. The code and the whole offending word are recorded, the sequencer stops, and no device and
no history changes. There is no return from a fault: only a reset clears it (R146, R167). -/
def raiseFault (c : FaultCode) (w : Word64) (s : State) : Outcome :=
  finish s (.ok { s with seq := { s.seq with fault := c.code, req := w, phase := .faulted, upc := 0#4 } })

/-- R94: a request that passed every check is in progress from its first transaction. -/
def accept (w : Word64) (s : State) : Outcome :=
  finish s (.ok { s with seq := { s.seq with req := w, upc := 0#4, phase := .busy } })

/-- R19: an event is appended to the history. -/
def State.log (s : State) (e : Event) : State := { s with hist := s.hist ++ [e] }

/-- R151: `deliver(src, v)`, where the block's part of an interrupt ends (R160). -/
def State.deliver (s : State) (src : VecSource) (v : Byte) : State := s.log (.vec src v)

/-! ### The 8259 (file 41) -/

/-- R102: a chip's registers are replaced; the other chip is untouched. -/
def State.setPic (s : State) (c : Chip) (p : Pic) : State :=
  match c with
  | .master => { s with picM := p }
  | .slave => { s with picS := p }

/-- R103: ICW1. DESIGN CHOICE (log 32): R58 counts ICW1 among the writes that are not idempotent; R103's pseudocode, which
is followed here, leaves the chip the same when ICW1 is repeated with nothing between. -/
def Pic.takeIcw1 (p : Pic) (v : Byte) : Pic :=
  { p with icw1 := v, step := .awaitIcw2, imr := 0x00#8, irr := 0x00#8, isr := 0x00#8, readSel := .irr,
           icw4 := if v.getLsbD 0 then p.icw4 else 0x00#8 }

/-- R104: ICW2. -/
def Pic.takeIcw2 (p : Pic) (v : Byte) : Pic :=
  { p with icw2 := v,
           step := if p.icw1.getLsbD 1 = false then .awaitIcw3
                   else if p.icw1.getLsbD 0 then .awaitIcw4 else .ready }

/-- R105: ICW3. -/
def Pic.takeIcw3 (p : Pic) (v : Byte) : Pic :=
  { p with icw3 := v, step := if p.icw1.getLsbD 0 then .awaitIcw4 else .ready }

/-- R106: ICW4. -/
def Pic.takeIcw4 (p : Pic) (v : Byte) : Pic := { p with icw4 := v, step := .ready }

/-- R107: OCW1. -/
def Pic.takeOcw1 (p : Pic) (v : Byte) : Pic := { p with imr := v }

/-- R108: the highest-priority in-service bit, if any, is cleared. -/
def Pic.takeEoi (p : Pic) : Pic :=
  match highestPri8 p.isr with
  | none => p
  | some i => { p with isr := setBit p.isr i false }

/-- R103 to R109: what chip `c` does with a byte of kind `k`. DESIGN CHOICE (log 33): a chip that is not Ready refuses the
byte 0x20 whoever sends it, the sequencer's PIC_EOI too (R125, D10, the table of R147), although the last paragraph of R147
and a corner case of R109 say that the micro-programs never cause UnmodelledCommand. -/
def picRespond (k : PicKind) (c : Chip) (v : Byte) (s : State) : Except Refusal State :=
  match k with
  | .icw1 => .ok (s.setPic c ((s.pic c).takeIcw1 v))
  | .icw2 => .ok (s.setPic c ((s.pic c).takeIcw2 v))
  | .icw3 => .ok (s.setPic c ((s.pic c).takeIcw3 v))
  | .icw4 => .ok (s.setPic c ((s.pic c).takeIcw4 v))
  | .ocw1 => .ok (s.setPic c ((s.pic c).takeOcw1 v))
  | .ocw2NonspecificEoi =>
    if (s.pic c).step = .ready then .ok (s.setPic c (s.pic c).takeEoi) else .error .unmodelledCommand
  | .ocw2Other => .error .unmodelledCommand
  | .ocw3 => .error .unmodelledCommand

/-- R74, R75: the port on which a byte of kind `k` stands. -/
def kindPort : PicKind → PicPort
  | .icw1 | .ocw2NonspecificEoi | .ocw2Other | .ocw3 => .command
  | .icw2 | .icw3 | .icw4 | .ocw1 => .data

/-- A whole PIC8 write transaction of known kind: the ports exist only with FAMILY = PIC (R53), the chip responds,
and the transaction enters the history (R19). -/
def picTransaction (k : PicKind) (c : Chip) (v : Byte) (s : State) : Except Refusal State :=
  if s.cfg.family = .pic then
    (picRespond k c v s).map fun t =>
      t.log (.bus .iow ((portAddr c (kindPort k)).setWidth 32) 1 (v.setWidth 32))
  else .error .unmodelledAddress

/-- R97: `IoWrite(port, 1, v)`. -/
def portWrite (port : Port) (v : Byte) (s : State) : Except Refusal State :=
  match portTarget port with
  | none => .error .unmodelledAddress
  | some (c, p) => picTransaction (picKind p (s.pic c).step v) c v s

/-- R111, R112: the byte a port reads as. -/
def picReadValue (c : Chip) (p : PicPort) (s : State) : Byte :=
  match p, (s.pic c).readSel with
  | .data, _ => (s.pic c).imr
  | .command, .irr => s.irrEff c
  | .command, .isr => (s.pic c).isr

/-- R97: `IoRead(port, 1)`: the byte read, and the state after. -/
def portRead (port : Port) (s : State) : Except Refusal (Byte × State) :=
  match portTarget port with
  | none => .error .unmodelledAddress
  | some (c, p) =>
    if s.cfg.family = .pic then
      .ok (picReadValue c p s, s.log (.bus .ior (port.setWidth 32) 1 ((picReadValue c p s).setWidth 32)))
    else .error .unmodelledAddress

/-! ### The I/O APIC and the Local APIC (files 45, 46) -/

/-- R130, R40: entry `n` is replaced. -/
def State.setEntry (s : State) (n : Nat) (e : Entry) : State :=
  { s with ioapic := { s.ioapic with entries := s.ioapic.entries.set n e } }

/-- R130: bits 12 and 14 of a low half are read-only and are not stored. -/
def lowHalfStored (v : Word32) : Word32 := v &&& ~~~0x00005000#32

/-- R130: the entry after a data-window write of one half. -/
def writtenWord (e : Word64) (h : Half) (v : Word32) : Word64 :=
  match h with
  | .lo => setLoHalf e (lowHalfStored v)
  | .hi => setHiHalf e v

/-- R130: a data-window write of one half of entry `n`. -/
def windowWrite (n : Nat) (h : Half) (v : Word32) (s : State) : Except Refusal State :=
  if n < s.cfg.nRedir then
    .ok (s.setEntry n { word := writtenWord (s.ioapic.redir n) h v, remoteIrr := s.ioapic.remoteIrr n })
  else .error .unmodelledIoapicRegister

/-- R139: the EOI broadcast clears remote IRR of every entry with the vector. -/
def broadcastEoi (x : Byte) (es : List Entry) : List Entry :=
  es.map fun e => if entryVector e.word = x then { e with remoteIrr := false } else e

/-- R139: a write of the EOI register; the value written plays no part. -/
def State.takeLapicEoi (s : State) : State :=
  match highestVec s.lapic.isr with
  | none => s
  | some x =>
    { s with
      lapic := { s.lapic with isr := setBit s.lapic.isr x.toNat false }
      ioapic := { s.ioapic with
        entries := if s.lapic.tmr.getLsbD x.toNat && !s.lapic.svr.getLsbD 12 then broadcastEoi x s.ioapic.entries
                   else s.ioapic.entries } }

/-- R128, R130, R136, R138, R139: what the APIC pair does with a write of kind `k`. -/
def apicRespond (k : ApicKind) (v : Word32) (s : State) : Except Refusal State :=
  match k with
  | .indexWrite => .ok { s with ioapic := { s.ioapic with ioregsel := v.extractLsb' 0 8 } }
  | .windowWriteLo n => windowWrite n .lo v s
  | .windowWriteHi n => windowWrite n .hi v s
  | .svrWrite => .ok { s with lapic := { s.lapic with svr := v } }
  | .tprWrite => .ok { s with lapic := { s.lapic with tpr := v } }
  | .eoiWrite => .ok s.takeLapicEoi

/-- R97: the register on which a write of kind `k` stands. -/
def kindReg : ApicKind → MmioReg
  | .indexWrite => .ioapicIndex
  | .windowWriteLo _ => .ioapicWindow
  | .windowWriteHi _ => .ioapicWindow
  | .svrWrite => .lapicSvr
  | .tprWrite => .lapicTpr
  | .eoiWrite => .lapicEoi

/-- A whole APIC32 write transaction of known kind: the registers exist only with FAMILY = APIC (R53), the device
responds, and the transaction enters the history (R19). -/
def apicTransaction (k : ApicKind) (v : Word32) (s : State) : Except Refusal State :=
  if s.cfg.family = .apic then
    (apicRespond k v s).map fun t => t.log (.bus .mw (regAddr s.cfg (kindReg k)) 4 v)
  else .error .unmodelledAddress

/-- The refusal of a write that decoding rejects: only an index outside the table (R130). -/
def rejectRefusal : Reject → Refusal
  | .unknownOp => .unmodelledAccess
  | .mustBeZero => .unmodelledAccess
  | .reservedDeliveryMode => .unmodelledAccess
  | .ioapicRegister => .unmodelledIoapicRegister

/-- R97: the kind of an MMIO write to an address, or its refusal. -/
def mmioKind (a : Word32) (s : State) : Except Refusal ApicKind :=
  if s.cfg.family = .apic then
    match regTarget s.cfg a with
    | none => .error .unmodelledAddress
    | some r => (apicKind r s.ioapic.ioregsel).mapError rejectRefusal
  else .error .unmodelledAddress

/-- R97: `MemWrite(a, 4, v)`. -/
def mmioWrite (a : Word32) (v : Word32) (s : State) : Except Refusal State :=
  match mmioKind a s with
  | .error r => .error r
  | .ok k => apicTransaction k v s

/-- R131: the low half of entry `n` as it reads, with the delivery status `status`. -/
def lowHalfRead (a : Ioapic) (n : Nat) (status : Bool) : Word32 :=
  loHalf (a.redir n) ||| ((BitVec.ofBool status).setWidth 32 <<< 12)
    ||| ((BitVec.ofBool (a.remoteIrr n)).setWidth 32 <<< 14)

/-- R131: a data-window read: the word, and the state after the delivery-status draw. -/
def windowRead (s : State) : Except Refusal (Word32 × State) :=
  match indexTarget s.ioapic.ioregsel with
  | none => .error .unmodelledIoapicRegister
  | some (n, h) =>
    if n < s.cfg.nRedir then
      match h with
      | .lo => .ok (lowHalfRead s.ioapic n (Config.freeDeliveryStatus s.draws), { s with draws := s.draws + 1 })
      | .hi => .ok (hiHalf (s.ioapic.redir n), s)
    else .error .unmodelledIoapicRegister

/-- R129, R131, R137, R138, R140: what a register reads as. -/
def regRead (r : MmioReg) (s : State) : Except Refusal (Word32 × State) :=
  match r with
  | .ioapicIndex => .ok (s.ioapic.ioregsel.setWidth 32, s)
  | .ioapicWindow => windowRead s
  | .lapicTpr => .ok (s.lapic.tpr, s)
  | .lapicEoi => .error .unmodelledAccess
  | .lapicSvr => .ok (s.lapic.svr, s)

/-- R97: `MemRead(a, 4)`: the word read, and the state after. -/
def mmioRead (a : Word32) (s : State) : Except Refusal (Word32 × State) :=
  if s.cfg.family = .apic then
    match regTarget s.cfg a with
    | none => .error .unmodelledAddress
    | some r => (regRead r s).map fun (v, t) => (v, t.log (.bus .mr a 4 v))
  else .error .unmodelledAddress

/-! ### Interrupts (60_exceptions part 2) -/

/-- R156: the Local APIC registers an accepted message. -/
def Lapic.register (a : Lapic) (v : Byte) (level : Bool) : Lapic :=
  { a with irr := setBit a.irr v.toNat true, tmr := setBit a.tmr v.toNat level }

/-- R156: acceptance of a message; a software-disabled Local APIC accepts or drops it as a free value says. -/
def lapicAccept (v : Byte) (level : Bool) (s : State) : Except Refusal State :=
  if v.toNat < 0x10 then .error .unmodelledVector
  else if s.lapic.svr.getLsbD 8 then .ok { s with lapic := s.lapic.register v level }
  else if Config.freeDrop s.draws then .ok { s with draws := s.draws + 1 }
  else .ok { s with lapic := s.lapic.register v level, draws := s.draws + 1 }

/-- R155.3: entry `n` sends its message; only FIXED and LOWEST have a meaning, and with one Local APIC they are the
same. -/
def sendMessage (n : Nat) (s : State) : Except Refusal State :=
  let e := s.ioapic.redir n
  if entryDeliveryMode e = 0b000#3 ∨ entryDeliveryMode e = 0b001#3 then
    lapicAccept (entryVector e) (entryTriggerMode e) s
  else .error .unmodelledDeliveryMode

/-- R151: an acknowledged request of chip `c` number `i`: the in-service bit is set, and the latched request is
cleared if it is one (`latched`; the master's line 2 is not). -/
def Pic.acknowledge (p : Pic) (i : Nat) (latched : Bool) : Pic :=
  { p with isr := setBit p.isr i true, irr := if latched then setBit p.irr i false else p.irr }

/-- R158: the highest requested vector goes into service. -/
def Lapic.acknowledge (a : Lapic) (v : Byte) : Lapic :=
  { a with irr := setBit a.irr v.toNat false, isr := setBit a.isr v.toNat true }

end Sys2Proof.Machine
end

