-- ==== Sys2Proof/Machine/Sequencer.lean ====
section
/-!
DEFINITION. Micro-programs and the sequencer's micro-step (R95, R96), and the shape every request's meaning shares:
acceptance (R94) while Idle, the next transaction while Busy.
-/

namespace Sys2Proof.Machine

/-- R95: where a read transaction puts its value. -/
inductive Dst where
  /-- `seq.t`. -/
  | t
  /-- `seq.res[7:0]`. -/
  | resLo
  /-- `seq.res[15:8]`. -/
  | resHi
deriving DecidableEq, Repr

/-- R95: an element of a micro-program. An expression is over the request's operands, which are its own, and over
`seq.t`. -/
inductive Micro where
  | out8 (port : Port) (e : Word32 → Byte)
  | in8 (port : Port) (dst : Dst)
  | st32 (a : Word32) (e : Word32 → Word32)
  | ld32 (a : Word32) (dst : Dst)

/-- R95: a micro-program, fixed when the request is accepted. -/
abbrev Program := List Micro

/-- R96: the value read goes to its destination, zero-extended (R23) or as one byte of the result (R24). -/
def State.setDst (s : State) (d : Dst) (v : Word32) : State :=
  match d with
  | .t => { s with seq := { s.seq with t := v } }
  | .resLo => { s with seq := { s.seq with res := s.seq.res.extractLsb' 8 8 ++ v.extractLsb' 0 8 } }
  | .resHi => { s with seq := { s.seq with res := v.extractLsb' 0 8 ++ s.seq.res.extractLsb' 0 8 } }

/-- R96, R97: one transaction against the device that owns its address. -/
def perform (x : Micro) (s : State) : Except Refusal State :=
  match x with
  | .out8 p e => portWrite p (e s.seq.t) s
  | .in8 p d => (portRead p s).map fun (v, t) => t.setDst d (v.setWidth 32)
  | .st32 a e => mmioWrite a (e s.seq.t) s
  | .ld32 a d => (mmioRead a s).map fun (v, t) => t.setDst d v

/-- R96: `upc` moves on; after the last of `len` transactions the request completes. -/
def State.advance (s : State) (len : Nat) : State :=
  if s.seq.upc.toNat + 1 = len then { s with seq := { s.seq with phase := .idle, upc := 0#4 } }
  else { s with seq := { s.seq with upc := s.seq.upc + 1#4 } }

/-- R96: the sequencer's micro-step in the micro-program `prog`. -/
def microStep (prog : Program) (s : State) : Outcome :=
  match prog[s.seq.upc.toNat]? with
  | none => .fault .noTransaction
  | some x => finish s ((perform x s).map fun t => t.advance prog.length)

/-- What every request does with its turn. Idle: R94's acceptance, after the family check of R72 and the operand
check `chk` of R73. Busy with this very request: R96's micro-step. Busy with another request: R148. Faulted: the host
has no submit step (R94). -/
def runRequest (fam : Family) (i : Instr) (chk : Option FaultCode) (prog : Program) (s : State) : Outcome :=
  match s.seq.phase with
  | .faulted => .fault (.stuck .host)
  | .busy => if s.seq.req = encode i then microStep prog s else finish s (.error .busy)
  | .idle =>
    if fam = s.cfg.family then
      match chk with
      | some c => raiseFault c (encode i) s
      | none => accept (encode i) s
    else finish s (.error .familyAbsent)

/-- R66, R148: a raw access by the host: refused while a request is in progress, else performed. -/
def rawAccess (f : State → Except Refusal State) (s : State) : Outcome :=
  match s.seq.phase with
  | .busy => finish s (.error .busy)
  | .idle => finish s (f s)
  | .faulted => finish s (f s)

end Sys2Proof.Machine
end

