-- ==== Sys2Proof/Machine/ApicRequests.lean ====
section
/-!
DEFINITION. The four requests of the APIC family (files 45, 46): each one's micro-program and its meaning.
-/

namespace Sys2Proof.Machine

/-- R133: the four transactions of IOAPIC_WRITE_ENTRY; the low half carries the mask bit set. -/
def ioapicWriteEntryProgram (cfg : Config) (line vec : Byte) (dm : DeliveryMode) (dsm : DestMode) (pol : Polarity)
    (trg : TriggerMode) (dest : Byte) : Program :=
  [ .st32 (regAddr cfg .ioapicIndex) fun _ => (loIndex line.toNat).setWidth 32,
    .st32 (regAddr cfg .ioapicWindow) fun _ => packLo vec dm.code dsm.bit pol.bit trg.bit true,
    .st32 (regAddr cfg .ioapicIndex) fun _ => (hiIndex line.toNat).setWidth 32,
    .st32 (regAddr cfg .ioapicWindow) fun _ => packHi dest ]

/-- R133: IOAPIC_WRITE_ENTRY. -/
def execIoapicWriteEntry (line vec : Byte) (dm : DeliveryMode) (dsm : DestMode) (pol : Polarity) (trg : TriggerMode)
    (dest : Byte) (s : State) : Outcome :=
  runRequest .apic (.ioapicWriteEntry line vec dm dsm pol trg dest) (checkLine line s.cfg.nRedir)
    (ioapicWriteEntryProgram s.cfg line vec dm dsm pol trg dest) s

/-- R134: the word read with its mask bit, bit 16, replaced. -/
def withMaskBit (t : Word32) (m : Bool) : Word32 :=
  (t &&& ~~~0x00010000#32) ||| ((BitVec.ofBool m).setWidth 32 <<< 16)

/-- R134: the three transactions of IOAPIC_SET_MASK. -/
def ioapicSetMaskProgram (cfg : Config) (line : Byte) (m : Bool) : Program :=
  [ .st32 (regAddr cfg .ioapicIndex) fun _ => (loIndex line.toNat).setWidth 32,
    .ld32 (regAddr cfg .ioapicWindow) .t,
    .st32 (regAddr cfg .ioapicWindow) fun t => withMaskBit t m ]

/-- R134: IOAPIC_SET_MASK. -/
def execIoapicSetMask (line : Byte) (m : Bool) (s : State) : Outcome :=
  runRequest .apic (.ioapicSetMask line m) (checkLine line s.cfg.nRedir) (ioapicSetMaskProgram s.cfg line m) s

/-- R142: the one transaction of LAPIC_ENABLE. -/
def lapicEnableProgram (cfg : Config) (v : Byte) : Program :=
  [.st32 (regAddr cfg .lapicSvr) fun _ => 0x00000100#32 ||| v.setWidth 32]

/-- R142: LAPIC_ENABLE. -/
def execLapicEnable (v : Byte) (s : State) : Outcome :=
  runRequest .apic (.lapicEnable v) none (lapicEnableProgram s.cfg v) s

/-- R143: the one transaction of LAPIC_EOI. -/
def lapicEoiProgram (cfg : Config) : Program := [.st32 (regAddr cfg .lapicEoi) fun _ => 0x00000000#32]

/-- R143: LAPIC_EOI. -/
def execLapicEoi (s : State) : Outcome := runRequest .apic .lapicEoi none (lapicEoiProgram s.cfg) s

end Sys2Proof.Machine
end

