-- ==== Sys2Proof/Machine/DeviceWrites.lean ====
section
/-!
DEFINITION. The PIC8 and APIC32 rows as instructions: each is one write transaction made by the host (R66), with the
response of files 41, 45 and 46. The sequencer's own micro-programs reach the same responses through their ports and
addresses (R97).
-/

namespace Sys2Proof.Machine

/-- R103: ICW1. -/
def execIcw1 (c : Chip) (v : Byte) (s : State) : Outcome := rawAccess (picTransaction .icw1 c v) s

/-- R104: ICW2. -/
def execIcw2 (c : Chip) (v : Byte) (s : State) : Outcome := rawAccess (picTransaction .icw2 c v) s

/-- R105: ICW3. -/
def execIcw3 (c : Chip) (v : Byte) (s : State) : Outcome := rawAccess (picTransaction .icw3 c v) s

/-- R106: ICW4. -/
def execIcw4 (c : Chip) (v : Byte) (s : State) : Outcome := rawAccess (picTransaction .icw4 c v) s

/-- R107: OCW1. -/
def execOcw1 (c : Chip) (v : Byte) (s : State) : Outcome := rawAccess (picTransaction .ocw1 c v) s

/-- R108: the OCW2 non-specific EOI, the byte 0x20. -/
def execOcw2NonspecificEoi (c : Chip) (s : State) : Outcome :=
  rawAccess (picTransaction .ocw2NonspecificEoi c 0x20#8) s

/-- R109: any other OCW2: the refusal `UnmodelledCommand` is taken as R147 describes it. -/
def execOcw2Other (c : Chip) (v : Byte) (s : State) : Outcome := rawAccess (picTransaction .ocw2Other c v) s

/-- R109: OCW3: the refusal `UnmodelledCommand` is taken as R147 describes it. -/
def execOcw3 (c : Chip) (v : Byte) (s : State) : Outcome := rawAccess (picTransaction .ocw3 c v) s

/-- R128: a write of the I/O APIC index register. -/
def execIoapicIndexWrite (v : Word32) (s : State) : Outcome := rawAccess (apicTransaction .indexWrite v) s

/-- R130: a data-window write of the low half of entry `n`. -/
def execIoapicWindowWriteLo (n : Nat) (v : Word32) (s : State) : Outcome :=
  rawAccess (apicTransaction (.windowWriteLo n) v) s

/-- R130: a data-window write of the high half of entry `n`. -/
def execIoapicWindowWriteHi (n : Nat) (v : Word32) (s : State) : Outcome :=
  rawAccess (apicTransaction (.windowWriteHi n) v) s

/-- R136: a write of the SVR. -/
def execLapicSvrWrite (v : Word32) (s : State) : Outcome := rawAccess (apicTransaction .svrWrite v) s

/-- R138: a write of the TPR. -/
def execLapicTprWrite (v : Word32) (s : State) : Outcome := rawAccess (apicTransaction .tprWrite v) s

/-- R139: a write of the EOI register. -/
def execLapicEoiWrite (v : Word32) (s : State) : Outcome := rawAccess (apicTransaction .eoiWrite v) s

end Sys2Proof.Machine
end

