-- ==== Sys2Proof/Machine/PicRequests.lean ====
section
/-!
DEFINITION. The seven requests of the PIC family (files 42, 43, 44): each one's micro-program and its meaning.
-/

namespace Sys2Proof.Machine

/-- R113: the ten transactions of PIC_INIT. -/
def picInitProgram (mb sb : Byte) : Program :=
  [ .out8 0x20#16 fun _ => 0x11#8,
    .out8 0xA0#16 fun _ => 0x11#8,
    .out8 0x21#16 fun _ => mb,
    .out8 0xA1#16 fun _ => sb,
    .out8 0x21#16 fun _ => 0x04#8,
    .out8 0xA1#16 fun _ => 0x02#8,
    .out8 0x21#16 fun _ => 0x01#8,
    .out8 0xA1#16 fun _ => 0x01#8,
    .out8 0x21#16 fun _ => 0xFF#8,
    .out8 0xA1#16 fun _ => 0xFF#8 ]

/-- R113: PIC_INIT. -/
def execPicInit (mb sb : Byte) (s : State) : Outcome :=
  runRequest .pic (.picInit mb sb) (checkBases mb sb) (picInitProgram mb sb) s

/-- R117: the two transactions of PIC_READ_MASKS. -/
def picReadMasksProgram : Program := [.in8 0x21#16 .resLo, .in8 0xA1#16 .resHi]

/-- R117: PIC_READ_MASKS. -/
def execPicReadMasks (s : State) : Outcome := runRequest .pic .picReadMasks none picReadMasksProgram s

/-- R118: the two transactions of PIC_WRITE_MASKS. -/
def picWriteMasksProgram (m sl : Byte) : Program := [.out8 0x21#16 fun _ => m, .out8 0xA1#16 fun _ => sl]

/-- R118: PIC_WRITE_MASKS. -/
def execPicWriteMasks (m sl : Byte) (s : State) : Outcome :=
  runRequest .pic (.picWriteMasks m sl) none (picWriteMasksProgram m sl) s

/-- R119: `data(l)`. -/
def dataPort (line : Byte) : Port := portAddr (chipOf line.toNat) .data

/-- R119: `1 << bit(l)`. -/
def lineMask (line : Byte) : Byte := BitVec.twoPow 8 (bitOf line.toNat)

/-- R120: the two transactions of PIC_MASK. -/
def picMaskProgram (line : Byte) : Program :=
  [.in8 (dataPort line) .t, .out8 (dataPort line) fun t => t.extractLsb' 0 8 ||| lineMask line]

/-- R120: PIC_MASK. -/
def execPicMask (line : Byte) (s : State) : Outcome :=
  runRequest .pic (.picMask line) (checkLine line 16) (picMaskProgram line) s

/-- R121: the two transactions of PIC_UNMASK. -/
def picUnmaskProgram (line : Byte) : Program :=
  [.in8 (dataPort line) .t, .out8 (dataPort line) fun t => t.extractLsb' 0 8 &&& ~~~lineMask line]

/-- R121: PIC_UNMASK. -/
def execPicUnmask (line : Byte) (s : State) : Outcome :=
  runRequest .pic (.picUnmask line) (checkLine line 16) (picUnmaskProgram line) s

/-- R122: the two transactions of PIC_UNMASK_ALL. -/
def picUnmaskAllProgram : Program := [.out8 0x21#16 fun _ => 0x00#8, .out8 0xA1#16 fun _ => 0x00#8]

/-- R122: PIC_UNMASK_ALL. -/
def execPicUnmaskAll (s : State) : Outcome := runRequest .pic .picUnmaskAll none picUnmaskAllProgram s

/-- R125: the transactions of PIC_EOI, the slave's first where the line is the slave's (R126). Each is refused where its
chip is not Ready, as R125 says and the last paragraph of R147 denies (log 33, DESIGN CHOICE). -/
def picEoiProgram (line : Byte) : Program :=
  if line.toNat < 8 then [.out8 0x20#16 fun _ => 0x20#8]
  else [.out8 0xA0#16 fun _ => 0x20#8, .out8 0x20#16 fun _ => 0x20#8]

/-- R125: PIC_EOI. -/
def execPicEoi (line : Byte) (s : State) : Outcome :=
  runRequest .pic (.picEoi line) (checkLine line 16) (picEoiProgram line) s

end Sys2Proof.Machine
end

