-- ==== Sys2Proof/Machine/Dispatch.lean ====
section
/-!
DEFINITION. One arm per instruction, each a call of its meaning.
-/

namespace Sys2Proof.Machine

def exec (i : Instr) (s : State) : Host.Outcome State Fault Refusal :=
  match i with
  | .picInit mb sb => Sys2Proof.Machine.execPicInit mb sb s
  | .picReadMasks => Sys2Proof.Machine.execPicReadMasks s
  | .picWriteMasks m sl => Sys2Proof.Machine.execPicWriteMasks m sl s
  | .picMask line => Sys2Proof.Machine.execPicMask line s
  | .picUnmask line => Sys2Proof.Machine.execPicUnmask line s
  | .picUnmaskAll => Sys2Proof.Machine.execPicUnmaskAll s
  | .picEoi line => Sys2Proof.Machine.execPicEoi line s
  | .ioapicWriteEntry line vec dm dsm pol trg dest => Sys2Proof.Machine.execIoapicWriteEntry line vec dm dsm pol trg dest s
  | .ioapicSetMask line m => Sys2Proof.Machine.execIoapicSetMask line m s
  | .lapicEnable v => Sys2Proof.Machine.execLapicEnable v s
  | .lapicEoi => Sys2Proof.Machine.execLapicEoi s
  | .icw1 c v => Sys2Proof.Machine.execIcw1 c v s
  | .icw2 c v => Sys2Proof.Machine.execIcw2 c v s
  | .icw3 c v => Sys2Proof.Machine.execIcw3 c v s
  | .icw4 c v => Sys2Proof.Machine.execIcw4 c v s
  | .ocw1 c v => Sys2Proof.Machine.execOcw1 c v s
  | .ocw2NonspecificEoi c => Sys2Proof.Machine.execOcw2NonspecificEoi c s
  | .ocw2Other c v => Sys2Proof.Machine.execOcw2Other c v s
  | .ocw3 c v => Sys2Proof.Machine.execOcw3 c v s
  | .ioapicIndexWrite v => Sys2Proof.Machine.execIoapicIndexWrite v s
  | .ioapicWindowWriteLo n v => Sys2Proof.Machine.execIoapicWindowWriteLo n v s
  | .ioapicWindowWriteHi n v => Sys2Proof.Machine.execIoapicWindowWriteHi n v s
  | .lapicSvrWrite v => Sys2Proof.Machine.execLapicSvrWrite v s
  | .lapicTprWrite v => Sys2Proof.Machine.execLapicTprWrite v s
  | .lapicEoiWrite v => Sys2Proof.Machine.execLapicEoiWrite v s

end Sys2Proof.Machine
end

