-- ==== Sys2Proof/Machine/Agents.lean ====
section
/-!
DEFINITION. What each agent does with its turn: the host (R66, R94), the sequencer (R96) and the environment (R150,
R151, R155, R158). Each answers from a state from which its own input has been taken.
-/

namespace Sys2Proof.Machine

/-- R72, R94: the host submits a request word. The checks run in R72's order: unknown OP, then the family, then the
must-be-zero bits and the reserved delivery modes; the operand checks of R73 belong to the request's meaning. -/
def hostSubmit (w : Word64) (s : State) : Outcome :=
  match s.seq.phase with
  | .faulted => .fault (.stuck .host)
  | .busy => finish s (.error .busy)
  | .idle =>
    match Opcode.ofByte (w.extractLsb' 0 8) with
    | none => raiseFault .illegalRequest w s
    | some op =>
      if op.family = s.cfg.family then
        match decode .request w with
        | .error _ => raiseFault .illegalRequest w s
        | .ok i => exec i s
      else finish s (.error .familyAbsent)

/-- R53, R56, R97, R91: the context in which a raw write's word is decoded, or its refusal. The width and the
alignment are checked before the address (log 13). -/
def writeContext (x : Transaction) (s : State) : Except Refusal Context :=
  match x with
  | .ioWrite port width _ =>
    if width = 1 then
      match portTarget port with
      | some (c, p) => if s.cfg.family = .pic then .ok (.pic c p (s.pic c).step) else .error .unmodelledAddress
      | none => .error .unmodelledAddress
    else .error .unmodelledAccess
  | .memWrite a width _ =>
    if width = 4 ∧ a.extractLsb' 0 2 = 0#2 then
      if s.cfg.family = .apic then
        match regTarget s.cfg a with
        | some r => .ok (.mmio r s.ioapic.ioregsel)
        | none => .error .unmodelledAddress
      else .error .unmodelledAddress
    else .error .unmodelledAccess
  | .ioRead _ _ => .error .unmodelledAccess
  | .memRead _ _ => .error .unmodelledAccess

/-- R66: a raw write runs the instruction its word stands for where it is written. -/
def rawWrite (x : Transaction) (v : Word32) (s : State) : Outcome :=
  match s.seq.phase, writeContext x s with
  | .busy, _ => finish s (.error .busy)
  | _, .error r => finish s (.error r)
  | _, .ok ctx =>
    match decode ctx (v.setWidth 64) with
    | .error e => finish s (.error (rejectRefusal e))
    | .ok i => exec i s

/-- R56, R66, R97: a raw read; the value goes to the history. -/
def rawRead (x : Transaction) (s : State) : Except Refusal State :=
  match x with
  | .ioRead port width => if width = 1 then (portRead port s).map Prod.snd else .error .unmodelledAccess
  | .memRead a width =>
    if width = 4 ∧ a.extractLsb' 0 2 = 0#2 then (mmioRead a s).map Prod.snd else .error .unmodelledAccess
  | .ioWrite _ _ _ => .error .unmodelledAccess
  | .memWrite _ _ _ => .error .unmodelledAccess

/-- R66: the host makes one raw transaction. -/
def hostRaw (x : Transaction) (s : State) : Outcome :=
  match x with
  | .ioWrite _ _ v => rawWrite x v s
  | .memWrite _ _ v => rawWrite x v s
  | .ioRead _ _ => rawAccess (rawRead x) s
  | .memRead _ _ => rawAccess (rawRead x) s

/-- R96: the sequencer's turn: the request in progress is the one in `req` (R22). -/
def sequencerTurn (s : State) : Outcome :=
  match s.seq.phase with
  | .idle => .fault (.stuck .sequencer)
  | .faulted => .fault (.stuck .sequencer)
  | .busy =>
    match decode .request s.seq.req with
    | .error _ => .fault .noTransaction
    | .ok i => exec i s

/-- R150: PIC_EDGE(l). -/
def picEdge (l : Nat) (s : State) : Outcome :=
  if s.cfg.family = .pic ∧ l < 16 ∧ l ≠ 2 then
    let p := s.pic (chipOf l)
    finish s (.ok (s.setPic (chipOf l) { p with irr := setBit p.irr (bitOf l) true }))
  else .fault (.stuck .environment)

/-- R151: the master's winning request while INT(M) holds; none when it does not (the spurious case, R152). -/
def State.masterWinner (s : State) : Option Nat := if s.intM then highestPri8 (s.reqOf .master) else none

/-- R151: CPU_INTA_PIC. -/
def cpuIntaPic (s : State) : Outcome :=
  if s.cfg.family = .pic ∧ s.env.picIntLatch = true then
    if s.picModelled then
      let u : State := { s with env := { s.env with picIntLatch := false } }
      match s.masterWinner with
      | none => finish s (.ok (u.deliver .pic (s.picM.base ||| 7#8)))
      | some i =>
        if i = 2 then
          match highestPri8 (s.reqOf .slave) with
          | none => .fault .cascadeUnanswered
          | some j =>
            finish s (.ok ((({ u with picM := s.picM.acknowledge 2 false, picS := s.picS.acknowledge j true } : State)).deliver
              .pic (s.picS.base ||| BitVec.ofNat 8 j)))
        else
          finish s (.ok (({ u with picM := s.picM.acknowledge i true } : State).deliver .pic
            (s.picM.base ||| BitVec.ofNat 8 i)))
    else finish s (.error .unmodelledMode)
  else .fault (.stuck .environment)

/-- R155.1: a change of pin `n` to `b` sends a message: the entry is edge-triggered, unmasked and matched, and
`asserted(n)` goes from false to true. -/
def State.edgeSends (s : State) (n : Nat) (b : Bool) : Bool :=
  let e := s.ioapic.redir n
  !entryTriggerMode e && !entryMask e && s.matched n && !s.asserted n && assertedAt e b

/-- R155.1: PIN(n, b). -/
def setPin (n : Nat) (b : Bool) (s : State) : Outcome :=
  if s.cfg.family = .apic ∧ n < s.cfg.nRedir then
    let t : State := { s with env := { s.env with pin := s.env.pin.set n b } }
    finish s (if s.edgeSends n b then sendMessage n t else .ok t)
  else .fault (.stuck .environment)

/-- R155.2: IOAPIC_LEVEL(n) is enabled. -/
def State.levelEnabled (s : State) (n : Nat) : Bool :=
  let e := s.ioapic.redir n
  entryTriggerMode e && !entryMask e && s.asserted n && s.matched n && !s.ioapic.remoteIrr n

/-- R155.2: IOAPIC_LEVEL(n): the message is sent and remote IRR is set. -/
def ioapicLevel (n : Nat) (s : State) : Outcome :=
  if s.cfg.family = .apic ∧ n < s.cfg.nRedir ∧ s.levelEnabled n = true then
    finish s (sendMessage n (s.setEntry n { word := s.ioapic.redir n, remoteIrr := true }))
  else .fault (.stuck .environment)

/-- R158: CPU_INTA_LAPIC. -/
def cpuIntaLapic (s : State) : Outcome :=
  if s.cfg.family = .apic ∧ s.env.lapicIntLatch = true then
    let u : State := { s with env := { s.env with lapicIntLatch := false } }
    match s.lapic.intr, highestVec s.lapic.irr with
    | true, some v => finish s (.ok (({ u with lapic := s.lapic.acknowledge v } : State).deliver .lapic v))
    | _, _ =>
      let sp : Byte := s.lapic.svr.extractLsb' 0 8
      if sp.toNat < 0x10 then finish s (.error .unmodelledVector)
      else finish s (.ok (u.deliver .lapic sp))
  else .fault (.stuck .environment)

/-- R17: the step of the agent that an input names. -/
def runInput (x : Input) (s : State) : Outcome :=
  match x with
  | .sequencer => sequencerTurn s
  | .submit w => hostSubmit w s
  | .raw x => hostRaw x s
  | .picEdge l => picEdge l s
  | .cpuIntaPic => cpuIntaPic s
  | .pin n b => setPin n b s
  | .ioapicLevel n => ioapicLevel n s
  | .cpuIntaLapic => cpuIntaLapic s

/-- R17: whose turn it is: the first of `inputs`, and the sequencer when there is none (log 2). -/
def State.nextInput (s : State) : Input := s.inputs.headD .sequencer

/-- The state with the input of this turn taken. -/
def State.takeInput (s : State) : State := { s with inputs := s.inputs.tail }

/-- The family whose machine a table word is a word of: a request word's by its OP (R70), a byte's PIC, a 32-bit
word's APIC. -/
def fetchFamily (s : State) (nbits w : Nat) : Family :=
  match nbits with
  | 64 => ((Opcode.ofByte (BitVec.ofNat 8 w)).map Opcode.family).getD s.cfg.family
  | 8 => .pic
  | 32 => .apic
  | _ => s.cfg.family

/-- The host's step that hands a table word to the machine: a submission, a byte on the master's command port, a word
on the I/O APIC's index register (log 18). -/
def fetchInputs (s : State) (nbits w : Nat) : List Input :=
  match nbits with
  | 64 => [.submit (BitVec.ofNat 64 w)]
  | 8 => [.raw (.ioWrite (portAddr .master .command) 1 (BitVec.ofNat 32 w))]
  | 32 => [.raw (.memWrite (regAddr s.cfg .ioapicIndex) 4 (BitVec.ofNat 32 w))]
  | _ => []

end Sys2Proof.Machine
end

