-- ==== Sys2Proof/Machine/Step.lean ====
section
/-!
DEFINITION. One step of the machine (R17, R18), and how a table word is placed where the next step takes it.
-/

namespace Sys2Proof.Machine

/-- R17: one step of the agent whose turn it is. A refused state has no successor (R147). -/
def step (s : State) : Host.Outcome State Fault Refusal :=
  match s.refused with
  | some r => .refused r
  | none => runInput s.nextInput s.takeInput

/-- `s` with the word `w` of `nbits` bits handed to the machine by the host's next step, on an instance of the family
the word belongs to (logs 1, 18, 19). -/
def State.withFetchWord (s : State) (nbits w : Nat) : State :=
  { s with
    cfg := { s.cfg with family := fetchFamily s nbits w }
    inputs := fetchInputs s nbits w ++ s.inputs }

end Sys2Proof.Machine
end

