-- ==== Sys2Proof/Safety.lean ====
section
/-!
DEFINITION. The terms in which claims are made: a valid instance, the operand contract of a request (R73), the length
of its micro-program (R100), the invariant of every step, and runs of several steps.
-/

namespace Sys2Proof.Machine

/-- R11, R12: a valid instance. The last conjunct, that the I/O APIC's registers lie outside the LAPIC page, is
DEDUCED from R97 ("goes to exactly one device", log 14). -/
def validConfig (c : Config) : Bool :=
  decide (1 ≤ c.nRedir ∧ c.nRedir ≤ 120) && c.ioapicBase.extractLsb' 0 5 == 0#5 && c.lapicBase.extractLsb' 0 12 == 0#12 &&
    c.ioapicBase.extractLsb' 12 20 != c.lapicBase.extractLsb' 12 20

/-- R70: the operation code of a request; a device write has none. -/
def opcodeOf : Instr → Option Opcode
  | .picInit _ _ => some .picInit
  | .picReadMasks => some .picReadMasks
  | .picWriteMasks _ _ => some .picWriteMasks
  | .picMask _ => some .picMask
  | .picUnmask _ => some .picUnmask
  | .picUnmaskAll => some .picUnmaskAll
  | .picEoi _ => some .picEoi
  | .ioapicWriteEntry _ _ _ _ _ _ _ => some .ioapicWriteEntry
  | .ioapicSetMask _ _ => some .ioapicSetMask
  | .lapicEnable _ => some .lapicEnable
  | .lapicEoi => some .lapicEoi
  | .icw1 _ _ => none
  | .icw2 _ _ => none
  | .icw3 _ _ => none
  | .icw4 _ _ => none
  | .ocw1 _ _ => none
  | .ocw2NonspecificEoi _ => none
  | .ocw2Other _ _ => none
  | .ocw3 _ _ => none
  | .ioapicIndexWrite _ => none
  | .ioapicWindowWriteLo _ _ => none
  | .ioapicWindowWriteHi _ _ => none
  | .lapicSvrWrite _ => none
  | .lapicTprWrite _ => none
  | .lapicEoiWrite _ => none

/-- R73: the fault that a request's operands raise, if any, said from the rule's own words. -/
def contractFault (c : Config) : Instr → Option FaultCode
  | .picInit mb sb =>
    if mb.toNat < 32 ∨ sb.toNat < 32 ∨ ((mb.toNat : Int) - (sb.toNat : Int)).natAbs < 8 then some .badVectorBase else none
  | .picMask l => if 16 ≤ l.toNat then some .lineOutOfRange else none
  | .picUnmask l => if 16 ≤ l.toNat then some .lineOutOfRange else none
  | .picEoi l => if 16 ≤ l.toNat then some .lineOutOfRange else none
  | .ioapicWriteEntry l _ _ _ _ _ _ => if c.nRedir ≤ l.toNat then some .lineOutOfRange else none
  | .ioapicSetMask l _ => if c.nRedir ≤ l.toNat then some .lineOutOfRange else none
  | .picReadMasks => none
  | .picWriteMasks _ _ => none
  | .picUnmaskAll => none
  | .lapicEnable _ => none
  | .lapicEoi => none
  | .icw1 _ _ => none
  | .icw2 _ _ => none
  | .icw3 _ _ => none
  | .icw4 _ _ => none
  | .ocw1 _ _ => none
  | .ocw2NonspecificEoi _ => none
  | .ocw2Other _ _ => none
  | .ocw3 _ _ => none
  | .ioapicIndexWrite _ => none
  | .ioapicWindowWriteLo _ _ => none
  | .ioapicWindowWriteHi _ _ => none
  | .lapicSvrWrite _ => none
  | .lapicTprWrite _ => none
  | .lapicEoiWrite _ => none

/-- R100: the number of transactions of a request; a device write is one transaction. -/
def programLength : Instr → Nat
  | .picInit _ _ => 10
  | .picReadMasks => 2
  | .picWriteMasks _ _ => 2
  | .picMask _ => 2
  | .picUnmask _ => 2
  | .picUnmaskAll => 2
  | .picEoi l => if l.toNat < 8 then 1 else 2
  | .ioapicWriteEntry _ _ _ _ _ _ _ => 4
  | .ioapicSetMask _ _ => 3
  | .lapicEnable _ => 1
  | .lapicEoi => 1
  | .icw1 _ _ => 1
  | .icw2 _ _ => 1
  | .icw3 _ _ => 1
  | .icw4 _ _ => 1
  | .ocw1 _ _ => 1
  | .ocw2NonspecificEoi _ => 1
  | .ocw2Other _ _ => 1
  | .ocw3 _ _ => 1
  | .ioapicIndexWrite _ => 1
  | .ioapicWindowWriteLo _ _ => 1
  | .ioapicWindowWriteHi _ _ => 1
  | .lapicSvrWrite _ => 1
  | .lapicTprWrite _ => 1
  | .lapicEoiWrite _ => 1

/-- R22, R25, R73: `req` holds a request of this machine's family that passed its checks, and `upc` is inside its
micro-program. -/
def inProgress (s : State) : Bool :=
  match decode .request s.seq.req with
  | .error _ => false
  | .ok i =>
    decide ((opcodeOf i).map Opcode.family = some s.cfg.family) && decide (contractFault s.cfg i = none) &&
      decide (s.seq.upc.toNat < programLength i)

/-- The invariant every step keeps. -/
structure State.Inv (s : State) : Prop where
  /-- R11, R12. -/
  config : validConfig s.cfg = true
  /-- R39: one entry for each index below N_REDIR. -/
  entries : s.ioapic.entries.length = s.cfg.nRedir
  /-- R45: one pin for each index below N_REDIR. -/
  pins : s.env.pin.length = s.cfg.nRedir
  /-- R130: the stored bits 12 and 14 are always 0. -/
  readOnlyBits : ∀ e ∈ s.ioapic.entries, e.word.getLsbD 12 = false ∧ e.word.getLsbD 14 = false
  /-- R25: `upc` is 0 whenever the sequencer is Idle; R146: and when it is Faulted. -/
  upcRest : s.seq.phase ≠ .busy → s.seq.upc = 0#4
  /-- R22, R25: a Busy sequencer has a request in progress. -/
  busy : s.seq.phase = .busy → inProgress s = true
  /-- R21, R26: the fault register is set exactly in the Faulted phase. -/
  faulted : s.seq.phase = .faulted ↔ s.seq.fault ≠ 0#4

/-- `k` steps, stopping at the first that has no next state. -/
def runs : Nat → State → Outcome
  | 0, s => .next s
  | k + 1, s =>
    match step s with
    | .next t => runs k t
    | .fault f => .fault f
    | .refused r => .refused r

/-- R16, R19: the event of `IoWrite(port, 1, v)`. -/
def evIow (p : Port) (v : Byte) : Event := .bus .iow (p.setWidth 32) 1 (v.setWidth 32)

/-- R16, R19: the event of `IoRead(port, 1)`. -/
def evIor (p : Port) (v : Byte) : Event := .bus .ior (p.setWidth 32) 1 (v.setWidth 32)

/-- R16, R19: the event of `MemWrite(a, 4, v)`. -/
def evMw (a v : Word32) : Event := .bus .mw a 4 v

/-- R16, R19: the event of `MemRead(a, 4)`. -/
def evMr (a v : Word32) : Event := .bus .mr a 4 v

/-- What R72, R73 and R145 make of a submitted word. -/
inductive Verdict where
  | accepted
  | fault (c : FaultCode)
  | familyAbsent
deriving DecidableEq, Repr

/-- R70: the OP bytes of the two families. -/
def opFamily (op : Nat) : Option Family :=
  if op ∈ [0x01, 0x02, 0x03, 0x04, 0x05, 0x06, 0x07] then some .pic
  else if op ∈ [0x10, 0x11, 0x20, 0x21] then some .apic
  else none

/-- R72: `free_mask(op)`, listed by OP byte. -/
def opFreeMask (op : Nat) : Word64 :=
  if op ∈ [0x01, 0x03] then 0x0000000000FFFF00#64
  else if op ∈ [0x04, 0x05, 0x07, 0x20] then 0x000000000000FF00#64
  else if op = 0x10 then 0x000000FF3FFFFF00#64
  else if op = 0x11 then 0x000000000001FF00#64
  else 0#64

/-- R72, R73 and R145 over the numbers in the word's fields: unknown OP, absent family, a must-be-zero bit, a reserved
delivery mode, then the operand contract; the first that applies decides. -/
def submitVerdict (c : Config) (w : Word64) : Verdict :=
  let op := w.toNat % 256
  let a := w.toNat / 256 % 256
  let b := w.toNat / 65536 % 256
  let dm := w.toNat / 16777216 % 8
  match opFamily op with
  | none => .fault .illegalRequest
  | some f =>
    if f ≠ c.family then .familyAbsent
    else if w &&& ~~~opFreeMask op &&& ~~~0xFF#64 ≠ 0#64 then .fault .illegalRequest
    else if op = 0x10 ∧ (dm = 3 ∨ dm = 6) then .fault .illegalRequest
    else if op = 0x01 ∧ (a < 32 ∨ b < 32 ∨ ((a : Int) - (b : Int)).natAbs < 8) then .fault .badVectorBase
    else if op ∈ [0x04, 0x05, 0x07] ∧ 16 ≤ a then .fault .lineOutOfRange
    else if op ∈ [0x10, 0x11] ∧ c.nRedir ≤ a then .fault .lineOutOfRange
    else .accepted

/-- R94: the sequencer's registers after a request `w` is accepted. -/
def Sequencer.accepted (q : Sequencer) (w : Word64) : Sequencer := { q with req := w, upc := 0#4, phase := .busy }

/-- R146: the sequencer's registers after the request `w` faults with code `c`. -/
def Sequencer.faultedWith (q : Sequencer) (c : FaultCode) (w : Word64) : Sequencer :=
  { q with fault := c.code, req := w, phase := .faulted, upc := 0#4 }

/-- R96: the sequencer's registers after transaction `k`, not the last. -/
def Sequencer.afterTransaction (q : Sequencer) (k : Nat) : Sequencer := { q with upc := BitVec.ofNat 4 (k + 1) }

/-- R96: the sequencer's registers after the last transaction. -/
def Sequencer.completed (q : Sequencer) : Sequencer := { q with phase := .idle, upc := 0#4 }

/-- Request `i` is in progress and its transaction `k` is the next (R25). -/
abbrev atTransaction (i : Instr) (k : Nat) (s : State) : Prop :=
  s.seq.phase = .busy ∧ s.seq.req = encode i ∧ s.seq.upc = BitVec.ofNat 4 k

/-- R154: the logical lines in falling priority. -/
def linePriority : List Nat := [0, 1, 8, 9, 10, 11, 12, 13, 14, 15, 3, 4, 5, 6, 7]

/-- R37, R123: line `l` has an unmasked latched request; a slave line needs master line 2 unmasked too. -/
def lineRequests (s : State) (l : Nat) : Bool :=
  if l < 8 then s.picM.irr.getLsbD l && !s.picM.imr.getLsbD l
  else s.picS.irr.getLsbD (l - 8) && !s.picS.imr.getLsbD (l - 8) && !s.picM.imr.getLsbD 2

/-- R37, R154: a bit in service holds line `l` back: its own chip's at its number or above it in priority, and for a slave
line also the master's at line 2 or above. -/
def lineHeldBack (s : State) (l : Nat) : Bool :=
  if l < 8 then (List.range (l + 1)).any s.picM.isr.getLsbD
  else (List.range 3).any s.picM.isr.getLsbD || (List.range (l - 7)).any s.picS.isr.getLsbD

/-- R154: the line that the acknowledge takes: the first in the order of R154 that requests and is not held back. -/
def winningLine (s : State) : Option Nat := linePriority.find? fun l => lineRequests s l && !lineHeldBack s l

/-- R115: the vector of logical line `l`. -/
def lineVector (s : State) (l : Nat) : Byte :=
  if l < 8 then (s.picM.icw2 &&& 0xF8#8) ||| BitVec.ofNat 8 l else (s.picS.icw2 &&& 0xF8#8) ||| BitVec.ofNat 8 (l - 8)

/-- R101: the steps of the environment, which are neither the host's nor the sequencer's. -/
def isEnvironment : Input → Bool
  | .picEdge _ => true
  | .cpuIntaPic => true
  | .pin _ _ => true
  | .ioapicLevel _ => true
  | .cpuIntaLapic => true
  | .sequencer => false
  | .submit _ => false
  | .raw _ => false

/-- R75, R104 to R107: a chip after the byte `v` on its data port; its init step decides what the byte is. -/
def Pic.dataWritten (p : Pic) (v : Byte) : Pic :=
  match p.step with
  | .awaitIcw2 =>
    { p with icw2 := v, step := if p.icw1.getLsbD 1 = false then .awaitIcw3
                                else if p.icw1.getLsbD 0 = true then .awaitIcw4 else .ready }
  | .awaitIcw3 => { p with icw3 := v, step := if p.icw1.getLsbD 0 = true then .awaitIcw4 else .ready }
  | .awaitIcw4 => { p with icw4 := v, step := .ready }
  | .ready => { p with imr := v }

/-- R150, R151, R155, R158: when a step of the environment is enabled; the other agents' steps are none of its. -/
def environmentEnabled (s : State) : Input → Prop
  | .picEdge l => s.cfg.family = .pic ∧ l < 16 ∧ l ≠ 2
  | .cpuIntaPic => s.cfg.family = .pic ∧ s.env.picIntLatch = true
  | .pin n _ => s.cfg.family = .apic ∧ n < s.cfg.nRedir
  | .ioapicLevel n =>
    s.cfg.family = .apic ∧ n < s.cfg.nRedir ∧ (s.ioapic.redir n).getLsbD 15 = true ∧
      (s.ioapic.redir n).getLsbD 16 = false ∧ (s.env.level n ^^ (s.ioapic.redir n).getLsbD 13) = true ∧
      lapicMatches s.cfg ((s.ioapic.redir n).getLsbD 11) ((s.ioapic.redir n).extractLsb' 56 8) = true ∧
      s.ioapic.remoteIrr n = false
  | .cpuIntaLapic => s.cfg.family = .apic ∧ s.env.lapicIntLatch = true
  | .sequencer => False
  | .submit _ => False
  | .raw _ => False

/-- What follows the `k`-th turn of the sequencer in a list of turns. -/
def afterTransactions : Nat → List Input → List Input
  | 0, xs => xs
  | _ + 1, [] => []
  | k + 1, x :: xs => if x = .sequencer then afterTransactions k xs else afterTransactions (k + 1) xs

/-- R113: PIC_INIT's transactions to one chip: the base and ICW3 differ. -/
def Pic.initialized (p : Pic) (base icw3 : Byte) : Pic :=
  { p with imr := 0xFF#8, irr := 0x00#8, isr := 0x00#8, step := .ready, icw1 := 0x11#8, icw2 := base, icw3 := icw3,
           icw4 := 0x01#8, readSel := .irr }

end Sys2Proof.Machine
end

