-- ==== Sys2Proof/Certificates/Slice0/Obligations.lean ====
section
/-!
DEFINITION. The statements for the provers. A transition is written with `latched` (R47), whose own statement is
`LatchesRecordTheOutputs`; every equation `= .next t` gives the whole next state, so what `t` does not name is
unchanged. The block has no data memory (20_memory), so a frame is about its registers.
-/

open Sys2Proof Sys2Proof.Machine

/-! ### Reset and the invariant -/

/-- R50: reset for every instance and every draw of the unspecified values; `State.reset` is one of them. -/
def Obligations.ResetLeavesTheTabledValues : Prop :=
  (∀ (c : Config) (m sl : Pic) (io : Ioapic) (la : Lapic) (pins : List Bool),
    let s := State.resetWith c m sl io la pins
    s.seq = { phase := .idle, req := 0#64, t := 0#32, res := 0#16, upc := 0#4, fault := 0#4 } ∧
    s.picM = m ∧ s.picS = sl ∧ s.ioapic = io ∧ s.lapic = la ∧
    s.env = { pin := pins, picIntLatch := false, lapicIntLatch := false } ∧ s.hist = [] ∧ s.refused = none) ∧
  ∃ (c : Config) (m sl : Pic) (io : Ioapic) (la : Lapic) (pins : List Bool),
    State.reset = State.resetWith c m sl io la pins

/-- Reset satisfies the invariant, for the named values and for every draw with one entry and one pin per line and
bits 12 and 14 clear (R130; the model's reading, log 16). -/
def Obligations.ResetSatisfiesTheInvariant : Prop :=
  State.reset.Inv ∧
  ∀ (c : Config) (m sl : Pic) (io : Ioapic) (la : Lapic) (pins : List Bool),
    validConfig c = true → io.entries.length = c.nRedir → pins.length = c.nRedir →
    (∀ e ∈ io.entries, e.word.getLsbD 12 = false ∧ e.word.getLsbD 14 = false) →
    (State.resetWith c m sl io la pins).Inv

/-- R22, R25, R26, R39, R45, R130: the invariant is kept by every step of every agent. -/
def Obligations.StepKeepsTheInvariant : Prop :=
  ∀ s t : State, s.Inv → step s = .next t → t.Inv

/-! ### Encoding -/

/-- Decoding the word of a well-formed instruction, where that word stands for it, gives the instruction back. -/
def Obligations.DecodeInvertsEncode : Prop :=
  ∀ i : Instr, i.wellFormed = true → decode i.context (encode i) = .ok i

/-- A request word that decodes is the word of the instruction it decodes to: no bit of it is dropped. -/
def Obligations.EncodeInvertsDecodeOfRequests : Prop :=
  ∀ (w : Word64) (i : Instr), decode .request w = .ok i → encode i = w ∧ i.wellFormed = true ∧ (opcodeOf i).isSome

/-- R70, R71, R74, R75, R86: words written out from the tables decode to their instructions. -/
def Obligations.TableWordsDecode : Prop :=
  decode .request 0x0000000000282001#64 = .ok (.picInit 32#8 40#8) ∧
  decode .request 0x0000000000000907#64 = .ok (.picEoi 9#8) ∧
  decode .request 0x0000000F39300210#64 = .ok (.ioapicWriteEntry 2#8 0x30#8 .lowest .logical .low .level 0x0F#8) ∧
  decode .request 0x000000000000FF20#64 = .ok (.lapicEnable 0xFF#8) ∧
  decode (.pic .master .command .awaitIcw3) 0x11#64 = .ok (.icw1 .master 0x11#8) ∧
  decode (.pic .slave .data .awaitIcw2) 0x28#64 = .ok (.icw2 .slave 0x28#8) ∧
  decode (.mmio .ioapicWindow 0x15#8) 0x0F000000#64 = .ok (.ioapicWindowWriteHi 2 0x0F000000#32)

/-! ### A step runs the decoded instruction -/

/-- R72, R94: submitting a word that decodes to `i` on a machine of its family runs `i`. -/
def Obligations.StepRunsTheSubmittedRequest : Prop :=
  ∀ (s : State) (w : Word64) (rest : List Input) (i : Instr),
    s.refused = none → s.seq.phase = .idle → s.inputs = .submit w :: rest → decode .request w = .ok i →
    (opcodeOf i).map Opcode.family = some s.cfg.family →
    step s = exec i { s with inputs := rest }

/-- R22, R96: the sequencer's turn runs the request in progress, also when no input is waiting (log 2). -/
def Obligations.StepRunsTheRequestInProgress : Prop :=
  ∀ (s : State) (i : Instr), s.refused = none → s.seq.phase = .busy → decode .request s.seq.req = .ok i →
    (s.inputs = [] → step s = exec i s) ∧
    (∀ rest, s.inputs = .sequencer :: rest → step s = exec i { s with inputs := rest })

/-- R66, R74, R75, R91: a raw write runs the instruction its word stands for on the chip, port and init step, or on
the register and index, that it reaches. -/
def Obligations.StepRunsTheRawWrite : Prop :=
  (∀ (s : State) (port : Port) (v : Word32) (rest : List Input) (c : Chip) (p : PicPort) (i : Instr),
    s.refused = none → s.seq.phase ≠ .busy → s.cfg.family = .pic → s.inputs = .raw (.ioWrite port 1 v) :: rest →
    port = portAddr c p → decode (.pic c p (s.pic c).step) (v.setWidth 64) = .ok i →
    step s = exec i { s with inputs := rest }) ∧
  (∀ (s : State) (v : Word32) (rest : List Input) (r : MmioReg) (i : Instr),
    s.refused = none → s.seq.phase ≠ .busy → s.cfg.family = .apic → validConfig s.cfg = true →
    s.inputs = .raw (.memWrite (regAddr s.cfg r) 4 v) :: rest →
    decode (.mmio r s.ioapic.ioregsel) (v.setWidth 64) = .ok i →
    step s = exec i { s with inputs := rest })

/-- R97: `portWrite` and `mmioWrite` have the outcome of the decoded instruction on a machine that is not Busy; and where
the sequencer's own turn has written a byte to a port or a word to a register, as its event says, the decoded instruction
at any sequencer that is not Busy reaches the same state but for the sequencer's registers. -/
def Obligations.BusWritesAgreeWithDecodedInstructions : Prop :=
  (∀ (s : State) (c : Chip) (p : PicPort) (v : Byte) (i : Instr),
    s.seq.phase ≠ .busy → decode (.pic c p (s.pic c).step) (v.setWidth 64) = .ok i →
    exec i s = finish s (portWrite (portAddr c p) v s)) ∧
  (∀ (s : State) (r : MmioReg) (v : Word32) (i : Instr),
    s.seq.phase ≠ .busy → validConfig s.cfg = true → decode (.mmio r s.ioapic.ioregsel) (v.setWidth 64) = .ok i →
    exec i s = finish s (mmioWrite (regAddr s.cfg r) v s)) ∧
  (∀ (s t : State) (c : Chip) (p : PicPort) (v : Byte) (i : Instr) (q : Sequencer),
    s.refused = none → s.seq.phase = .busy → s.nextInput = .sequencer → q.phase ≠ .busy → step s = .next t →
    t.hist = s.hist ++ [evIow (portAddr c p) v] → decode (.pic c p (s.pic c).step) (v.setWidth 64) = .ok i →
    exec i { s.takeInput with seq := q } = .next { t with seq := q }) ∧
  (∀ (s t : State) (r : MmioReg) (v : Word32) (i : Instr) (q : Sequencer),
    s.refused = none → s.seq.phase = .busy → s.nextInput = .sequencer → q.phase ≠ .busy → validConfig s.cfg = true →
    step s = .next t → t.hist = s.hist ++ [evMw (regAddr s.cfg r) v] →
    decode (.mmio r s.ioapic.ioregsel) (v.setWidth 64) = .ok i →
    exec i { s.takeInput with seq := q } = .next { t with seq := q })

/-! ### Acceptance, faults and refusals -/

/-- R72, R73, R94, R145, R146, R147: what a submission does, for every word, from the numbers in the word. That a refused
submission leaves `req` as it was, where R94 writes it before decoding, is DEDUCED from R147 (log 9). -/
def Obligations.SubmissionFollowsTheOrderOfChecks : Prop :=
  ∀ (s : State) (w : Word64) (rest : List Input),
    s.refused = none → s.seq.phase = .idle → s.inputs = .submit w :: rest →
    step s = match submitVerdict s.cfg w with
      | .accepted => .next ({ s with seq := s.seq.accepted w, inputs := rest } : State).latched
      | .fault c => .next ({ s with seq := s.seq.faultedWith c w, inputs := rest } : State).latched
      | .familyAbsent => .next { s with refused := some .familyAbsent, inputs := rest }

/-- R94: every request whose operands meet R73, submitted to an Idle machine of its family, is accepted, and nothing
but the sequencer's registers and the latches changes. -/
def Obligations.RequestsAreAccepted : Prop :=
  ∀ (i : Instr) (s : State), s.seq.phase = .idle → (opcodeOf i).map Opcode.family = some s.cfg.family →
    contractFault s.cfg i = none →
    exec i s = .next ({ s with seq := s.seq.accepted (encode i) } : State).latched

/-- R73, R144, R146: a request whose operands break R73 takes the fault R144 names. -/
def Obligations.ContractViolationsTakeTheFault : Prop :=
  ∀ (i : Instr) (s : State) (c : FaultCode), s.seq.phase = .idle →
    (opcodeOf i).map Opcode.family = some s.cfg.family → contractFault s.cfg i = some c →
    exec i s = .next ({ s with seq := s.seq.faultedWith c (encode i) } : State).latched

/-- R149, R147: a request of the absent family is refused. That `req` stays as it was, where R94 writes it before decoding,
is DEDUCED from R147 (log 9). -/
def Obligations.AbsentFamilyRequestsAreRefused : Prop :=
  ∀ (i : Instr) (s : State) (f : Family), s.seq.phase = .idle → (opcodeOf i).map Opcode.family = some f →
    f ≠ s.cfg.family → exec i s = .next { s with refused := some .familyAbsent }

/-- R148: a submission or a raw access while Busy is refused. -/
def Obligations.BusyMachineRefusesTheHost : Prop :=
  ∀ (s : State) (rest : List Input), s.refused = none → s.seq.phase = .busy →
    (∀ w, s.inputs = .submit w :: rest → step s = .next { s with refused := some .busy, inputs := rest }) ∧
    (∀ x, s.inputs = .raw x :: rest → step s = .next { s with refused := some .busy, inputs := rest })

/-- R147: a step that refuses sets the mark and changes nothing else (the model's own list of turns aside), and a
refused state has no successor: it answers the reason of its mark. -/
def Obligations.RefusalsMarkAndEndTheRun : Prop :=
  (∀ (s t : State) (r : Refusal), step s = .next t → t.refused = some r →
    t = { s with refused := some r, inputs := s.inputs.tail }) ∧
  ∀ (s : State) (r : Refusal), s.refused = some r → step s = .refused r

/-- R21, R26, R94, R146: no step of any agent changes the sequencer's registers in the Faulted phase, and there the host
has no submit step. -/
def Obligations.FaultedPhaseIsPermanent : Prop :=
  (∀ s t : State, s.seq.phase = .faulted → step s = .next t → t.seq = s.seq) ∧
  ∀ (s : State) (w : Word64) (rest : List Input), s.refused = none → s.seq.phase = .faulted →
    s.inputs = .submit w :: rest → step s = .fault (.stuck .host)

/-- R99: a Busy sequencer with a request in progress always has its micro-step when the turn is its own, by name or because
no input is waiting (log 2). -/
def Obligations.BusySequencerAlwaysSteps : Prop :=
  ∀ s : State, s.Inv → s.refused = none → s.seq.phase = .busy → s.nextInput = .sequencer → ∃ t, step s = .next t

/-! ### The PIC requests -/

/-- R113, R103 to R107: the ten transactions of PIC_INIT; each chip's next ICW finds it in the step the last one left. -/
def Obligations.PicInitTransactions : Prop :=
  ∀ (mb sb : Byte) (s : State), s.cfg.family = .pic →
    (atTransaction (.picInit mb sb) 0 s → exec (.picInit mb sb) s = .next ({ s with
      picM := { s.picM with icw1 := 0x11#8, step := .awaitIcw2, imr := 0#8, irr := 0#8, isr := 0#8, readSel := .irr },
      seq := s.seq.afterTransaction 0, hist := s.hist ++ [evIow 0x20#16 0x11#8] } : State).latched) ∧
    (atTransaction (.picInit mb sb) 1 s → exec (.picInit mb sb) s = .next ({ s with
      picS := { s.picS with icw1 := 0x11#8, step := .awaitIcw2, imr := 0#8, irr := 0#8, isr := 0#8, readSel := .irr },
      seq := s.seq.afterTransaction 1, hist := s.hist ++ [evIow 0xA0#16 0x11#8] } : State).latched) ∧
    (atTransaction (.picInit mb sb) 2 s → s.picM.step = .awaitIcw2 → s.picM.icw1 = 0x11#8 →
      exec (.picInit mb sb) s = .next ({ s with
        picM := { s.picM with icw2 := mb, step := .awaitIcw3 },
        seq := s.seq.afterTransaction 2, hist := s.hist ++ [evIow 0x21#16 mb] } : State).latched) ∧
    (atTransaction (.picInit mb sb) 3 s → s.picS.step = .awaitIcw2 → s.picS.icw1 = 0x11#8 →
      exec (.picInit mb sb) s = .next ({ s with
        picS := { s.picS with icw2 := sb, step := .awaitIcw3 },
        seq := s.seq.afterTransaction 3, hist := s.hist ++ [evIow 0xA1#16 sb] } : State).latched) ∧
    (atTransaction (.picInit mb sb) 4 s → s.picM.step = .awaitIcw3 → s.picM.icw1 = 0x11#8 →
      exec (.picInit mb sb) s = .next ({ s with
        picM := { s.picM with icw3 := 0x04#8, step := .awaitIcw4 },
        seq := s.seq.afterTransaction 4, hist := s.hist ++ [evIow 0x21#16 0x04#8] } : State).latched) ∧
    (atTransaction (.picInit mb sb) 5 s → s.picS.step = .awaitIcw3 → s.picS.icw1 = 0x11#8 →
      exec (.picInit mb sb) s = .next ({ s with
        picS := { s.picS with icw3 := 0x02#8, step := .awaitIcw4 },
        seq := s.seq.afterTransaction 5, hist := s.hist ++ [evIow 0xA1#16 0x02#8] } : State).latched) ∧
    (atTransaction (.picInit mb sb) 6 s → s.picM.step = .awaitIcw4 →
      exec (.picInit mb sb) s = .next ({ s with
        picM := { s.picM with icw4 := 0x01#8, step := .ready },
        seq := s.seq.afterTransaction 6, hist := s.hist ++ [evIow 0x21#16 0x01#8] } : State).latched) ∧
    (atTransaction (.picInit mb sb) 7 s → s.picS.step = .awaitIcw4 →
      exec (.picInit mb sb) s = .next ({ s with
        picS := { s.picS with icw4 := 0x01#8, step := .ready },
        seq := s.seq.afterTransaction 7, hist := s.hist ++ [evIow 0xA1#16 0x01#8] } : State).latched) ∧
    (atTransaction (.picInit mb sb) 8 s → s.picM.step = .ready →
      exec (.picInit mb sb) s = .next ({ s with
        picM := { s.picM with imr := 0xFF#8 },
        seq := s.seq.afterTransaction 8, hist := s.hist ++ [evIow 0x21#16 0xFF#8] } : State).latched) ∧
    (atTransaction (.picInit mb sb) 9 s → s.picS.step = .ready →
      exec (.picInit mb sb) s = .next ({ s with
        picS := { s.picS with imr := 0xFF#8 },
        seq := s.seq.completed, hist := s.hist ++ [evIow 0xA1#16 0xFF#8] } : State).latched)

/-- R113: PIC_INIT from its submission to its completion, with no other agent's step between: the ten transactions in
order, and the end state, which does not depend on the chips' state before. The latch keeps what it held and records
the old output once (R47). -/
def Obligations.PicInitRunsToItsEndState : Prop :=
  ∀ (mb sb : Byte) (s : State), s.refused = none → s.cfg.family = .pic → s.seq.phase = .idle →
    contractFault s.cfg (.picInit mb sb) = none → s.inputs = [.submit (encode (.picInit mb sb))] →
    runs 11 s = .next { s with
      seq := { s.seq with req := encode (.picInit mb sb), upc := 0#4 }
      picM := s.picM.initialized mb 0x04#8
      picS := s.picS.initialized sb 0x02#8
      env := { s.env with picIntLatch := s.env.picIntLatch || s.intM }
      hist := s.hist ++ [evIow 0x20#16 0x11#8, evIow 0xA0#16 0x11#8, evIow 0x21#16 mb, evIow 0xA1#16 sb,
        evIow 0x21#16 0x04#8, evIow 0xA1#16 0x02#8, evIow 0x21#16 0x01#8, evIow 0xA1#16 0x01#8,
        evIow 0x21#16 0xFF#8, evIow 0xA1#16 0xFF#8]
      inputs := [] }

/-- R110, R113: PIC_INIT, begun in any state of the chips, with any edges before, between and after its ten transactions:
it completes in R113's end state, and each chip's request register holds exactly the edges that arrived after its ICW1
(the first transaction for the master, the second for the slave). -/
def Obligations.PicInitEndStateWithEdges : Prop :=
  ∀ (mb sb : Byte) (s : State) (xs : List Input), s.refused = none → s.cfg.family = .pic → s.seq.phase = .idle →
    contractFault s.cfg (.picInit mb sb) = none → xs.count .sequencer = 10 →
    (∀ x ∈ xs, x = .sequencer ∨ ∃ l, l < 16 ∧ l ≠ 2 ∧ x = .picEdge l) →
    s.inputs = .submit (encode (.picInit mb sb)) :: xs →
    ∃ t, runs (xs.length + 1) s = .next t ∧
      t.seq = { s.seq with req := encode (.picInit mb sb), upc := 0#4 } ∧
      t.picM = { s.picM.initialized mb 0x04#8 with irr := t.picM.irr } ∧
      t.picS = { s.picS.initialized sb 0x02#8 with irr := t.picS.irr } ∧
      (∀ i < 8, t.picM.irr.getLsbD i = decide (.picEdge i ∈ afterTransactions 1 xs)) ∧
      (∀ i < 8, t.picS.irr.getLsbD i = decide (.picEdge (i + 8) ∈ afterTransactions 2 xs)) ∧
      t.picModelled = true ∧ t.refused = none ∧ t.inputs = [] ∧
      t.hist = s.hist ++ [evIow 0x20#16 0x11#8, evIow 0xA0#16 0x11#8, evIow 0x21#16 mb, evIow 0xA1#16 sb,
        evIow 0x21#16 0x04#8, evIow 0xA1#16 0x02#8, evIow 0x21#16 0x01#8, evIow 0xA1#16 0x01#8,
        evIow 0x21#16 0xFF#8, evIow 0xA1#16 0xFF#8]

/-- R117: the two transactions of PIC_READ_MASKS, in every init step. -/
def Obligations.PicReadMasksTransactions : Prop :=
  ∀ s : State, s.cfg.family = .pic →
    (atTransaction .picReadMasks 0 s → exec .picReadMasks s = .next ({ s with
      seq := { s.seq.afterTransaction 0 with res := s.seq.res.extractLsb' 8 8 ++ s.picM.imr },
      hist := s.hist ++ [evIor 0x21#16 s.picM.imr] } : State).latched) ∧
    (atTransaction .picReadMasks 1 s → exec .picReadMasks s = .next ({ s with
      seq := { s.seq.completed with res := s.picS.imr ++ s.seq.res.extractLsb' 0 8 },
      hist := s.hist ++ [evIor 0xA1#16 s.picS.imr] } : State).latched)

/-- R118, R122: the two transactions of PIC_WRITE_MASKS and of PIC_UNMASK_ALL in every init step: a Ready chip takes the
byte as its mask, another as its next ICW (`Pic.dataWritten`). -/
def Obligations.MaskWriteTransactions : Prop :=
  ∀ (m sl : Byte) (s : State), s.cfg.family = .pic →
    (atTransaction (.picWriteMasks m sl) 0 s → exec (.picWriteMasks m sl) s = .next ({ s with
      picM := s.picM.dataWritten m, seq := s.seq.afterTransaction 0,
      hist := s.hist ++ [evIow 0x21#16 m] } : State).latched) ∧
    (atTransaction (.picWriteMasks m sl) 1 s → exec (.picWriteMasks m sl) s = .next ({ s with
      picS := s.picS.dataWritten sl, seq := s.seq.completed,
      hist := s.hist ++ [evIow 0xA1#16 sl] } : State).latched) ∧
    (atTransaction .picUnmaskAll 0 s → exec .picUnmaskAll s = .next ({ s with
      picM := s.picM.dataWritten 0x00#8, seq := s.seq.afterTransaction 0,
      hist := s.hist ++ [evIow 0x21#16 0x00#8] } : State).latched) ∧
    (atTransaction .picUnmaskAll 1 s → exec .picUnmaskAll s = .next ({ s with
      picS := s.picS.dataWritten 0x00#8, seq := s.seq.completed,
      hist := s.hist ++ [evIow 0xA1#16 0x00#8] } : State).latched) ∧
    ∀ (p : Pic) (v : Byte), p.step = .ready → p.dataWritten v = { p with imr := v }

/-- R119, R120, R121: the read of PIC_MASK and PIC_UNMASK, in every init step of the owning chip. -/
def Obligations.MaskReadTransactions : Prop :=
  ∀ (l : Byte) (s : State), s.cfg.family = .pic → l.toNat < 16 →
    let x : Byte := if l.toNat < 8 then s.picM.imr else s.picS.imr
    let port : Port := if l.toNat < 8 then 0x21#16 else 0xA1#16
    (atTransaction (.picMask l) 0 s → exec (.picMask l) s = .next ({ s with
      seq := { s.seq.afterTransaction 0 with t := x.setWidth 32 },
      hist := s.hist ++ [evIor port x] } : State).latched) ∧
    (atTransaction (.picUnmask l) 0 s → exec (.picUnmask l) s = .next ({ s with
      seq := { s.seq.afterTransaction 0 with t := x.setWidth 32 },
      hist := s.hist ++ [evIor port x] } : State).latched)

/-- R119, R120, R121: the write of PIC_MASK and PIC_UNMASK: the line's bit of the byte read is set or cleared and the byte
goes to the owning chip's data port, where a Ready chip takes it as its mask and another as its next ICW; the other chip
keeps its values. -/
def Obligations.MaskUpdateTransactions : Prop :=
  ∀ (l x : Byte) (s : State), s.cfg.family = .pic → l.toNat < 16 → s.seq.t = x.setWidth 32 →
    (l.toNat < 8 →
      (atTransaction (.picMask l) 1 s → exec (.picMask l) s = .next ({ s with
        picM := s.picM.dataWritten (setBit x l.toNat true), seq := s.seq.completed,
        hist := s.hist ++ [evIow 0x21#16 (setBit x l.toNat true)] } : State).latched) ∧
      (atTransaction (.picUnmask l) 1 s → exec (.picUnmask l) s = .next ({ s with
        picM := s.picM.dataWritten (setBit x l.toNat false), seq := s.seq.completed,
        hist := s.hist ++ [evIow 0x21#16 (setBit x l.toNat false)] } : State).latched)) ∧
    (8 ≤ l.toNat →
      (atTransaction (.picMask l) 1 s → exec (.picMask l) s = .next ({ s with
        picS := s.picS.dataWritten (setBit x (l.toNat - 8) true), seq := s.seq.completed,
        hist := s.hist ++ [evIow 0xA1#16 (setBit x (l.toNat - 8) true)] } : State).latched) ∧
      (atTransaction (.picUnmask l) 1 s → exec (.picUnmask l) s = .next ({ s with
        picS := s.picS.dataWritten (setBit x (l.toNat - 8) false), seq := s.seq.completed,
        hist := s.hist ++ [evIow 0xA1#16 (setBit x (l.toNat - 8) false)] } : State).latched)) ∧
    ∀ (p : Pic) (v : Byte), p.step = .ready → p.dataWritten v = { p with imr := v }

/-- R108, R109, R125, R126, R147: the transactions of PIC_EOI, the slave's before the master's; each clears its chip's
in-service bit of smallest index, if there is one, on a Ready chip, and is refused on a chip that is not Ready. That the
sequencer's own byte is refused there, where the last paragraph of R147 denies it, is the model's choice of R125 and of the
table of R147 (log 33, DESIGN CHOICE). -/
def Obligations.PicEoiTransactions : Prop :=
  ∀ (l : Byte) (s : State), s.cfg.family = .pic → l.toNat < 16 →
    let eoi : Byte → Byte := fun isr =>
      match (List.range 8).find? (fun i => isr.getLsbD i) with
      | none => isr
      | some i => setBit isr i false
    let refusal : State := { s with refused := some .unmodelledCommand }
    (l.toNat < 8 → atTransaction (.picEoi l) 0 s →
      (s.picM.step = .ready → exec (.picEoi l) s = .next ({ s with
        picM := { s.picM with isr := eoi s.picM.isr }, seq := s.seq.completed,
        hist := s.hist ++ [evIow 0x20#16 0x20#8] } : State).latched) ∧
      (s.picM.step ≠ .ready → exec (.picEoi l) s = .next refusal)) ∧
    (8 ≤ l.toNat → atTransaction (.picEoi l) 0 s →
      (s.picS.step = .ready → exec (.picEoi l) s = .next ({ s with
        picS := { s.picS with isr := eoi s.picS.isr }, seq := s.seq.afterTransaction 0,
        hist := s.hist ++ [evIow 0xA0#16 0x20#8] } : State).latched) ∧
      (s.picS.step ≠ .ready → exec (.picEoi l) s = .next refusal)) ∧
    (8 ≤ l.toNat → atTransaction (.picEoi l) 1 s →
      (s.picM.step = .ready → exec (.picEoi l) s = .next ({ s with
        picM := { s.picM with isr := eoi s.picM.isr }, seq := s.seq.completed,
        hist := s.hist ++ [evIow 0x20#16 0x20#8] } : State).latched) ∧
      (s.picM.step ≠ .ready → exec (.picEoi l) s = .next refusal))

/-- R126: what PIC_EOI adds to the history, from its submission to its completion on a Ready pair. -/
def Obligations.PicEoiHistory : Prop :=
  ∀ (l : Byte) (s : State), s.refused = none → s.cfg.family = .pic → s.seq.phase = .idle →
    s.picM.step = .ready → s.picS.step = .ready → s.inputs = [.submit (encode (.picEoi l))] →
    (8 ≤ l.toNat → l.toNat < 16 → ∃ t, runs 3 s = .next t ∧ t.seq.phase = .idle ∧
      t.hist = s.hist ++ [.bus .iow 0xA0#32 1 0x20#32, .bus .iow 0x20#32 1 0x20#32]) ∧
    (l.toNat < 8 → ∃ t, runs 2 s = .next t ∧ t.seq.phase = .idle ∧ t.hist = s.hist ++ [.bus .iow 0x20#32 1 0x20#32])

/-- R124.1, R124.5: PIC_READ_MASKS reads back both masks after PIC_WRITE_MASKS on a Ready pair, and 0xFFFF after a valid
PIC_INIT on a pair in any init step. -/
def Obligations.ReadMasksAfterWriteMasksOrInit : Prop :=
  (∀ (m sl : Byte) (s : State), s.refused = none → s.cfg.family = .pic → s.seq.phase = .idle →
    s.picM.step = .ready → s.picS.step = .ready →
    s.inputs = [.submit (encode (.picWriteMasks m sl)), .sequencer, .sequencer, .submit (encode .picReadMasks)] →
    ∃ t, runs 6 s = .next t ∧ t.seq.phase = .idle ∧ t.seq.res = sl ++ m ∧ t.picM = { s.picM with imr := m } ∧
      t.picS = { s.picS with imr := sl }) ∧
  ∀ (mb sb : Byte) (s : State), s.refused = none → s.cfg.family = .pic → s.seq.phase = .idle →
    contractFault s.cfg (.picInit mb sb) = none →
    s.inputs = .submit (encode (.picInit mb sb)) :: (List.replicate 10 .sequencer ++ [.submit (encode .picReadMasks)]) →
    ∃ t, runs 14 s = .next t ∧ t.seq.phase = .idle ∧ t.seq.res = 0xFFFF#16 ∧ t.picM.imr = 0xFF#8 ∧ t.picS.imr = 0xFF#8

/-- R124.2, R124.3: on a Ready pair, PIC_UNMASK then PIC_MASK of one line leaves the line masked, PIC_MASK then PIC_UNMASK
leaves it unmasked, and both leave every other mask bit as it was; so the owning chip's byte is restored if and only if
the line was masked before the first pair, or unmasked before the second. -/
def Obligations.MaskPairsRestoreTheByte : Prop :=
  ∀ (l : Byte) (s : State) (masked : Bool), s.refused = none → s.cfg.family = .pic → s.seq.phase = .idle → l.toNat < 16 →
    s.picM.step = .ready → s.picS.step = .ready →
    s.inputs = (if masked then [.submit (encode (.picUnmask l)), .sequencer, .sequencer, .submit (encode (.picMask l))]
      else [.submit (encode (.picMask l)), .sequencer, .sequencer, .submit (encode (.picUnmask l))]) →
    ∃ t, runs 6 s = .next t ∧ t.seq.phase = .idle ∧
      t.picM = (if l.toNat < 8 then { s.picM with imr := setBit s.picM.imr l.toNat masked } else s.picM) ∧
      t.picS = (if l.toNat < 8 then s.picS else { s.picS with imr := setBit s.picS.imr (l.toNat - 8) masked }) ∧
      (t.picM.imr = s.picM.imr ∧ t.picS.imr = s.picS.imr ↔
        (if l.toNat < 8 then s.picM.imr.getLsbD l.toNat else s.picS.imr.getLsbD (l.toNat - 8)) = masked)

/-- R93, R124.4: PIC_UNMASK_ALL and PIC_WRITE_MASKS 0, 0 emit the same transactions and leave the same state, but for
the request word recorded, from every state of the chips. -/
def Obligations.UnmaskAllIsWriteMasksZero : Prop :=
  ∀ (s : State) (xs : List Input), s.refused = none → s.cfg.family = .pic → s.seq.phase = .idle →
    ∃ t, runs 3 { s with inputs := .submit (encode .picUnmaskAll) :: .sequencer :: .sequencer :: xs } = .next t ∧
      t.refused = none ∧
      runs 3 { s with inputs := .submit (encode (.picWriteMasks 0#8 0#8)) :: .sequencer :: .sequencer :: xs } =
        .next { t with seq := { t.seq with req := encode (.picWriteMasks 0#8 0#8) } }

/-! ### The 8259 as a device -/

/-- R103: ICW1, in every init step. -/
def Obligations.Icw1Response : Prop :=
  ∀ (c : Chip) (v : Byte) (s : State), s.cfg.family = .pic → s.seq.phase ≠ .busy →
    exec (.icw1 c v) s = .next ((s.setPic c { s.pic c with
      icw1 := v, step := .awaitIcw2, imr := 0x00#8, irr := 0x00#8, isr := 0x00#8, readSel := .irr,
      icw4 := if v.getLsbD 0 = false then 0x00#8 else (s.pic c).icw4 }).log
        (evIow (portAddr c .command) v)).latched

/-- R104, R105, R106, R107: the four data-port bytes. -/
def Obligations.DataPortResponses : Prop :=
  ∀ (c : Chip) (v : Byte) (s : State), s.cfg.family = .pic → s.seq.phase ≠ .busy →
    exec (.icw2 c v) s = .next ((s.setPic c { s.pic c with
      icw2 := v,
      step := if (s.pic c).icw1.getLsbD 1 = false then .awaitIcw3
        else if (s.pic c).icw1.getLsbD 0 = true then .awaitIcw4 else .ready }).log (evIow (portAddr c .data) v)).latched ∧
    exec (.icw3 c v) s = .next ((s.setPic c { s.pic c with
      icw3 := v, step := if (s.pic c).icw1.getLsbD 0 = true then .awaitIcw4 else .ready }).log
        (evIow (portAddr c .data) v)).latched ∧
    exec (.icw4 c v) s = .next ((s.setPic c { s.pic c with icw4 := v, step := .ready }).log
      (evIow (portAddr c .data) v)).latched ∧
    exec (.ocw1 c v) s = .next ((s.setPic c { s.pic c with imr := v }).log (evIow (portAddr c .data) v)).latched

/-- R108: a non-specific EOI on a Ready chip clears exactly the in-service bit of smallest index. -/
def Obligations.NonspecificEoiResponse : Prop :=
  ∀ (c : Chip) (s : State), s.cfg.family = .pic → s.seq.phase ≠ .busy → (s.pic c).step = .ready →
    ((s.pic c).isr = 0#8 → exec (.ocw2NonspecificEoi c) s = .next (s.log (evIow (portAddr c .command) 0x20#8)).latched) ∧
    (∀ i < 8, (s.pic c).isr.getLsbD i = true → (∀ j < i, (s.pic c).isr.getLsbD j = false) →
      exec (.ocw2NonspecificEoi c) s = .next ((s.setPic c { s.pic c with isr := setBit (s.pic c).isr i false }).log
        (evIow (portAddr c .command) 0x20#8)).latched)

/-- R109, R147: an OCW3, another OCW2, and an OCW2 on a chip that is not Ready are refused. -/
def Obligations.UnmodelledCommandsAreRefused : Prop :=
  ∀ (c : Chip) (v : Byte) (s : State), s.cfg.family = .pic → s.seq.phase ≠ .busy →
    exec (.ocw3 c v) s = .next { s with refused := some .unmodelledCommand } ∧
    exec (.ocw2Other c v) s = .next { s with refused := some .unmodelledCommand } ∧
    ((s.pic c).step ≠ .ready → exec (.ocw2NonspecificEoi c) s = .next { s with refused := some .unmodelledCommand })

/-- R102, R114: a write to a master port and a write to a slave port commute on both chips' registers. -/
def Obligations.ChipWritesCommute : Prop :=
  ∀ (s t u : State) (p q : PicPort) (v w : Byte),
    portWrite (portAddr .master p) v s = .ok t → portWrite (portAddr .slave q) w t = .ok u →
    ∃ t' u', portWrite (portAddr .slave q) w s = .ok t' ∧ portWrite (portAddr .master p) v t' = .ok u' ∧
      u'.picM = u.picM ∧ u'.picS = u.picS

/-- R111, R112, R129, R131, R137, R138, R140: a raw read changes nothing but the history, which gains the value the device
returns; bit 12 of a low half is the free value, whose draw the model counts (log 11). A read of the EOI register, and one
of the data window outside the table, is refused. -/
def Obligations.RawReadsReturnTheRegisters : Prop :=
  ∀ (s : State) (rest : List Input), s.refused = none → s.seq.phase ≠ .busy →
    (∀ (c : Chip), s.cfg.family = .pic → s.inputs = .raw (.ioRead (portAddr c .data) 1) :: rest →
      step s = .next ({ s with inputs := rest, hist := s.hist ++ [evIor (portAddr c .data) (s.pic c).imr] } : State).latched) ∧
    (∀ (c : Chip), s.cfg.family = .pic → s.inputs = .raw (.ioRead (portAddr c .command) 1) :: rest →
      step s = .next ({ s with inputs := rest, hist := s.hist ++ [evIor (portAddr c .command)
        (if (s.pic c).readSel = .irr then s.irrEff c else (s.pic c).isr)] } : State).latched) ∧
    (s.cfg.family = .apic → validConfig s.cfg = true →
      (s.inputs = .raw (.memRead s.cfg.ioapicBase 4) :: rest → step s = .next ({ s with
        inputs := rest, hist := s.hist ++ [evMr s.cfg.ioapicBase (s.ioapic.ioregsel.setWidth 32)] } : State).latched) ∧
      (s.inputs = .raw (.memRead (s.cfg.lapicBase + 0x0F0#32) 4) :: rest → step s = .next ({ s with
        inputs := rest, hist := s.hist ++ [evMr (s.cfg.lapicBase + 0x0F0#32) s.lapic.svr] } : State).latched) ∧
      (s.inputs = .raw (.memRead (s.cfg.lapicBase + 0x080#32) 4) :: rest → step s = .next ({ s with
        inputs := rest, hist := s.hist ++ [evMr (s.cfg.lapicBase + 0x080#32) s.lapic.tpr] } : State).latched) ∧
      (s.inputs = .raw (.memRead (s.cfg.lapicBase + 0x0B0#32) 4) :: rest →
        step s = .next { s with inputs := rest, refused := some .unmodelledAccess }) ∧
      (s.inputs = .raw (.memRead (s.cfg.ioapicBase + 0x10#32) 4) :: rest →
        s.ioapic.ioregsel.toNat < 0x10 ∨ 0x10 + 2 * s.cfg.nRedir ≤ s.ioapic.ioregsel.toNat →
        step s = .next { s with inputs := rest, refused := some .unmodelledIoapicRegister }) ∧
      (s.inputs = .raw (.memRead (s.cfg.ioapicBase + 0x10#32) 4) :: rest → ∀ n, n < s.cfg.nRedir →
        (s.ioapic.ioregsel.toNat = 0x11 + 2 * n → step s = .next ({ s with
          inputs := rest,
          hist := s.hist ++ [evMr (s.cfg.ioapicBase + 0x10#32) (hiHalf (s.ioapic.redir n))] } : State).latched) ∧
        (s.ioapic.ioregsel.toNat = 0x10 + 2 * n → ∃ x : Word32,
          step s = .next ({ s with
            inputs := rest, hist := s.hist ++ [evMr (s.cfg.ioapicBase + 0x10#32) x], draws := s.draws + 1 } : State).latched ∧
          ((s.ioapic.redir n).getLsbD 12 = false → (s.ioapic.redir n).getLsbD 14 = false →
            x.getLsbD 14 = s.ioapic.remoteIrr n ∧
            ∀ j < 32, j ≠ 12 → j ≠ 14 → x.getLsbD j = (s.ioapic.redir n).getLsbD j))))

/-- R53, R56: a raw access of another width, a misaligned MMIO access, and an access to an address that is not modelled
or belongs to the absent family are refused; where both kinds apply, the width comes first (log 13). -/
def Obligations.UnmodelledAccessesAreRefused : Prop :=
  ∀ (s : State) (rest : List Input) (v : Word32), s.refused = none → s.seq.phase ≠ .busy →
    (∀ (p : Port) (n : Nat) (x : Transaction), x = .ioWrite p n v ∨ x = .ioRead p n → s.inputs = .raw x :: rest →
      (n ≠ 1 → step s = .next { s with inputs := rest, refused := some .unmodelledAccess }) ∧
      (n = 1 → s.cfg.family = .apic ∨ p ∉ [0x20#16, 0x21#16, 0xA0#16, 0xA1#16] →
        step s = .next { s with inputs := rest, refused := some .unmodelledAddress })) ∧
    (∀ (a : Word32) (n : Nat) (x : Transaction), x = .memWrite a n v ∨ x = .memRead a n → s.inputs = .raw x :: rest →
      (n ≠ 4 ∨ a.toNat % 4 ≠ 0 → step s = .next { s with inputs := rest, refused := some .unmodelledAccess }) ∧
      (n = 4 → a.toNat % 4 = 0 →
        s.cfg.family = .pic ∨ a ∉ [s.cfg.ioapicBase, s.cfg.ioapicBase + 0x10#32, s.cfg.lapicBase + 0x080#32,
          s.cfg.lapicBase + 0x0B0#32, s.cfg.lapicBase + 0x0F0#32] →
        step s = .next { s with inputs := rest, refused := some .unmodelledAddress }))

/-! ### The APIC requests and registers -/

/-- R133: the four transactions of IOAPIC_WRITE_ENTRY. -/
def Obligations.WriteEntryTransactions : Prop :=
  ∀ (l vec : Byte) (dm : DeliveryMode) (dsm : DestMode) (pol : Polarity) (trg : TriggerMode) (dest : Byte) (s : State),
    let i : Instr := .ioapicWriteEntry l vec dm dsm pol trg dest
    s.cfg.family = .apic → validConfig s.cfg = true → l.toNat < s.cfg.nRedir →
    (atTransaction i 0 s → exec i s = .next ({ s with
      ioapic := { s.ioapic with ioregsel := BitVec.ofNat 8 (0x10 + 2 * l.toNat) }, seq := s.seq.afterTransaction 0,
      hist := s.hist ++ [evMw s.cfg.ioapicBase (BitVec.ofNat 32 (0x10 + 2 * l.toNat))] } : State).latched) ∧
    (atTransaction i 1 s → s.ioapic.ioregsel.toNat = 0x10 + 2 * l.toNat →
      exec i s = .next ((({ s with seq := s.seq.afterTransaction 1 } : State).setEntry l.toNat
        { word := hiHalf (s.ioapic.redir l.toNat) ++ packLo vec dm.code dsm.bit pol.bit trg.bit true,
          remoteIrr := s.ioapic.remoteIrr l.toNat }).log
        (evMw (s.cfg.ioapicBase + 0x10#32) (packLo vec dm.code dsm.bit pol.bit trg.bit true))).latched) ∧
    (atTransaction i 2 s → exec i s = .next ({ s with
      ioapic := { s.ioapic with ioregsel := BitVec.ofNat 8 (0x11 + 2 * l.toNat) }, seq := s.seq.afterTransaction 2,
      hist := s.hist ++ [evMw s.cfg.ioapicBase (BitVec.ofNat 32 (0x11 + 2 * l.toNat))] } : State).latched) ∧
    (atTransaction i 3 s → s.ioapic.ioregsel.toNat = 0x11 + 2 * l.toNat →
      exec i s = .next ((({ s with seq := s.seq.completed } : State).setEntry l.toNat
        { word := packHi dest ++ loHalf (s.ioapic.redir l.toNat), remoteIrr := s.ioapic.remoteIrr l.toNat }).log
        (evMw (s.cfg.ioapicBase + 0x10#32) (packHi dest))).latched)

/-- R85: what the two packed halves hold, field by field and bit by bit. -/
def Obligations.PackedEntryFields : Prop :=
  ∀ (vec : Byte) (dm : DeliveryMode) (dsm : DestMode) (pol : Polarity) (trg : TriggerMode) (m : Bool) (dest : Byte),
    let e : Word64 := packHi dest ++ packLo vec dm.code dsm.bit pol.bit trg.bit m
    entryVector e = vec ∧ entryDeliveryMode e = dm.code ∧ entryDestMode e = dsm.bit ∧ entryPolarity e = pol.bit ∧
    entryTriggerMode e = trg.bit ∧ entryMask e = m ∧ entryDestination e = dest ∧
    e.getLsbD 12 = false ∧ e.getLsbD 14 = false ∧ ∀ j, 17 ≤ j → j < 56 → e.getLsbD j = false

/-- R134: the three transactions of IOAPIC_SET_MASK: whatever the free bit 12 reads as, the stored entry changes in its
mask bit alone. -/
def Obligations.SetMaskTransactions : Prop :=
  ∀ (l : Byte) (m : Bool) (s : State), s.cfg.family = .apic → validConfig s.cfg = true → l.toNat < s.cfg.nRedir →
    (atTransaction (.ioapicSetMask l m) 0 s → exec (.ioapicSetMask l m) s = .next ({ s with
      ioapic := { s.ioapic with ioregsel := BitVec.ofNat 8 (0x10 + 2 * l.toNat) }, seq := s.seq.afterTransaction 0,
      hist := s.hist ++ [evMw s.cfg.ioapicBase (BitVec.ofNat 32 (0x10 + 2 * l.toNat))] } : State).latched) ∧
    (atTransaction (.ioapicSetMask l m) 1 s → s.ioapic.ioregsel.toNat = 0x10 + 2 * l.toNat →
      ∃ x : Word32, exec (.ioapicSetMask l m) s = .next ({ s with
        seq := { s.seq.afterTransaction 1 with t := x }, draws := s.draws + 1,
        hist := s.hist ++ [evMr (s.cfg.ioapicBase + 0x10#32) x] } : State).latched ∧
        ∀ j < 32, j ≠ 12 → j ≠ 14 → x.getLsbD j = (s.ioapic.redir l.toNat).getLsbD j) ∧
    (atTransaction (.ioapicSetMask l m) 2 s → s.ioapic.ioregsel.toNat = 0x10 + 2 * l.toNat →
      (s.ioapic.redir l.toNat).getLsbD 12 = false → (s.ioapic.redir l.toNat).getLsbD 14 = false →
      (∀ j < 32, j ≠ 12 → j ≠ 14 → s.seq.t.getLsbD j = (s.ioapic.redir l.toNat).getLsbD j) →
      ∃ x : Word32, exec (.ioapicSetMask l m) s = .next ((({ s with seq := s.seq.completed } : State).setEntry l.toNat
        { word := setBit (s.ioapic.redir l.toNat) 16 m, remoteIrr := s.ioapic.remoteIrr l.toNat }).log
        (evMw (s.cfg.ioapicBase + 0x10#32) x)).latched ∧
        ∀ j < 32, x.getLsbD j = if j = 16 then m else s.seq.t.getLsbD j)

/-- R135: IOAPIC_WRITE_ENTRY, a raw read of the entry's low half, then IOAPIC_SET_MASK n, 0: the read has bit 16 set, and
the entry ends with its mask clear and every packed field as it was written. IOAPIC_SET_MASK n, 1 then IOAPIC_SET_MASK n, 0
clears the mask bit alone, so it restores the stored entry exactly if the bit was 0. -/
def Obligations.RedirectionEntryProperties : Prop :=
  (∀ (l vec : Byte) (dm : DeliveryMode) (dsm : DestMode) (pol : Polarity) (trg : TriggerMode) (dest : Byte) (s : State),
    s.Inv → s.refused = none → s.cfg.family = .apic → s.seq.phase = .idle → l.toNat < s.cfg.nRedir →
    s.inputs = [.submit (encode (.ioapicWriteEntry l vec dm dsm pol trg dest)),
      .sequencer, .sequencer, .sequencer, .sequencer,
      .raw (.memWrite s.cfg.ioapicBase 4 (BitVec.ofNat 32 (0x10 + 2 * l.toNat))),
      .raw (.memRead (s.cfg.ioapicBase + 0x10#32) 4),
      .submit (encode (.ioapicSetMask l false))] →
    (∃ t x, runs 7 s = .next t ∧ t.hist.getLast? = some (evMr (s.cfg.ioapicBase + 0x10#32) x) ∧ x.getLsbD 16 = true ∧
      t.ioapic.redir l.toNat = packHi dest ++ packLo vec dm.code dsm.bit pol.bit trg.bit true) ∧
    (∃ t, runs 11 s = .next t ∧ t.seq.phase = .idle ∧
      t.ioapic.redir l.toNat = packHi dest ++ packLo vec dm.code dsm.bit pol.bit trg.bit false ∧
      ∀ n, n ≠ l.toNat → t.ioapic.entries[n]? = s.ioapic.entries[n]?)) ∧
  ∀ (l : Byte) (s : State), s.Inv → s.refused = none → s.cfg.family = .apic → s.seq.phase = .idle →
    l.toNat < s.cfg.nRedir →
    s.inputs = [.submit (encode (.ioapicSetMask l true)), .sequencer, .sequencer, .sequencer,
      .submit (encode (.ioapicSetMask l false))] →
    ∃ t, runs 8 s = .next t ∧ t.seq.phase = .idle ∧
      t.ioapic.redir l.toNat = setBit (s.ioapic.redir l.toNat) 16 false ∧
      t.ioapic.remoteIrr l.toNat = s.ioapic.remoteIrr l.toNat ∧
      (t.ioapic.redir l.toNat = s.ioapic.redir l.toNat ↔ (s.ioapic.redir l.toNat).getLsbD 16 = false) ∧
      ∀ n, n ≠ l.toNat → t.ioapic.entries[n]? = s.ioapic.entries[n]?

/-- R142: LAPIC_ENABLE's one transaction writes the whole SVR. -/
def Obligations.LapicEnableTransaction : Prop :=
  ∀ (v : Byte) (s : State), s.cfg.family = .apic → validConfig s.cfg = true → atTransaction (.lapicEnable v) 0 s →
    exec (.lapicEnable v) s = .next ({ s with
      lapic := { s.lapic with svr := 0x00000100#32 ||| v.setWidth 32 }, seq := s.seq.completed,
      hist := s.hist ++ [evMw (s.cfg.lapicBase + 0x0F0#32) (0x00000100#32 ||| v.setWidth 32)] } : State).latched

/-- R139: what an EOI write does to the state: the highest in-service vector ends, and if it was level-triggered and
broadcasts are not suppressed, remote IRR of every entry with that vector clears. -/
def Obligations.LapicEoiEndsTheHighestVector : Prop :=
  ∀ s : State,
    (s.lapic.isr = 0#256 → s.takeLapicEoi = s) ∧
    (∀ x < 256, s.lapic.isr.getLsbD x = true → (∀ y, x < y → s.lapic.isr.getLsbD y = false) →
      s.takeLapicEoi = { s with
        lapic := { s.lapic with isr := setBit s.lapic.isr x false }
        ioapic := { s.ioapic with
          entries := s.ioapic.entries.map fun e =>
            if s.lapic.tmr.getLsbD x = true ∧ s.lapic.svr.getLsbD 12 = false ∧ (entryVector e.word).toNat = x
            then { e with remoteIrr := false } else e } })

/-- R143: LAPIC_EOI's one transaction is an EOI write of 0 and does what R139 says. -/
def Obligations.LapicEoiTransaction : Prop :=
  ∀ s : State, s.cfg.family = .apic → validConfig s.cfg = true → atTransaction .lapicEoi 0 s →
    exec .lapicEoi s = .next ({ s.takeLapicEoi with
      seq := s.seq.completed, hist := s.hist ++ [evMw (s.cfg.lapicBase + 0x0B0#32) 0#32] } : State).latched

/-- R128, R136, R138, R139: the register writes as raw accesses; the EOI register ignores the value. -/
def Obligations.RegisterWriteResponses : Prop :=
  ∀ (v : Word32) (s : State), s.cfg.family = .apic → s.seq.phase ≠ .busy →
    exec (.ioapicIndexWrite v) s = .next ({ s with
      ioapic := { s.ioapic with ioregsel := v.setWidth 8 }, hist := s.hist ++ [evMw s.cfg.ioapicBase v] } : State).latched ∧
    exec (.lapicSvrWrite v) s = .next ({ s with
      lapic := { s.lapic with svr := v }, hist := s.hist ++ [evMw (s.cfg.lapicBase + 0x0F0#32) v] } : State).latched ∧
    exec (.lapicTprWrite v) s = .next ({ s with
      lapic := { s.lapic with tpr := v }, hist := s.hist ++ [evMw (s.cfg.lapicBase + 0x080#32) v] } : State).latched ∧
    exec (.lapicEoiWrite v) s = .next ({ s.takeLapicEoi with
      hist := s.hist ++ [evMw (s.cfg.lapicBase + 0x0B0#32) v] } : State).latched

/-- R130: a data-window write of either half of an entry; bits 12 and 14 are not stored, the other half and the other
entries keep their values; an entry outside the table, and a raw data-window write at any index outside it, is refused. -/
def Obligations.WindowWriteResponses : Prop :=
  (∀ (v : Word32) (s : State) (rest : List Input), s.refused = none → s.cfg.family = .apic → s.seq.phase ≠ .busy →
    s.inputs = .raw (.memWrite (s.cfg.ioapicBase + 0x10#32) 4 v) :: rest → validConfig s.cfg = true →
    s.ioapic.ioregsel.toNat < 0x10 ∨ 0x10 + 2 * s.cfg.nRedir ≤ s.ioapic.ioregsel.toNat →
    step s = .next { s with inputs := rest, refused := some .unmodelledIoapicRegister }) ∧
  ∀ (n : Nat) (v : Word32) (s : State), s.cfg.family = .apic → s.seq.phase ≠ .busy →
    (n < s.cfg.nRedir →
      exec (.ioapicWindowWriteLo n v) s = .next ((s.setEntry n
        { word := hiHalf (s.ioapic.redir n) ++ setBit (setBit v 12 false) 14 false,
          remoteIrr := s.ioapic.remoteIrr n }).log (evMw (s.cfg.ioapicBase + 0x10#32) v)).latched ∧
      exec (.ioapicWindowWriteHi n v) s = .next ((s.setEntry n
        { word := v ++ loHalf (s.ioapic.redir n), remoteIrr := s.ioapic.remoteIrr n }).log
        (evMw (s.cfg.ioapicBase + 0x10#32) v)).latched) ∧
    (s.cfg.nRedir ≤ n →
      exec (.ioapicWindowWriteLo n v) s = .next { s with refused := some .unmodelledIoapicRegister } ∧
      exec (.ioapicWindowWriteHi n v) s = .next { s with refused := some .unmodelledIoapicRegister })

/-! ### Interrupts -/

/-- R150: an edge sets one request bit, in every init step, whatever the mask. -/
def Obligations.EdgeLatchesTheRequest : Prop :=
  ∀ (s : State) (l : Nat) (rest : List Input), s.refused = none → s.cfg.family = .pic → l < 16 → l ≠ 2 →
    s.inputs = .picEdge l :: rest →
    (l < 8 → step s = .next ({ s with
      picM := { s.picM with irr := setBit s.picM.irr l true }, inputs := rest } : State).latched) ∧
    (8 ≤ l → step s = .next ({ s with
      picS := { s.picS with irr := setBit s.picS.irr (l - 8) true }, inputs := rest } : State).latched)

/-- R151, R152: an acknowledge in the modelled configuration: spurious, a master line, or through the cascade, where
the slave always answers. -/
def Obligations.PicAcknowledgeDelivers : Prop :=
  ∀ (s : State) (rest : List Input), s.refused = none → s.cfg.family = .pic → s.env.picIntLatch = true →
    s.picModelled = true → s.inputs = .cpuIntaPic :: rest →
    let u : State := { s with inputs := rest, env := { s.env with picIntLatch := false } }
    (s.intM = false → step s = .next (u.log (.vec .pic ((s.picM.icw2 &&& 0xF8#8) ||| 7#8))).latched) ∧
    (∀ i, s.intM = true → highestPri8 (s.reqOf .master) = some i → i ≠ 2 →
      step s = .next (({ u with
        picM := { s.picM with isr := setBit s.picM.isr i true, irr := setBit s.picM.irr i false } } : State).log
        (.vec .pic ((s.picM.icw2 &&& 0xF8#8) ||| BitVec.ofNat 8 i))).latched) ∧
    (s.intM = true → highestPri8 (s.reqOf .master) = some 2 →
      ∃ j, highestPri8 (s.reqOf .slave) = some j ∧
      step s = .next (({ u with
        picM := { s.picM with isr := setBit s.picM.isr 2 true },
        picS := { s.picS with isr := setBit s.picS.isr j true, irr := setBit s.picS.irr j false } } : State).log
        (.vec .pic ((s.picS.icw2 &&& 0xF8#8) ||| BitVec.ofNat 8 j))).latched)

/-- R153, R147: an acknowledge outside the modelled configuration is refused. That the latch stays set, where R151 clears it
first, is DEDUCED from R147 (log 9). -/
def Obligations.PicAcknowledgeOutsideTheConfigurationIsRefused : Prop :=
  ∀ (s : State) (rest : List Input), s.refused = none → s.cfg.family = .pic → s.env.picIntLatch = true →
    s.picModelled = false → s.inputs = .cpuIntaPic :: rest →
    step s = .next { s with inputs := rest, refused := some .unmodelledMode }

/-- R37, R115, R151, R152, R154: whatever is in service, the acknowledge delivers the vector of the line that comes first in
the order of R154 among those that request and are not held back, and puts it in service (a slave line beside master line
2); where every requesting line is held back, or none requests, it delivers the master's spurious vector and the chips stay
as they are. So a line above everything in service nests (R161). -/
def Obligations.PicPriorityOrder : Prop :=
  ∀ (s : State) (rest : List Input), s.refused = none → s.cfg.family = .pic → s.env.picIntLatch = true →
    s.picModelled = true → s.inputs = .cpuIntaPic :: rest →
    (∀ l, winningLine s = some l → ∃ t, step s = .next t ∧ t.hist = s.hist ++ [.vec .pic (lineVector s l)] ∧
      t.picM.isr = setBit s.picM.isr (if l < 8 then l else 2) true ∧
      t.picS.isr = if l < 8 then s.picS.isr else setBit s.picS.isr (l - 8) true) ∧
    (winningLine s = none → ∃ t, step s = .next t ∧
      t.hist = s.hist ++ [.vec .pic ((s.picM.icw2 &&& 0xF8#8) ||| 7#8)] ∧ t.picM = s.picM ∧ t.picS = s.picS)

/-- R37, R154: on each chip a bit in service holds back every request at its number or below in priority; and the output is
up exactly when the chip is Ready and has an unmasked request above everything in service, the master's request 2 being
the slave's output. -/
def Obligations.InServiceGatesTheOutputs : Prop :=
  ∀ s : State,
    (∀ k, s.picM.isr.getLsbD k = true → (∀ i < k, (s.reqOf .master).getLsbD i = false) → s.intM = false) ∧
    (∀ k, s.picS.isr.getLsbD k = true → (∀ i < k, (s.reqOf .slave).getLsbD i = false) →
      s.intS = false ∧ (s.reqOf .master).getLsbD 2 = false) ∧
    (s.intS = true ↔ s.picS.step = .ready ∧ ∃ i < 8, s.picS.irr.getLsbD i = true ∧ s.picS.imr.getLsbD i = false ∧
      ∀ k ≤ i, s.picS.isr.getLsbD k = false) ∧
    (s.intM = true ↔ s.picM.step = .ready ∧ ∃ i < 8, (if i = 2 then s.intS else s.picM.irr.getLsbD i) = true ∧
      s.picM.imr.getLsbD i = false ∧ ∀ k ≤ i, s.picM.isr.getLsbD k = false)

/-- R37, R123: while master line 2 is masked, no state of the slave is visible in the pair's output. -/
def Obligations.MaskedCascadeHidesTheSlave : Prop :=
  ∀ (s : State) (p : Pic), s.picM.imr.getLsbD 2 = true → ({ s with picS := p } : State).intM = s.intM

/-- R155.1, R155.3, R155.4, R156, R147: what every change of a pin does: it only sets the pin, or it sends the entry's edge
message, which an enabled Local APIC accepts, which a software-disabled one accepts or drops (a free value, log 12), and
which is refused for a delivery mode other than FIXED and LOWEST or a vector below 0x10. That a refused step leaves the pin
as it was, where R155 drives it first, is DEDUCED from R147 (log 9). -/
def Obligations.PinEdgeSendsTheMessage : Prop :=
  ∀ (s : State) (n : Nat) (b : Bool) (rest : List Input), s.refused = none → s.cfg.family = .apic → n < s.cfg.nRedir →
    s.inputs = .pin n b :: rest →
    let e := s.ioapic.redir n
    let v := (e.extractLsb' 0 8).toNat
    let u : State := { s with inputs := rest, env := { s.env with pin := s.env.pin.set n b } }
    let accepted : Lapic := { s.lapic with irr := setBit s.lapic.irr v true, tmr := setBit s.lapic.tmr v false }
    let rising := (s.env.level n ^^ e.getLsbD 13) = false ∧ (b ^^ e.getLsbD 13) = true
    let sends := e.getLsbD 15 = false ∧ e.getLsbD 16 = false ∧
      lapicMatches s.cfg (e.getLsbD 11) (e.extractLsb' 56 8) = true ∧ rising
    let plain := e.extractLsb' 8 3 = 0#3 ∨ e.extractLsb' 8 3 = 1#3
    (¬ sends → step s = .next u.latched) ∧
    (sends → plain → 0x10 ≤ v → s.lapic.svr.getLsbD 8 = true →
      step s = .next ({ u with lapic := accepted } : State).latched) ∧
    (sends → plain → 0x10 ≤ v → s.lapic.svr.getLsbD 8 = false →
      step s = .next ({ u with lapic := accepted, draws := s.draws + 1 } : State).latched ∨
      step s = .next ({ u with draws := s.draws + 1 } : State).latched) ∧
    (sends → plain → v < 0x10 → step s = .next { s with inputs := rest, refused := some .unmodelledVector }) ∧
    (sends → ¬ plain → step s = .next { s with inputs := rest, refused := some .unmodelledDeliveryMode })

/-- R155.2, R155.3, R156, R147: the level message of an asserted, unmasked, matched entry sets remote IRR whether the Local
APIC accepts it or, software-disabled, drops it (log 12); it is refused for a delivery mode other than FIXED and LOWEST or
a vector below 0x10. That a refused step leaves remote IRR as it was is DEDUCED from R147 (log 9). -/
def Obligations.LevelMessageSetsRemoteIrr : Prop :=
  ∀ (s : State) (n : Nat) (rest : List Input), s.refused = none → s.cfg.family = .apic → n < s.cfg.nRedir →
    s.inputs = .ioapicLevel n :: rest →
    let e := s.ioapic.redir n
    let v := (e.extractLsb' 0 8).toNat
    let u : State := ({ s with inputs := rest } : State).setEntry n { word := e, remoteIrr := true }
    let accepted : Lapic := { s.lapic with irr := setBit s.lapic.irr v true, tmr := setBit s.lapic.tmr v true }
    let plain := e.extractLsb' 8 3 = 0#3 ∨ e.extractLsb' 8 3 = 1#3
    e.getLsbD 15 = true → e.getLsbD 16 = false → (s.env.level n ^^ e.getLsbD 13) = true →
    lapicMatches s.cfg (e.getLsbD 11) (e.extractLsb' 56 8) = true → s.ioapic.remoteIrr n = false →
    (plain → 0x10 ≤ v → s.lapic.svr.getLsbD 8 = true →
      step s = .next ({ u with lapic := accepted } : State).latched) ∧
    (plain → 0x10 ≤ v → s.lapic.svr.getLsbD 8 = false →
      step s = .next ({ u with lapic := accepted, draws := s.draws + 1 } : State).latched ∨
      step s = .next ({ u with draws := s.draws + 1 } : State).latched) ∧
    (plain → v < 0x10 → step s = .next { s with inputs := rest, refused := some .unmodelledVector }) ∧
    (¬ plain → step s = .next { s with inputs := rest, refused := some .unmodelledDeliveryMode })

/-- R157, R158: an acknowledge of the Local APIC delivers its highest requested vector when that is of a class above
the TPR's and above every class in service, and the spurious vector otherwise. That a refused acknowledge leaves the
latch set, where R158 clears it first, is DEDUCED from R147 (log 9). -/
def Obligations.LapicAcknowledgeDelivers : Prop :=
  ∀ (s : State) (rest : List Input), s.refused = none → s.cfg.family = .apic → s.env.lapicIntLatch = true →
    s.inputs = .cpuIntaLapic :: rest →
    let u : State := { s with inputs := rest, env := { s.env with lapicIntLatch := false } }
    let nothingAbove : Prop := s.lapic.irr = 0#256 ∨
      ∃ v < 256, s.lapic.irr.getLsbD v = true ∧ (∀ w, v < w → s.lapic.irr.getLsbD w = false) ∧
        (v / 16 ≤ (s.lapic.tpr.extractLsb' 4 4).toNat ∨ ∃ w, s.lapic.isr.getLsbD w = true ∧ v / 16 ≤ w / 16)
    (∀ v < 256, s.lapic.irr.getLsbD v = true → (∀ w, v < w → s.lapic.irr.getLsbD w = false) →
      ((s.lapic.tpr.extractLsb' 4 4).toNat < v / 16 ∧ (∀ w, s.lapic.isr.getLsbD w = true → w / 16 < v / 16) →
        step s = .next (({ u with lapic := { s.lapic with
          irr := setBit s.lapic.irr v false, isr := setBit s.lapic.isr v true } } : State).log
          (.vec .lapic (BitVec.ofNat 8 v))).latched)) ∧
    (nothingAbove → 0x10 ≤ (s.lapic.svr.extractLsb' 0 8).toNat →
      step s = .next (u.log (.vec .lapic (s.lapic.svr.extractLsb' 0 8))).latched) ∧
    (nothingAbove → (s.lapic.svr.extractLsb' 0 8).toNat < 0x10 →
      step s = .next { s with inputs := rest, refused := some .unmodelledVector })

/-! ### The whole machine -/

/-- R47: after every step that is not refused, a latch holds what it held or the output, and only the acknowledge of
its own family lets go of what it held. -/
def Obligations.LatchesRecordTheOutputs : Prop :=
  ∀ s t : State, step s = .next t → t.refused = none →
    (t.cfg.family = .pic →
      t.env.picIntLatch = ((s.env.picIntLatch && decide (s.nextInput ≠ .cpuIntaPic)) || t.intM) ∧
      t.env.lapicIntLatch = s.env.lapicIntLatch) ∧
    (t.cfg.family = .apic →
      t.env.lapicIntLatch = ((s.env.lapicIntLatch && decide (s.nextInput ≠ .cpuIntaLapic)) || t.lapic.intr) ∧
      t.env.picIntLatch = s.env.picIntLatch)

/-- R4, R9, R20: no step changes the instance's parameters; a PIC machine's steps never touch the APIC pair or the pins,
an APIC machine's never the 8259 pair. That the absent family's devices stand in the state, inert, is the model's form
(log 15, DESIGN CHOICE); that a PIC machine's pins are kept rests on it and on log 20 (DEDUCED from R20: R155 names no
FAMILY for PIN). -/
def Obligations.ParametersAndAbsentFamilyAreKept : Prop :=
  ∀ s t : State, step s = .next t →
    t.cfg = s.cfg ∧
    (s.cfg.family = .pic → t.ioapic = s.ioapic ∧ t.lapic = s.lapic ∧ t.env.pin = s.env.pin) ∧
    (s.cfg.family = .apic → t.picM = s.picM ∧ t.picS = s.picS)

/-- R19, R48: a step adds at most one event to the history and never changes what it holds. -/
def Obligations.HistoryGrowsByAtMostOneEvent : Prop :=
  ∀ s t : State, step s = .next t → t.hist = s.hist ∨ ∃ e, t.hist = s.hist ++ [e]

/-- R101, R171.2: no step of the environment changes the sequencer's registers, an 8259 mask or a stored entry; nor, as
R150, R151, R155 and R158 write neither, an init step or the index register. -/
def Obligations.EnvironmentLeavesTheSequencerAndTheMasks : Prop :=
  ∀ s t : State, isEnvironment s.nextInput = true → step s = .next t →
    t.seq = s.seq ∧ t.picM.imr = s.picM.imr ∧ t.picS.imr = s.picS.imr ∧ t.picM.step = s.picM.step ∧
    t.picS.step = s.picS.step ∧ t.ioapic.ioregsel = s.ioapic.ioregsel ∧
    t.ioapic.entries.map Entry.word = s.ioapic.entries.map Entry.word

/-- R18, R150, R151, R155, R158: a step of the environment has a next state exactly where it is enabled, and the agent is
stuck where it is not; R96: so is the sequencer while it is not Busy. That stuck is a fault outcome is the model's form
(log 10), and that a pin change and a level message belong to FAMILY = APIC is DEDUCED from R20 (log 20). -/
def Obligations.StepsNotEnabledAreStuck : Prop :=
  ∀ s : State, s.refused = none →
    (isEnvironment s.nextInput = true → environmentEnabled s s.nextInput → ∃ t, step s = .next t) ∧
    (isEnvironment s.nextInput = true → ¬ environmentEnabled s s.nextInput → step s = .fault (.stuck .environment)) ∧
    (s.nextInput = .sequencer → s.seq.phase ≠ .busy → step s = .fault (.stuck .sequencer))
end

