-- ==== Sys2Proof/Laws/Bits.lean ====
section
/-!
SUPPORT. What the bit and priority helpers do.
-/

namespace Sys2Proof.Machine

/-- `setBit` changes one bit. -/
theorem getLsbD_setBit {w : Nat} (x : BitVec w) (i j : Nat) (b : Bool) :
    (setBit x i b).getLsbD j = if j = i ∧ i < w then b else x.getLsbD j := by
  unfold setBit
  have := BitVec.getLsbD_of_ge x j
  cases b <;> simp [BitVec.getLsbD_twoPow] <;> grind

/-- The low byte of a byte widened to 32 bits is the byte. -/
@[simp] theorem extractByte_setWidth (x : Byte) : (x.setWidth 32).extractLsb' 0 8 = x :=
  BitVec.eq_of_getLsbD_eq fun i hi => by
    rw [BitVec.getLsbD_extractLsb', BitVec.getLsbD_setWidth]
    grind

/-- `highestPri8` finds the smallest set index. -/
theorem highestPri8_eq_some {x : Byte} {i : Nat} :
    highestPri8 x = some i ↔ x.getLsbD i = true ∧ i < 8 ∧ ∀ j < i, x.getLsbD j = false := by
  simp [highestPri8, List.find?_range_eq_some]

/-- `highestPri8` finds nothing exactly when no bit is set. -/
theorem highestPri8_eq_none {x : Byte} : highestPri8 x = none ↔ x = 0#8 := by
  simp only [highestPri8, List.find?_eq_none, List.mem_range, Bool.not_eq_true]
  constructor
  · intro h
    exact BitVec.eq_of_getLsbD_eq fun i hi => by simpa using h i hi
  · rintro rfl; simp

/-- `highestPri8` answers a bit number. -/
theorem highestPri8_lt {x : Byte} {i : Nat} (h : highestPri8 x = some i) : i < 8 := (highestPri8_eq_some.mp h).2.1

/-- `highestBelow` finds the largest set index below its bound. -/
theorem highestBelow_eq_some {w : Nat} {x : BitVec w} {n i : Nat} :
    highestBelow x n = some i ↔ i < n ∧ x.getLsbD i = true ∧ ∀ j, i < j → j < n → x.getLsbD j = false := by
  induction n with
  | zero => simp [highestBelow]
  | succ n ih =>
    unfold highestBelow
    split
    · next h =>
      constructor
      · intro e
        obtain rfl : n = i := by simpa using e
        exact ⟨by omega, h, fun j _ _ => by omega⟩
      · rintro ⟨hi, hx, hj⟩
        by_cases e : n = i
        · simp [e]
        · have := hj n (by omega) (by omega)
          simp [h] at this
    · next h =>
      rw [ih]
      constructor
      · rintro ⟨hi, hx, hj⟩
        refine ⟨by omega, hx, fun j h1 h2 => ?_⟩
        by_cases e : j = n
        · simpa [e] using h
        · exact hj j h1 (by omega)
      · rintro ⟨hi, hx, hj⟩
        have e : i ≠ n := by rintro rfl; exact h hx
        exact ⟨by omega, hx, fun j h1 h2 => hj j h1 (by omega)⟩

/-- `highestBelow` finds nothing exactly when no bit below its bound is set. -/
theorem highestBelow_eq_none {w : Nat} {x : BitVec w} {n : Nat} :
    highestBelow x n = none ↔ ∀ j < n, x.getLsbD j = false := by
  induction n with
  | zero => simp [highestBelow]
  | succ n ih =>
    unfold highestBelow
    split
    · next h => simp only [reduceCtorEq, false_iff]; intro hj; simp [hj n (by omega)] at h
    · next h =>
      rw [ih]
      constructor
      · intro hj j h1
        by_cases e : j = n
        · simpa [e] using h
        · exact hj j (by omega)
      · intro hj j h1; exact hj j (by omega)

/-- `highestVec` finds the largest vector of the set. -/
theorem highestVec_eq_some {x : VectorSet} {v : Byte} :
    highestVec x = some v ↔ x.getLsbD v.toNat = true ∧ ∀ w, v.toNat < w → x.getLsbD w = false := by
  simp only [highestVec, Option.map_eq_some_iff, highestBelow_eq_some]
  constructor
  · rintro ⟨i, ⟨hi, hx, hj⟩, rfl⟩
    have e : (BitVec.ofNat 8 i).toNat = i := by simpa using hi
    rw [e]
    refine ⟨hx, fun w hw => ?_⟩
    by_cases h : w < 256
    · exact hj w hw h
    · exact BitVec.getLsbD_of_ge x w (by omega)
  · rintro ⟨hx, hj⟩
    exact ⟨v.toNat, ⟨v.isLt, hx, fun j h _ => hj j h⟩, by simp⟩

/-- `highestVec` finds nothing exactly in the empty set. -/
theorem highestVec_eq_none {x : VectorSet} : highestVec x = none ↔ x = 0#256 := by
  simp only [highestVec, Option.map_eq_none_iff, highestBelow_eq_none]
  constructor
  · intro h
    exact BitVec.eq_of_getLsbD_eq fun i hi => by simpa using h i hi
  · rintro rfl; simp

/-- The bits of a word written as two halves. -/
theorem getLsbD_halves (a b : Word32) (i : Nat) :
    (a ++ b : Word64).getLsbD i = if i < 32 then b.getLsbD i else a.getLsbD (i - 32) :=
  BitVec.getLsbD_append (x := a) (y := b) (i := i)

/-- The bits of the low half. -/
theorem getLsbD_loHalf (w : Word64) (i : Nat) : (loHalf w).getLsbD i = (decide (i < 32) && w.getLsbD i) := by
  simp [loHalf, BitVec.getLsbD_extractLsb']

/-- The bits of the high half. -/
theorem getLsbD_hiHalf (w : Word64) (i : Nat) : (hiHalf w).getLsbD i = (decide (i < 32) && w.getLsbD (32 + i)) := by
  simp [hiHalf, BitVec.getLsbD_extractLsb']

/-- The two halves of a word make the word. -/
theorem hiHalf_append_loHalf (w : Word64) : hiHalf w ++ loHalf w = w :=
  BitVec.eq_of_getLsbD_eq fun i hi => by
    rw [getLsbD_halves, getLsbD_loHalf, getLsbD_hiHalf]
    grind

/-- Replacing the low half keeps the high half. -/
theorem setLoHalf_eq (w : Word64) (v : Word32) : setLoHalf w v = hiHalf w ++ v := rfl

/-- Replacing the high half keeps the low half. -/
theorem setHiHalf_eq (w : Word64) (v : Word32) : setHiHalf w v = v ++ loHalf w := rfl

/-- The high half of a word written as two halves. -/
@[simp] theorem hiHalf_append (a b : Word32) : hiHalf (a ++ b) = a :=
  BitVec.eq_of_getLsbD_eq fun i hi => by
    rw [getLsbD_hiHalf, getLsbD_halves]
    grind

/-- The low half of a word written as two halves. -/
@[simp] theorem loHalf_append (a b : Word32) : loHalf (a ++ b) = b :=
  BitVec.eq_of_getLsbD_eq fun i hi => by
    rw [getLsbD_loHalf, getLsbD_halves]
    grind

end Sys2Proof.Machine
end

