-- ==== Sys2Proof/Laws/Encoding.lean ====
section
/-!
SUPPORT. The bits of encoded words and the addresses of the ports and registers.
-/

namespace Sys2Proof.Machine

/-- The bits of a request word, field by field. -/
theorem getLsbD_packRequest (op : Opcode) (a b c d : Byte) (i : Nat) :
    (packRequest op a b c d).getLsbD i =
      if i < 8 then op.code.getLsbD i else if i < 16 then a.getLsbD (i - 8) else if i < 24 then b.getLsbD (i - 16)
      else if i < 32 then c.getLsbD (i - 24) else d.getLsbD (i - 32) := by
  have h1 := BitVec.getLsbD_append (x := 0#24 ++ d ++ c ++ b ++ a) (y := op.code) (i := i)
  have h2 := BitVec.getLsbD_append (x := 0#24 ++ d ++ c ++ b) (y := a) (i := i - 8)
  have h3 := BitVec.getLsbD_append (x := 0#24 ++ d ++ c) (y := b) (i := i - 8 - 8)
  have h4 := BitVec.getLsbD_append (x := 0#24 ++ d) (y := c) (i := i - 8 - 8 - 8)
  have h5 := BitVec.getLsbD_append (x := 0#24) (y := d) (i := i - 8 - 8 - 8 - 8)
  have h0 : (packRequest op a b c d).getLsbD i = (0#24 ++ d ++ c ++ b ++ a ++ op.code).getLsbD i := rfl
  rw [h0, h1, h2, h3, h4, h5]
  grind

/-- The OP byte of a request word. -/
@[simp] theorem opByte_packRequest (op : Opcode) (a b c d : Byte) :
    (packRequest op a b c d).extractLsb' 0 8 = op.code :=
  BitVec.eq_of_getLsbD_eq fun i hi => by simp only [BitVec.getLsbD_extractLsb', getLsbD_packRequest]; grind

/-- Field A of a request word. -/
@[simp] theorem fieldA_packRequest (op : Opcode) (a b c d : Byte) : fieldA (packRequest op a b c d) = a :=
  BitVec.eq_of_getLsbD_eq fun i hi => by simp only [fieldA, BitVec.getLsbD_extractLsb', getLsbD_packRequest]; grind

/-- Field B of a request word. -/
@[simp] theorem fieldB_packRequest (op : Opcode) (a b c d : Byte) : fieldB (packRequest op a b c d) = b :=
  BitVec.eq_of_getLsbD_eq fun i hi => by simp only [fieldB, BitVec.getLsbD_extractLsb', getLsbD_packRequest]; grind

/-- Field C of a request word. -/
@[simp] theorem fieldC_packRequest (op : Opcode) (a b c d : Byte) : fieldC (packRequest op a b c d) = c :=
  BitVec.eq_of_getLsbD_eq fun i hi => by simp only [fieldC, BitVec.getLsbD_extractLsb', getLsbD_packRequest]; grind

/-- Field D of a request word. -/
@[simp] theorem fieldD_packRequest (op : Opcode) (a b c d : Byte) : fieldD (packRequest op a b c d) = d :=
  BitVec.eq_of_getLsbD_eq fun i hi => by simp only [fieldD, BitVec.getLsbD_extractLsb', getLsbD_packRequest]; grind

/-- An OP byte names its operation. -/
@[simp] theorem Opcode_ofByte_code (op : Opcode) : Opcode.ofByte op.code = some op := by cases op <;> rfl

/-- The operation an OP byte names has that byte. -/
theorem Opcode_code_of_ofByte {b : Byte} {op : Opcode} (h : Opcode.ofByte b = some op) : op.code = b := by
  revert b op; decide

/-- R72: whether bit `i` of a word of the operation may be set, by the widths of its operands. -/
def freeBit (op : Opcode) (i : Nat) : Bool :=
  match op with
  | .picInit | .picWriteMasks => decide (8 ≤ i ∧ i < 24)
  | .picMask | .picUnmask | .picEoi | .lapicEnable => decide (8 ≤ i ∧ i < 16)
  | .ioapicWriteEntry => decide (8 ≤ i ∧ i < 40 ∧ i ≠ 30 ∧ i ≠ 31)
  | .ioapicSetMask => decide (8 ≤ i ∧ i < 17)
  | .picReadMasks | .picUnmaskAll | .lapicEoi => false

/-- The bits of an operation's operand mask. -/
theorem getLsbD_freeMask (op : Opcode) (i : Nat) : op.freeMask.getLsbD i = freeBit op i := by
  by_cases h : i < 64
  · have : ∀ i : Fin 64, op.freeMask.getLsbD i = freeBit op i := by cases op <;> decide
    exact this ⟨i, h⟩
  · rw [BitVec.getLsbD_of_ge _ _ (by omega)]
    cases op <;> simp [freeBit] <;> omega

/-- The bits of the OP byte's place. -/
theorem getLsbD_opPlace (i : Nat) : (0xFF#64).getLsbD i = decide (i < 8) := by
  by_cases h : i < 64
  · have : ∀ i : Fin 64, (0xFF#64).getLsbD i = decide (i.val < 8) := by decide
    exact this ⟨i, h⟩
  · rw [BitVec.getLsbD_of_ge _ _ (by omega)]
    simp; omega

/-- R72's must-be-zero check, bit by bit. -/
theorem mustBeZeroClear_iff (op : Opcode) (w : Word64) :
    mustBeZeroClear op w = true ↔ ∀ i, 8 ≤ i → i < 64 → freeBit op i = false → w.getLsbD i = false := by
  simp only [mustBeZeroClear, beq_iff_eq]
  constructor
  · intro h i h1 h2 h3
    have := congrArg (fun x : Word64 => x.getLsbD i) h
    simp only [BitVec.getLsbD_and, BitVec.getLsbD_not, getLsbD_freeMask, getLsbD_opPlace, BitVec.getLsbD_zero] at this
    grind
  · intro h
    refine BitVec.eq_of_getLsbD_eq fun i hi => ?_
    have := h i
    simp only [BitVec.getLsbD_and, BitVec.getLsbD_not, getLsbD_freeMask, getLsbD_opPlace]
    grind

/-- What the C field of IOAPIC_WRITE_ENTRY holds. -/
theorem packModes_fields (dm : DeliveryMode) (dsm : DestMode) (pol : Polarity) (trg : TriggerMode) :
    let c := packModes dm dsm pol trg
    DeliveryMode.ofCode (c.extractLsb' 0 3) = some dm ∧ c.getLsbD 3 = dsm.bit ∧ c.getLsbD 4 = pol.bit ∧
      c.getLsbD 5 = trg.bit ∧ c.getLsbD 6 = false ∧ c.getLsbD 7 = false := by
  cases dm <;> cases dsm <;> cases pol <;> cases trg <;> decide

/-- R86: an even index selects a low half. -/
theorem indexTarget_lo {i : Byte} {n : Nat} (h : i.toNat = 0x10 + 2 * n) : indexTarget i = some (n, .lo) := by
  simp only [indexTarget, h, BitVec.getLsbD, Nat.testBit_zero]; grind

/-- R86: an odd index selects a high half. -/
theorem indexTarget_hi {i : Byte} {n : Nat} (h : i.toNat = 0x11 + 2 * n) : indexTarget i = some (n, .hi) := by
  simp only [indexTarget, h, BitVec.getLsbD, Nat.testBit_zero]; grind

/-- The index of a low half as a number. -/
theorem loIndex_toNat {n : Nat} (h : n < 120) : (loIndex n).toNat = 0x10 + 2 * n := by simp [loIndex]; omega

/-- The index of a high half as a number. -/
theorem hiIndex_toNat {n : Nat} (h : n < 120) : (hiIndex n).toNat = 0x11 + 2 * n := by simp [hiIndex]; omega

/-- The bits of the low half that R85 packs. -/
theorem getLsbD_packLo (vec : Byte) (dm : BitVec 3) (dsm pol trg m : Bool) (j : Nat) :
    (packLo vec dm dsm pol trg m).getLsbD j =
      if j < 8 then vec.getLsbD j else if j < 11 then dm.getLsbD (j - 8) else if j = 11 then dsm
      else if j = 13 then pol else if j = 15 then trg else if j = 16 then m else false := by
  simp only [packLo, BitVec.getLsbD_or, BitVec.getLsbD_shiftLeft, BitVec.getLsbD_setWidth, BitVec.getLsbD_ofBool]
  have := BitVec.getLsbD_of_ge vec j
  have := BitVec.getLsbD_of_ge dm (j - 8)
  grind

/-- The bits of the high half that R85 packs. -/
theorem getLsbD_packHi (dest : Byte) (j : Nat) :
    (packHi dest).getLsbD j = (decide (24 ≤ j) && dest.getLsbD (j - 24)) := by
  simp only [packHi, BitVec.getLsbD_shiftLeft, BitVec.getLsbD_setWidth]
  have := BitVec.getLsbD_of_ge dest (j - 24)
  grind

/-- A port's address reaches that port. -/
@[simp] theorem portTarget_portAddr (c : Chip) (p : PicPort) : portTarget (portAddr c p) = some (c, p) := by
  cases c <;> cases p <;> rfl

/-- An address that reaches a port is that port's. -/
theorem portAddr_of_portTarget {a : Port} {c : Chip} {p : PicPort} (h : portTarget a = some (c, p)) :
    a = portAddr c p := by
  unfold portTarget at h
  grind [portAddr]

/-- What a valid instance says of its numbers. -/
theorem validConfig_facts {cfg : Config} (h : validConfig cfg = true) :
    1 ≤ cfg.nRedir ∧ cfg.nRedir ≤ 120 ∧ cfg.ioapicBase.toNat % 32 = 0 ∧ cfg.lapicBase.toNat % 4096 = 0 ∧
      cfg.ioapicBase.toNat / 4096 ≠ cfg.lapicBase.toNat / 4096 := by
  simp only [validConfig, Bool.and_eq_true, decide_eq_true_eq, beq_iff_eq, bne_iff_ne, ne_eq,
    ← BitVec.toNat_inj, BitVec.extractLsb'_toNat, BitVec.toNat_ofNat, Nat.shiftRight_eq_div_pow] at h
  obtain ⟨⟨⟨⟨h1, h2⟩, h3⟩, h4⟩, h5⟩ := h
  refine ⟨h1, h2, ?_, ?_, ?_⟩ <;> omega

/-- On a valid instance a register's address reaches that register. -/
theorem regTarget_regAddr {cfg : Config} (h : validConfig cfg = true) (r : MmioReg) :
    regTarget cfg (regAddr cfg r) = some r := by
  obtain ⟨-, -, h3, h4, h5⟩ := validConfig_facts h
  have := cfg.ioapicBase.isLt
  have := cfg.lapicBase.isLt
  cases r <;>
    simp only [regTarget, regAddr, ← BitVec.toNat_inj, BitVec.toNat_add, BitVec.toNat_ofNat] <;>
    grind

/-- On a valid instance every register is aligned. -/
theorem regAddr_aligned {cfg : Config} (h : validConfig cfg = true) (r : MmioReg) :
    (regAddr cfg r).extractLsb' 0 2 = 0#2 := by
  obtain ⟨-, -, h3, h4, h5⟩ := validConfig_facts h
  cases r <;>
    simp only [regAddr, ← BitVec.toNat_inj, BitVec.toNat_add, BitVec.extractLsb'_toNat, BitVec.toNat_ofNat, Nat.shiftRight_zero] <;>
    omega

end Sys2Proof.Machine
end

