-- ==== Sys2Proof/Laws/State.lean ====
section
/-!
SUPPORT. One lemma per field per named update of the state, so that no later proof unfolds an update.
-/

namespace Sys2Proof.Machine

/-! ### State.markRefused -/

@[simp] theorem State_markRefused_cfg (s : State) (r : Refusal) : (s.markRefused r).cfg = s.cfg := rfl
@[simp] theorem State_markRefused_seq (s : State) (r : Refusal) : (s.markRefused r).seq = s.seq := rfl
@[simp] theorem State_markRefused_picM (s : State) (r : Refusal) : (s.markRefused r).picM = s.picM := rfl
@[simp] theorem State_markRefused_picS (s : State) (r : Refusal) : (s.markRefused r).picS = s.picS := rfl
@[simp] theorem State_markRefused_ioapic (s : State) (r : Refusal) : (s.markRefused r).ioapic = s.ioapic := rfl
@[simp] theorem State_markRefused_lapic (s : State) (r : Refusal) : (s.markRefused r).lapic = s.lapic := rfl
@[simp] theorem State_markRefused_env (s : State) (r : Refusal) : (s.markRefused r).env = s.env := rfl
@[simp] theorem State_markRefused_hist (s : State) (r : Refusal) : (s.markRefused r).hist = s.hist := rfl
@[simp] theorem State_markRefused_inputs (s : State) (r : Refusal) : (s.markRefused r).inputs = s.inputs := rfl
@[simp] theorem State_markRefused_draws (s : State) (r : Refusal) : (s.markRefused r).draws = s.draws := rfl
@[simp] theorem State_markRefused_refused (s : State) (r : Refusal) : (s.markRefused r).refused = some r := rfl

/-! ### State.log -/

@[simp] theorem State_log_cfg (s : State) (e : Event) : (s.log e).cfg = s.cfg := rfl
@[simp] theorem State_log_seq (s : State) (e : Event) : (s.log e).seq = s.seq := rfl
@[simp] theorem State_log_picM (s : State) (e : Event) : (s.log e).picM = s.picM := rfl
@[simp] theorem State_log_picS (s : State) (e : Event) : (s.log e).picS = s.picS := rfl
@[simp] theorem State_log_ioapic (s : State) (e : Event) : (s.log e).ioapic = s.ioapic := rfl
@[simp] theorem State_log_lapic (s : State) (e : Event) : (s.log e).lapic = s.lapic := rfl
@[simp] theorem State_log_env (s : State) (e : Event) : (s.log e).env = s.env := rfl
@[simp] theorem State_log_refused (s : State) (e : Event) : (s.log e).refused = s.refused := rfl
@[simp] theorem State_log_inputs (s : State) (e : Event) : (s.log e).inputs = s.inputs := rfl
@[simp] theorem State_log_draws (s : State) (e : Event) : (s.log e).draws = s.draws := rfl
@[simp] theorem State_log_hist (s : State) (e : Event) : (s.log e).hist = s.hist ++ [e] := rfl

/-! ### State.deliver -/

@[simp] theorem State_deliver_cfg (s : State) (x : VecSource) (v : Byte) : (s.deliver x v).cfg = s.cfg := rfl
@[simp] theorem State_deliver_seq (s : State) (x : VecSource) (v : Byte) : (s.deliver x v).seq = s.seq := rfl
@[simp] theorem State_deliver_picM (s : State) (x : VecSource) (v : Byte) : (s.deliver x v).picM = s.picM := rfl
@[simp] theorem State_deliver_picS (s : State) (x : VecSource) (v : Byte) : (s.deliver x v).picS = s.picS := rfl
@[simp] theorem State_deliver_ioapic (s : State) (x : VecSource) (v : Byte) : (s.deliver x v).ioapic = s.ioapic := rfl
@[simp] theorem State_deliver_lapic (s : State) (x : VecSource) (v : Byte) : (s.deliver x v).lapic = s.lapic := rfl
@[simp] theorem State_deliver_env (s : State) (x : VecSource) (v : Byte) : (s.deliver x v).env = s.env := rfl
@[simp] theorem State_deliver_refused (s : State) (x : VecSource) (v : Byte) : (s.deliver x v).refused = s.refused := rfl
@[simp] theorem State_deliver_inputs (s : State) (x : VecSource) (v : Byte) : (s.deliver x v).inputs = s.inputs := rfl
@[simp] theorem State_deliver_draws (s : State) (x : VecSource) (v : Byte) : (s.deliver x v).draws = s.draws := rfl
@[simp] theorem State_deliver_hist (s : State) (x : VecSource) (v : Byte) : (s.deliver x v).hist = s.hist ++ [.vec x v] := rfl

/-! ### State.setPic -/

@[simp] theorem State_setPic_cfg (s : State) (c : Chip) (p : Pic) : (s.setPic c p).cfg = s.cfg := by cases c <;> rfl
@[simp] theorem State_setPic_seq (s : State) (c : Chip) (p : Pic) : (s.setPic c p).seq = s.seq := by cases c <;> rfl
@[simp] theorem State_setPic_ioapic (s : State) (c : Chip) (p : Pic) : (s.setPic c p).ioapic = s.ioapic := by cases c <;> rfl
@[simp] theorem State_setPic_lapic (s : State) (c : Chip) (p : Pic) : (s.setPic c p).lapic = s.lapic := by cases c <;> rfl
@[simp] theorem State_setPic_env (s : State) (c : Chip) (p : Pic) : (s.setPic c p).env = s.env := by cases c <;> rfl
@[simp] theorem State_setPic_hist (s : State) (c : Chip) (p : Pic) : (s.setPic c p).hist = s.hist := by cases c <;> rfl
@[simp] theorem State_setPic_refused (s : State) (c : Chip) (p : Pic) : (s.setPic c p).refused = s.refused := by cases c <;> rfl
@[simp] theorem State_setPic_inputs (s : State) (c : Chip) (p : Pic) : (s.setPic c p).inputs = s.inputs := by cases c <;> rfl
@[simp] theorem State_setPic_draws (s : State) (c : Chip) (p : Pic) : (s.setPic c p).draws = s.draws := by cases c <;> rfl
@[simp] theorem State_setPic_master (s : State) (p : Pic) : s.setPic .master p = { s with picM := p } := rfl
@[simp] theorem State_setPic_slave (s : State) (p : Pic) : s.setPic .slave p = { s with picS := p } := rfl
@[simp] theorem State_pic_master (s : State) : s.pic .master = s.picM := rfl
@[simp] theorem State_pic_slave (s : State) : s.pic .slave = s.picS := rfl
@[simp] theorem State_pic_setPic (s : State) (c : Chip) (p : Pic) : (s.setPic c p).pic c = p := by cases c <;> rfl
theorem State_pic_setPic_ne (s : State) {c d : Chip} (h : d ≠ c) (p : Pic) : (s.setPic c p).pic d = s.pic d := by
  cases c <;> cases d <;> first | rfl | exact absurd rfl h

/-! ### State.setEntry -/

@[simp] theorem State_setEntry_cfg (s : State) (n : Nat) (e : Entry) : (s.setEntry n e).cfg = s.cfg := rfl
@[simp] theorem State_setEntry_seq (s : State) (n : Nat) (e : Entry) : (s.setEntry n e).seq = s.seq := rfl
@[simp] theorem State_setEntry_picM (s : State) (n : Nat) (e : Entry) : (s.setEntry n e).picM = s.picM := rfl
@[simp] theorem State_setEntry_picS (s : State) (n : Nat) (e : Entry) : (s.setEntry n e).picS = s.picS := rfl
@[simp] theorem State_setEntry_lapic (s : State) (n : Nat) (e : Entry) : (s.setEntry n e).lapic = s.lapic := rfl
@[simp] theorem State_setEntry_env (s : State) (n : Nat) (e : Entry) : (s.setEntry n e).env = s.env := rfl
@[simp] theorem State_setEntry_hist (s : State) (n : Nat) (e : Entry) : (s.setEntry n e).hist = s.hist := rfl
@[simp] theorem State_setEntry_refused (s : State) (n : Nat) (e : Entry) : (s.setEntry n e).refused = s.refused := rfl
@[simp] theorem State_setEntry_inputs (s : State) (n : Nat) (e : Entry) : (s.setEntry n e).inputs = s.inputs := rfl
@[simp] theorem State_setEntry_draws (s : State) (n : Nat) (e : Entry) : (s.setEntry n e).draws = s.draws := rfl
@[simp] theorem State_setEntry_ioregsel (s : State) (n : Nat) (e : Entry) :
    (s.setEntry n e).ioapic.ioregsel = s.ioapic.ioregsel := rfl
@[simp] theorem State_setEntry_entries (s : State) (n : Nat) (e : Entry) :
    (s.setEntry n e).ioapic.entries = s.ioapic.entries.set n e := rfl

/-! ### State.setDst -/

@[simp] theorem State_setDst_cfg (s : State) (d : Dst) (v : Word32) : (s.setDst d v).cfg = s.cfg := by cases d <;> rfl
@[simp] theorem State_setDst_picM (s : State) (d : Dst) (v : Word32) : (s.setDst d v).picM = s.picM := by cases d <;> rfl
@[simp] theorem State_setDst_picS (s : State) (d : Dst) (v : Word32) : (s.setDst d v).picS = s.picS := by cases d <;> rfl
@[simp] theorem State_setDst_ioapic (s : State) (d : Dst) (v : Word32) : (s.setDst d v).ioapic = s.ioapic := by cases d <;> rfl
@[simp] theorem State_setDst_lapic (s : State) (d : Dst) (v : Word32) : (s.setDst d v).lapic = s.lapic := by cases d <;> rfl
@[simp] theorem State_setDst_env (s : State) (d : Dst) (v : Word32) : (s.setDst d v).env = s.env := by cases d <;> rfl
@[simp] theorem State_setDst_hist (s : State) (d : Dst) (v : Word32) : (s.setDst d v).hist = s.hist := by cases d <;> rfl
@[simp] theorem State_setDst_refused (s : State) (d : Dst) (v : Word32) : (s.setDst d v).refused = s.refused := by cases d <;> rfl
@[simp] theorem State_setDst_inputs (s : State) (d : Dst) (v : Word32) : (s.setDst d v).inputs = s.inputs := by cases d <;> rfl
@[simp] theorem State_setDst_draws (s : State) (d : Dst) (v : Word32) : (s.setDst d v).draws = s.draws := by cases d <;> rfl
@[simp] theorem State_setDst_phase (s : State) (d : Dst) (v : Word32) : (s.setDst d v).seq.phase = s.seq.phase := by
  cases d <;> rfl
@[simp] theorem State_setDst_req (s : State) (d : Dst) (v : Word32) : (s.setDst d v).seq.req = s.seq.req := by
  cases d <;> rfl
@[simp] theorem State_setDst_upc (s : State) (d : Dst) (v : Word32) : (s.setDst d v).seq.upc = s.seq.upc := by
  cases d <;> rfl
@[simp] theorem State_setDst_fault (s : State) (d : Dst) (v : Word32) : (s.setDst d v).seq.fault = s.seq.fault := by
  cases d <;> rfl

/-! ### State.advance -/

@[simp] theorem State_advance_cfg (s : State) (n : Nat) : (s.advance n).cfg = s.cfg := by unfold State.advance; split <;> rfl
@[simp] theorem State_advance_picM (s : State) (n : Nat) : (s.advance n).picM = s.picM := by unfold State.advance; split <;> rfl
@[simp] theorem State_advance_picS (s : State) (n : Nat) : (s.advance n).picS = s.picS := by unfold State.advance; split <;> rfl
@[simp] theorem State_advance_ioapic (s : State) (n : Nat) : (s.advance n).ioapic = s.ioapic := by unfold State.advance; split <;> rfl
@[simp] theorem State_advance_lapic (s : State) (n : Nat) : (s.advance n).lapic = s.lapic := by unfold State.advance; split <;> rfl
@[simp] theorem State_advance_env (s : State) (n : Nat) : (s.advance n).env = s.env := by unfold State.advance; split <;> rfl
@[simp] theorem State_advance_hist (s : State) (n : Nat) : (s.advance n).hist = s.hist := by unfold State.advance; split <;> rfl
@[simp] theorem State_advance_refused (s : State) (n : Nat) : (s.advance n).refused = s.refused := by unfold State.advance; split <;> rfl
@[simp] theorem State_advance_inputs (s : State) (n : Nat) : (s.advance n).inputs = s.inputs := by unfold State.advance; split <;> rfl
@[simp] theorem State_advance_draws (s : State) (n : Nat) : (s.advance n).draws = s.draws := by unfold State.advance; split <;> rfl
@[simp] theorem State_advance_req (s : State) (n : Nat) : (s.advance n).seq.req = s.seq.req := by
  unfold State.advance; split <;> rfl
@[simp] theorem State_advance_t (s : State) (n : Nat) : (s.advance n).seq.t = s.seq.t := by
  unfold State.advance; split <;> rfl
@[simp] theorem State_advance_res (s : State) (n : Nat) : (s.advance n).seq.res = s.seq.res := by
  unfold State.advance; split <;> rfl
@[simp] theorem State_advance_fault (s : State) (n : Nat) : (s.advance n).seq.fault = s.seq.fault := by
  unfold State.advance; split <;> rfl

/-! ### State.latched -/

@[simp] theorem State_latched_cfg (s : State) : (s.latched).cfg = s.cfg := by unfold State.latched; split <;> rfl
@[simp] theorem State_latched_seq (s : State) : (s.latched).seq = s.seq := by unfold State.latched; split <;> rfl
@[simp] theorem State_latched_picM (s : State) : (s.latched).picM = s.picM := by unfold State.latched; split <;> rfl
@[simp] theorem State_latched_picS (s : State) : (s.latched).picS = s.picS := by unfold State.latched; split <;> rfl
@[simp] theorem State_latched_ioapic (s : State) : (s.latched).ioapic = s.ioapic := by unfold State.latched; split <;> rfl
@[simp] theorem State_latched_lapic (s : State) : (s.latched).lapic = s.lapic := by unfold State.latched; split <;> rfl
@[simp] theorem State_latched_hist (s : State) : (s.latched).hist = s.hist := by unfold State.latched; split <;> rfl
@[simp] theorem State_latched_refused (s : State) : (s.latched).refused = s.refused := by unfold State.latched; split <;> rfl
@[simp] theorem State_latched_inputs (s : State) : (s.latched).inputs = s.inputs := by unfold State.latched; split <;> rfl
@[simp] theorem State_latched_draws (s : State) : (s.latched).draws = s.draws := by unfold State.latched; split <;> rfl
@[simp] theorem State_latched_pin (s : State) : s.latched.env.pin = s.env.pin := by
  unfold State.latched; split <;> rfl
theorem State_latched_pic (s : State) (h : s.cfg.family = .pic) :
    s.latched = { s with env := { s.env with picIntLatch := s.env.picIntLatch || s.intM } } := by
  simp [State.latched, h]
theorem State_latched_apic (s : State) (h : s.cfg.family = .apic) :
    s.latched = { s with env := { s.env with lapicIntLatch := s.env.lapicIntLatch || s.lapic.intr } } := by
  simp [State.latched, h]
@[simp] theorem State_latched_intM (s : State) : s.latched.intM = s.intM := by
  unfold State.latched; split <;> rfl

/-! ### State.takeLapicEoi -/

@[simp] theorem State_takeLapicEoi_cfg (s : State) : (s.takeLapicEoi).cfg = s.cfg := by unfold State.takeLapicEoi; split <;> rfl
@[simp] theorem State_takeLapicEoi_seq (s : State) : (s.takeLapicEoi).seq = s.seq := by unfold State.takeLapicEoi; split <;> rfl
@[simp] theorem State_takeLapicEoi_picM (s : State) : (s.takeLapicEoi).picM = s.picM := by unfold State.takeLapicEoi; split <;> rfl
@[simp] theorem State_takeLapicEoi_picS (s : State) : (s.takeLapicEoi).picS = s.picS := by unfold State.takeLapicEoi; split <;> rfl
@[simp] theorem State_takeLapicEoi_env (s : State) : (s.takeLapicEoi).env = s.env := by unfold State.takeLapicEoi; split <;> rfl
@[simp] theorem State_takeLapicEoi_hist (s : State) : (s.takeLapicEoi).hist = s.hist := by unfold State.takeLapicEoi; split <;> rfl
@[simp] theorem State_takeLapicEoi_refused (s : State) : (s.takeLapicEoi).refused = s.refused := by unfold State.takeLapicEoi; split <;> rfl
@[simp] theorem State_takeLapicEoi_inputs (s : State) : (s.takeLapicEoi).inputs = s.inputs := by unfold State.takeLapicEoi; split <;> rfl
@[simp] theorem State_takeLapicEoi_draws (s : State) : (s.takeLapicEoi).draws = s.draws := by unfold State.takeLapicEoi; split <;> rfl
@[simp] theorem State_takeLapicEoi_ioregsel (s : State) : s.takeLapicEoi.ioapic.ioregsel = s.ioapic.ioregsel := by
  unfold State.takeLapicEoi; split <;> rfl
@[simp] theorem State_takeLapicEoi_svr (s : State) : s.takeLapicEoi.lapic.svr = s.lapic.svr := by
  unfold State.takeLapicEoi; split <;> rfl
@[simp] theorem State_takeLapicEoi_tpr (s : State) : s.takeLapicEoi.lapic.tpr = s.lapic.tpr := by
  unfold State.takeLapicEoi; split <;> rfl

end Sys2Proof.Machine
end

