-- ==== Sys2Proof/Laws/Ops.lean ====
section
/-!
SUPPORT. For each shared operation, what it can answer: one lemma each, which later proofs cite instead of unfolding it.
-/

namespace Sys2Proof.Machine

/-! ### How a step ends -/

/-- A step that reached a state ends in it, latched. -/
@[simp] theorem finish_ok (s t : State) : finish s (.ok t) = .next t.latched := rfl

/-- A step that refuses ends in the marked state it started from. -/
@[simp] theorem finish_error (s : State) (r : Refusal) : finish s (.error r) = .next (s.markRefused r) := rfl

/-- The two ways a step ends. -/
theorem finish_eq_next {s t : State} {x : Except Refusal State} :
    finish s x = .next t ↔ (∃ u, x = .ok u ∧ t = u.latched) ∨ ∃ r, x = .error r ∧ t = s.markRefused r := by
  cases x <;> simp [eq_comm]

/-- A step that ends has a next state. -/
theorem finish_total (s : State) (x : Except Refusal State) : ∃ t, finish s x = .next t := by cases x <;> simp

/-! ### What a bus transaction leaves alone -/

/-- What every bus transaction, on any device, keeps of the state and adds to the history. -/
structure Transacted (s t : State) : Prop where
  cfg : t.cfg = s.cfg
  env : t.env = s.env
  refused : t.refused = s.refused
  inputs : t.inputs = s.inputs
  phase : t.seq.phase = s.seq.phase
  req : t.seq.req = s.seq.req
  upc : t.seq.upc = s.seq.upc
  fault : t.seq.fault = s.seq.fault
  hist : ∃ e, t.hist = s.hist ++ [e]
  ofPic : s.cfg.family = .pic → t.ioapic = s.ioapic ∧ t.lapic = s.lapic
  ofApic : s.cfg.family = .apic → t.picM = s.picM ∧ t.picS = s.picS
  length : t.ioapic.entries.length = s.ioapic.entries.length
  readOnly : (∀ e ∈ s.ioapic.entries, e.word.getLsbD 12 = false ∧ e.word.getLsbD 14 = false) →
    ∀ e ∈ t.ioapic.entries, e.word.getLsbD 12 = false ∧ e.word.getLsbD 14 = false

/-- What chip `c` does with a byte it takes: its own registers change. -/
theorem picRespond_ok {k : PicKind} {c : Chip} {v : Byte} {s t : State} (h : picRespond k c v s = .ok t) :
    ∃ p, t = s.setPic c p := by
  cases k <;> simp only [picRespond] at h <;> grind

/-- An 8259 write: the family is PIC, one chip's registers change, and the transaction enters the history. -/
theorem picTransaction_ok {k : PicKind} {c : Chip} {v : Byte} {s t : State} (h : picTransaction k c v s = .ok t) :
    s.cfg.family = .pic ∧ ∃ p, picRespond k c v s = .ok (s.setPic c p) ∧
      t = (s.setPic c p).log (evIow (portAddr c (kindPort k)) v) := by
  unfold picTransaction at h
  split at h
  next hf =>
    cases hr : picRespond k c v s with
    | error e => simp [hr, Except.map] at h
    | ok u =>
      obtain ⟨p, rfl⟩ := picRespond_ok hr
      refine ⟨hf, p, rfl, ?_⟩
      simp only [hr, Except.map, Except.ok.injEq] at h
      exact h.symm
  next => cases h

/-- The frame of an 8259 write. -/
theorem picTransaction_transacted {k : PicKind} {c : Chip} {v : Byte} {s t : State}
    (h : picTransaction k c v s = .ok t) : Transacted s t ∧ t.seq = s.seq := by
  obtain ⟨hf, p, -, rfl⟩ := picTransaction_ok h
  exact ⟨⟨by simp, by simp, by simp, by simp, by simp, by simp, by simp, by simp, ⟨_, by simp; rfl⟩,
    fun _ => by simp, fun h => by simp [hf] at h, by simp, fun hr => by simpa using hr⟩, by simp⟩

/-- A write to a port, where one chip takes it. -/
theorem portWrite_portAddr (c : Chip) (p : PicPort) (v : Byte) (s : State) :
    portWrite (portAddr c p) v s = picTransaction (picKind p (s.pic c).step v) c v s := by
  cases c <;> cases p <;> rfl

/-- The frame of a port write. -/
theorem portWrite_transacted {a : Port} {v : Byte} {s t : State} (h : portWrite a v s = .ok t) :
    Transacted s t ∧ t.seq = s.seq := by
  unfold portWrite at h
  split at h
  · cases h
  · exact picTransaction_transacted h

/-- A port read: the family is PIC, and nothing but the history changes. -/
theorem portRead_ok {a : Port} {v : Byte} {s t : State} (h : portRead a s = .ok (v, t)) :
    s.cfg.family = .pic ∧ t = s.log (evIor a v) := by
  unfold portRead at h
  split at h
  · cases h
  · split at h
    next hf =>
      simp only [Except.ok.injEq, Prod.mk.injEq] at h
      obtain ⟨rfl, rfl⟩ := h
      exact ⟨hf, rfl⟩
    next => cases h

/-- Bits 12 and 14 of what is stored for a low half are 0. -/
theorem lowHalfStored_bits (v : Word32) (j : Nat) :
    (lowHalfStored v).getLsbD j = (v.getLsbD j && decide (j ≠ 12 ∧ j ≠ 14)) := by
  by_cases h : j < 32
  · have : ∀ i : Fin 32, (0x00005000#32).getLsbD i = decide (i.val = 12 ∨ i.val = 14) := by decide
    have := this ⟨j, h⟩
    simp only at this
    simp only [lowHalfStored, BitVec.getLsbD_and, BitVec.getLsbD_not, this]
    grind
  · rw [BitVec.getLsbD_of_ge _ _ (by omega), BitVec.getLsbD_of_ge v _ (by omega)]
    rfl

/-- The bits of a stored entry after a write of its low half. -/
theorem getLsbD_writtenWord_lo (e : Word64) (v : Word32) (j : Nat) :
    (writtenWord e .lo v).getLsbD j =
      if j < 32 then (v.getLsbD j && decide (j ≠ 12 ∧ j ≠ 14)) else e.getLsbD j := by
  simp only [writtenWord, setLoHalf_eq, getLsbD_halves, lowHalfStored_bits, getLsbD_hiHalf]
  have := BitVec.getLsbD_of_ge e j
  grind

/-- The bits of a stored entry after a write of its high half. -/
theorem getLsbD_writtenWord_hi (e : Word64) (v : Word32) (j : Nat) :
    (writtenWord e .hi v).getLsbD j = if j < 32 then e.getLsbD j else v.getLsbD (j - 32) := by
  simp only [writtenWord, setHiHalf_eq, getLsbD_halves, getLsbD_loHalf]
  grind

/-- Entry `n` of a table is one of its entries where it exists. -/
theorem redir_mem {a : Ioapic} {n : Nat} (h : n < a.entries.length) :
    ∃ e ∈ a.entries, e.word = a.redir n ∧ e.remoteIrr = a.remoteIrr n :=
  ⟨a.entries[n], List.getElem_mem h, by simp [Ioapic.redir, h], by simp [Ioapic.remoteIrr, h]⟩

/-- Entry `n` after it is replaced. -/
theorem redir_setEntry (s : State) (n m : Nat) (e : Entry) :
    (s.setEntry n e).ioapic.redir m =
      if m = n ∧ n < s.ioapic.entries.length then e.word else s.ioapic.redir m := by
  simp only [Ioapic.redir, State_setEntry_entries, List.getElem?_set]
  split
  · subst m; split <;> simp_all
  · rw [if_neg (by grind)]

/-- A data-window write inside the table replaces the entry's half and keeps its remote IRR. -/
theorem windowWrite_ok {n : Nat} {h : Half} {v : Word32} {s t : State} (e : windowWrite n h v s = .ok t) :
    n < s.cfg.nRedir ∧
      t = s.setEntry n { word := writtenWord (s.ioapic.redir n) h v, remoteIrr := s.ioapic.remoteIrr n } := by
  unfold windowWrite at e
  split at e
  next hn => exact ⟨hn, by simpa [eq_comm] using e⟩
  next => cases e

/-- Replacing an entry by one whose read-only bits are 0 keeps the read-only bits 0. -/
theorem setEntry_readOnly {s : State} {n : Nat} {e : Entry}
    (h : ∀ x ∈ s.ioapic.entries, x.word.getLsbD 12 = false ∧ x.word.getLsbD 14 = false)
    (he : n < s.ioapic.entries.length → e.word.getLsbD 12 = false ∧ e.word.getLsbD 14 = false) :
    ∀ x ∈ (s.setEntry n e).ioapic.entries, x.word.getLsbD 12 = false ∧ x.word.getLsbD 14 = false := by
  intro x hx
  rw [State_setEntry_entries] at hx
  by_cases hn : n < s.ioapic.entries.length
  · rcases List.mem_or_eq_of_mem_set hx with hx | rfl
    · exact h x hx
    · exact he hn
  · rw [List.set_eq_of_length_le (by omega)] at hx
    exact h x hx

/-- A stored entry's read-only bits are 0 after either half is written. -/
theorem writtenWord_readOnly {e : Word64} (v : Word32) (h : Half)
    (he : e.getLsbD 12 = false ∧ e.getLsbD 14 = false) :
    (writtenWord e h v).getLsbD 12 = false ∧ (writtenWord e h v).getLsbD 14 = false := by
  cases h
  · rw [getLsbD_writtenWord_lo, getLsbD_writtenWord_lo, if_pos (by omega), if_pos (by omega)]; grind
  · rw [getLsbD_writtenWord_hi, getLsbD_writtenWord_hi]; exact he

/-- The words of the table are kept by the EOI broadcast. -/
theorem broadcastEoi_words (x : Byte) (es : List Entry) : (broadcastEoi x es).map Entry.word = es.map Entry.word := by
  simp only [broadcastEoi, List.map_map]
  exact List.map_congr_left fun e _ => by simp only [Function.comp]; split <;> rfl

/-- The words of the table are kept by an EOI write. -/
theorem takeLapicEoi_words (s : State) :
    s.takeLapicEoi.ioapic.entries.map Entry.word = s.ioapic.entries.map Entry.word := by
  unfold State.takeLapicEoi
  split
  · rfl
  · simp only; split
    · exact broadcastEoi_words _ _
    · rfl

/-- A property of the words of a table is one of any table with the same words. -/
theorem forall_word_of_map_eq {P : Word64 → Prop} {es fs : List Entry} (h : es.map Entry.word = fs.map Entry.word)
    (hf : ∀ e ∈ fs, P e.word) : ∀ e ∈ es, P e.word := by
  intro e he
  have : e.word ∈ fs.map Entry.word := h ▸ List.mem_map_of_mem he
  obtain ⟨f, hm, hw⟩ := List.mem_map.mp this
  exact hw ▸ hf f hm

/-- An MMIO write of known kind: the family is APIC, the device responds, and the transaction enters the history. -/
theorem apicTransaction_ok {k : ApicKind} {v : Word32} {s t : State} (h : apicTransaction k v s = .ok t) :
    s.cfg.family = .apic ∧ ∃ u, apicRespond k v s = .ok u ∧ t = u.log (evMw (regAddr s.cfg (kindReg k)) v) := by
  unfold apicTransaction at h
  split at h
  next hf =>
    cases hr : apicRespond k v s with
    | error e => simp [hr, Except.map] at h
    | ok u =>
      simp only [hr, Except.map, Except.ok.injEq] at h
      exact ⟨hf, u, rfl, h.symm⟩
  next => cases h

/-- The frame of an MMIO write of known kind. -/
theorem apicTransaction_transacted {k : ApicKind} {v : Word32} {s t : State} (h : apicTransaction k v s = .ok t) :
    Transacted s t ∧ t.seq = s.seq := by
  obtain ⟨hf, u, hu, rfl⟩ := apicTransaction_ok h
  have window : ∀ n (hl : Half), windowWrite n hl v s = .ok u →
      Transacted s (u.log (evMw (regAddr s.cfg (kindReg k)) v)) ∧
        (u.log (evMw (regAddr s.cfg (kindReg k)) v)).seq = s.seq := by
    intro n hl hw
    obtain ⟨-, rfl⟩ := windowWrite_ok hw
    refine ⟨⟨rfl, rfl, rfl, rfl, rfl, rfl, rfl, rfl, ⟨_, rfl⟩, fun h => by simp [hf] at h, fun _ => ⟨rfl, rfl⟩,
      by simp, fun hr => ?_⟩, rfl⟩
    refine setEntry_readOnly hr fun hn => ?_
    obtain ⟨e, he, hw, -⟩ := redir_mem hn
    exact writtenWord_readOnly v hl (hw ▸ hr e he)
  cases k with
  | windowWriteLo n => exact window n .lo hu
  | windowWriteHi n => exact window n .hi hu
  | eoiWrite =>
    simp only [apicRespond, Except.ok.injEq] at hu
    subst hu
    have hw := takeLapicEoi_words s
    exact ⟨⟨by simp, by simp, by simp, by simp, by simp, by simp, by simp, by simp, ⟨_, by simp; rfl⟩,
      fun h => by simp [hf] at h, fun _ => by simp, by simpa using congrArg List.length hw,
      fun hr => forall_word_of_map_eq (P := fun w => w.getLsbD 12 = false ∧ w.getLsbD 14 = false) hw hr⟩, by simp⟩
  | _ =>
    simp only [apicRespond, Except.ok.injEq] at hu
    subst hu
    exact ⟨⟨rfl, rfl, rfl, rfl, rfl, rfl, rfl, rfl, ⟨_, rfl⟩, fun h => by simp [hf] at h, fun _ => ⟨rfl, rfl⟩,
      rfl, fun hr => hr⟩, rfl⟩

/-- The frame of an MMIO write. -/
theorem mmioWrite_transacted {a v : Word32} {s t : State} (h : mmioWrite a v s = .ok t) :
    Transacted s t ∧ t.seq = s.seq := by
  unfold mmioWrite at h
  split at h
  · cases h
  · exact apicTransaction_transacted h

/-- A register read changes at most the count of free values drawn. -/
theorem regRead_ok {r : MmioReg} {v : Word32} {s t : State} (h : regRead r s = .ok (v, t)) :
    t = s ∨ t = { s with draws := s.draws + 1 } := by
  cases r <;> simp only [regRead] at h
  case ioapicWindow =>
    unfold windowRead at h
    repeat' split at h
    all_goals grind
  all_goals grind

/-- An MMIO read: the family is APIC, and nothing but the history and the count of free values changes. -/
theorem mmioRead_ok {a v : Word32} {s t : State} (h : mmioRead a s = .ok (v, t)) :
    s.cfg.family = .apic ∧ (t = s.log (evMr a v) ∨ t = { s.log (evMr a v) with draws := s.draws + 1 }) := by
  unfold mmioRead at h
  split at h
  next hf =>
    split at h
    · cases h
    · next r hr =>
      cases e : regRead r s with
      | error e' => simp [e, Except.map] at h
      | ok q =>
        obtain ⟨x, u⟩ := q
        simp only [e, Except.map, Except.ok.injEq, Prod.mk.injEq] at h
        obtain ⟨rfl, rfl⟩ := h
        refine ⟨hf, ?_⟩
        rcases regRead_ok e with rfl | rfl
        · exact .inl rfl
        · exact .inr rfl
  next => cases h

/-- The frame of a transaction of a micro-program. -/
theorem perform_transacted {x : Micro} {s t : State} (h : perform x s = .ok t) : Transacted s t := by
  cases x with
  | out8 p e => exact (portWrite_transacted h).1
  | st32 a e => exact (mmioWrite_transacted h).1
  | in8 p d =>
    simp only [perform] at h
    cases e : portRead p s with
    | error e' => simp [e, Except.map] at h
    | ok q =>
      obtain ⟨v, u⟩ := q
      simp only [e, Except.map, Except.ok.injEq] at h
      obtain ⟨hf, rfl⟩ := portRead_ok e
      subst h
      exact ⟨by simp, by simp, by simp, by simp, by simp, by simp, by simp, by simp, ⟨_, by simp; rfl⟩, fun _ => by simp,
        fun _ => by simp, by simp, fun hr => by simpa using hr⟩
  | ld32 a d =>
    simp only [perform] at h
    cases e : mmioRead a s with
    | error e' => simp [e, Except.map] at h
    | ok q =>
      obtain ⟨v, u⟩ := q
      simp only [e, Except.map, Except.ok.injEq] at h
      obtain ⟨hf, hu⟩ := mmioRead_ok e
      subst h
      rcases hu with rfl | rfl <;>
      exact ⟨by simp, by simp, by simp, by simp, by simp, by simp, by simp, by simp, ⟨_, by simp; rfl⟩, fun _ => by simp,
        fun _ => by simp, by simp, fun hr => by simpa using hr⟩

/-- The frame of a raw read. -/
theorem rawRead_transacted {x : Transaction} {s t : State} (h : rawRead x s = .ok t) :
    Transacted s t ∧ t.seq = s.seq := by
  cases x with
  | ioRead p w =>
    simp only [rawRead] at h
    split at h
    · cases e : portRead p s with
      | error e' => simp [e, Except.map] at h
      | ok q =>
        obtain ⟨v, u⟩ := q
        simp only [e, Except.map, Except.ok.injEq] at h
        obtain ⟨hf, rfl⟩ := portRead_ok e
        subst h
        exact ⟨⟨rfl, rfl, rfl, rfl, rfl, rfl, rfl, rfl, ⟨_, rfl⟩, fun _ => ⟨rfl, rfl⟩, fun _ => ⟨rfl, rfl⟩, rfl,
          fun hr => hr⟩, rfl⟩
    · cases h
  | memRead a w =>
    simp only [rawRead] at h
    split at h
    · cases e : mmioRead a s with
      | error e' => simp [e, Except.map] at h
      | ok q =>
        obtain ⟨v, u⟩ := q
        simp only [e, Except.map, Except.ok.injEq] at h
        obtain ⟨hf, hu⟩ := mmioRead_ok e
        subst h
        rcases hu with rfl | rfl <;>
        exact ⟨⟨rfl, rfl, rfl, rfl, rfl, rfl, rfl, rfl, ⟨_, rfl⟩, fun _ => ⟨rfl, rfl⟩, fun _ => ⟨rfl, rfl⟩, rfl,
          fun hr => hr⟩, rfl⟩
    · cases h
  | ioWrite p w v => cases h
  | memWrite a w v => cases h

/-! ### What an operation answers where it runs -/

/-- On a PIC machine a write to a chip's port is the chip's response, logged. -/
theorem portWrite_pic (c : Chip) (p : PicPort) (v : Byte) {s : State} (hf : s.cfg.family = .pic) :
    portWrite (portAddr c p) v s =
      (picRespond (picKind p (s.pic c).step v) c v s).map fun t =>
        t.log (evIow (portAddr c (kindPort (picKind p (s.pic c).step v))) v) := by
  rw [portWrite_portAddr, picTransaction, if_pos hf]
  rfl

/-- On a PIC machine a read of a chip's port answers and changes only the history. -/
theorem portRead_pic (c : Chip) (p : PicPort) {s : State} (hf : s.cfg.family = .pic) :
    portRead (portAddr c p) s = .ok (picReadValue c p s, s.log (evIor (portAddr c p) (picReadValue c p s))) := by
  cases c <;> cases p <;> simp [portRead, portTarget, portAddr, hf, evIor]

/-- A request in progress performs the transaction that `upc` names. -/
theorem runRequest_at {fam : Family} {i : Instr} {chk : Option FaultCode} {prog : Program} {k : Nat} (hk : k < 16)
    {x : Micro} (hx : prog[k]? = some x) {s : State} (h : atTransaction i k s) :
    runRequest fam i chk prog s = finish s ((perform x s).map fun t => t.advance prog.length) := by
  obtain ⟨h1, h2, h3⟩ := h
  have : s.seq.upc.toNat = k := by rw [h3]; simp; omega
  simp [runRequest, h1, h2, microStep, this, hx]

/-- `upc` moves on, or the request completes. -/
theorem advance_at {s : State} {k : Nat} (hk : s.seq.upc = BitVec.ofNat 4 k) (h : k < 16) (n : Nat) :
    s.advance n = if k + 1 = n then { s with seq := s.seq.completed } else { s with seq := s.seq.afterTransaction k } := by
  simp only [State.advance, hk, BitVec.toNat_ofNat, Nat.mod_eq_of_lt (show k < 2 ^ 4 from h), Sequencer.completed,
    Sequencer.afterTransaction]
  split
  · rfl
  · congr 2; apply BitVec.eq_of_toNat_eq; simp

/-- An Idle machine checks the family and the operands of a request, then accepts it. -/
theorem runRequest_idle {fam : Family} {i : Instr} {chk : Option FaultCode} {prog : Program} {s : State}
    (h : s.seq.phase = .idle) :
    runRequest fam i chk prog s =
      if fam = s.cfg.family then
        match chk with
        | some c => .next ({ s with seq := s.seq.faultedWith c (encode i) } : State).latched
        | none => .next ({ s with seq := s.seq.accepted (encode i) } : State).latched
      else .next (s.markRefused .familyAbsent) := by
  unfold runRequest
  rw [h]
  cases chk <;> rfl

/-- A raw access on a machine that is not Busy is performed. -/
theorem rawAccess_of_not_busy (f : State → Except Refusal State) {s : State} (h : s.seq.phase ≠ .busy) :
    rawAccess f s = finish s (f s) := by
  unfold rawAccess
  split <;> simp_all

/-- A byte on a data port: the chip takes it as its init step says. -/
theorem picRespond_data (c : Chip) (v : Byte) (s : State) :
    picRespond (picKind .data (s.pic c).step v) c v s = .ok (s.setPic c ((s.pic c).dataWritten v)) := by
  cases h : (s.pic c).step <;>
    simp [picKind, dataKind, picRespond, Pic.dataWritten, h, Pic.takeIcw2, Pic.takeIcw3, Pic.takeIcw4, Pic.takeOcw1]

/-! ### The devices and the latches do not see the sequencer -/

/-- The latch update reads and writes no register of the sequencer. -/
theorem latched_seq (s : State) (q : Sequencer) :
    ({ s with seq := q } : State).latched = { s.latched with seq := q } := by
  simp only [State.latched]
  cases s.cfg.family <;> rfl

/-- A PIC8 write reads and writes no register of the sequencer. -/
theorem picTransaction_seq (k : PicKind) (c : Chip) (v : Byte) (s : State) (q : Sequencer) :
    picTransaction k c v { s with seq := q } = (picTransaction k c v s).map fun t => { t with seq := q } := by
  have hp : ({ s with seq := q } : State).pic c = s.pic c := by cases c <;> rfl
  unfold picTransaction
  by_cases h : s.cfg.family = .pic
  · rw [if_pos h, if_pos h]
    cases k <;> simp only [picRespond, hp] <;>
      (try (by_cases hr : (s.pic c).step = .ready <;> simp only [hr, if_true, if_false])) <;> cases c <;> rfl
  · rw [if_neg h, if_neg h]
    rfl

/-- An APIC32 write reads and writes no register of the sequencer. -/
theorem apicTransaction_seq (k : ApicKind) (v : Word32) (s : State) (q : Sequencer) :
    apicTransaction k v { s with seq := q } = (apicTransaction k v s).map fun t => { t with seq := q } := by
  unfold apicTransaction
  by_cases h : s.cfg.family = .apic
  · rw [if_pos h, if_pos h]
    have he : ({ s with seq := q } : State).takeLapicEoi = { s.takeLapicEoi with seq := q } := by
      simp only [State.takeLapicEoi]
      cases highestVec s.lapic.isr <;> rfl
    cases k with
    | windowWriteLo n => by_cases hn : n < s.cfg.nRedir <;> simp only [apicRespond, windowWrite, hn, if_true, if_false] <;> rfl
    | windowWriteHi n => by_cases hn : n < s.cfg.nRedir <;> simp only [apicRespond, windowWrite, hn, if_true, if_false] <;> rfl
    | eoiWrite => simp only [apicRespond, he]; rfl
    | _ => rfl
  · rw [if_neg h, if_neg h]
    rfl

end Sys2Proof.Machine
end

