-- ==== Sys2Proof/Laws/PerInstr.lean ====
section
/-!
SUPPORT. Facts of every instruction as syntax, one lemma per constructor.
-/

namespace Sys2Proof.Laws

/-- The word of an instruction fits the width its table row gives it. -/
def EncodingFits.Statement (i : Instr) : Prop := (encode i).toNat < 2 ^ i.width

/-- A byte widened to 64 bits fits a byte. -/
theorem byte_fits (v : Byte) : (v.setWidth 64).toNat < 2 ^ 8 := by
  rw [BitVec.toNat_setWidth]
  exact Nat.lt_of_le_of_lt (Nat.mod_le _ _) v.isLt

/-- A 32-bit word widened to 64 bits fits 32 bits. -/
theorem word_fits (v : Word32) : (v.setWidth 64).toNat < 2 ^ 32 := by
  rw [BitVec.toNat_setWidth]
  exact Nat.lt_of_le_of_lt (Nat.mod_le _ _) v.isLt

/-- A request word has 64 bits (R69). -/
theorem EncodingFits.picInit (mb sb : Byte) : EncodingFits.Statement (.picInit mb sb) := BitVec.isLt _

/-- A request word has 64 bits (R69). -/
theorem EncodingFits.picReadMasks : EncodingFits.Statement (.picReadMasks) := BitVec.isLt _

/-- A request word has 64 bits (R69). -/
theorem EncodingFits.picWriteMasks (m s : Byte) : EncodingFits.Statement (.picWriteMasks m s) := BitVec.isLt _

/-- A request word has 64 bits (R69). -/
theorem EncodingFits.picMask (l : Byte) : EncodingFits.Statement (.picMask l) := BitVec.isLt _

/-- A request word has 64 bits (R69). -/
theorem EncodingFits.picUnmask (l : Byte) : EncodingFits.Statement (.picUnmask l) := BitVec.isLt _

/-- A request word has 64 bits (R69). -/
theorem EncodingFits.picUnmaskAll : EncodingFits.Statement (.picUnmaskAll) := BitVec.isLt _

/-- A request word has 64 bits (R69). -/
theorem EncodingFits.picEoi (l : Byte) : EncodingFits.Statement (.picEoi l) := BitVec.isLt _

/-- A request word has 64 bits (R69). -/
theorem EncodingFits.ioapicWriteEntry (n vec : Byte) (dm : DeliveryMode) (dsm : DestMode) (pol : Polarity) (trg : TriggerMode)
    (dest : Byte) : EncodingFits.Statement (.ioapicWriteEntry n vec dm dsm pol trg dest) := BitVec.isLt _

/-- A request word has 64 bits (R69). -/
theorem EncodingFits.ioapicSetMask (n : Byte) (m : Bool) : EncodingFits.Statement (.ioapicSetMask n m) := BitVec.isLt _

/-- A request word has 64 bits (R69). -/
theorem EncodingFits.lapicEnable (v : Byte) : EncodingFits.Statement (.lapicEnable v) := BitVec.isLt _

/-- A request word has 64 bits (R69). -/
theorem EncodingFits.lapicEoi : EncodingFits.Statement (.lapicEoi) := BitVec.isLt _

/-- A PIC8 word is a byte (R74, R75). -/
theorem EncodingFits.icw1 (c : Chip) (v : Byte) : EncodingFits.Statement (.icw1 c v) := byte_fits v

/-- A PIC8 word is a byte (R74, R75). -/
theorem EncodingFits.icw2 (c : Chip) (v : Byte) : EncodingFits.Statement (.icw2 c v) := byte_fits v

/-- A PIC8 word is a byte (R74, R75). -/
theorem EncodingFits.icw3 (c : Chip) (v : Byte) : EncodingFits.Statement (.icw3 c v) := byte_fits v

/-- A PIC8 word is a byte (R74, R75). -/
theorem EncodingFits.icw4 (c : Chip) (v : Byte) : EncodingFits.Statement (.icw4 c v) := byte_fits v

/-- A PIC8 word is a byte (R74, R75). -/
theorem EncodingFits.ocw1 (c : Chip) (v : Byte) : EncodingFits.Statement (.ocw1 c v) := byte_fits v

/-- A PIC8 word is a byte (R74, R75). -/
theorem EncodingFits.ocw2Other (c : Chip) (v : Byte) : EncodingFits.Statement (.ocw2Other c v) := byte_fits v

/-- A PIC8 word is a byte (R74, R75). -/
theorem EncodingFits.ocw3 (c : Chip) (v : Byte) : EncodingFits.Statement (.ocw3 c v) := byte_fits v

/-- A PIC8 word is a byte (R108). -/
theorem EncodingFits.ocw2NonspecificEoi (c : Chip) : EncodingFits.Statement (.ocw2NonspecificEoi c) :=
  (by decide : (0x20#64).toNat < 2 ^ 8)

/-- An APIC32 word has 32 bits (R51). -/
theorem EncodingFits.ioapicIndexWrite (v : Word32) : EncodingFits.Statement (.ioapicIndexWrite v) := word_fits v

/-- An APIC32 word has 32 bits (R51). -/
theorem EncodingFits.lapicSvrWrite (v : Word32) : EncodingFits.Statement (.lapicSvrWrite v) := word_fits v

/-- An APIC32 word has 32 bits (R51). -/
theorem EncodingFits.lapicTprWrite (v : Word32) : EncodingFits.Statement (.lapicTprWrite v) := word_fits v

/-- An APIC32 word has 32 bits (R51). -/
theorem EncodingFits.lapicEoiWrite (v : Word32) : EncodingFits.Statement (.lapicEoiWrite v) := word_fits v

/-- An APIC32 word has 32 bits (R51). -/
theorem EncodingFits.ioapicWindowWriteLo (n : Nat) (v : Word32) : EncodingFits.Statement (.ioapicWindowWriteLo n v) := word_fits v

/-- An APIC32 word has 32 bits (R51). -/
theorem EncodingFits.ioapicWindowWriteHi (n : Nat) (v : Word32) : EncodingFits.Statement (.ioapicWindowWriteHi n v) := word_fits v

end Sys2Proof.Laws
end

