-- ==== Sys2Proof/Laws/Step.lean ====
section
/-!
SUPPORT. Everything an instruction, an agent's turn and a step can do, said once.
-/

namespace Sys2Proof.Machine

/-- What the sequencer's registers and the devices become in a step that is not refused, before the latches. -/
inductive Effect (s : State) (i : Instr) : State → Prop where
  /-- R94: acceptance. -/
  | accepted (h : s.seq.phase = .idle) (hf : (opcodeOf i).map Opcode.family = some s.cfg.family)
      (hc : contractFault s.cfg i = none) : Effect s i { s with seq := s.seq.accepted (encode i) }
  /-- R146: a fault. -/
  | faulted (c : FaultCode) (h : s.seq.phase = .idle) (hf : (opcodeOf i).map Opcode.family = some s.cfg.family)
      (hc : contractFault s.cfg i = some c) : Effect s i { s with seq := s.seq.faultedWith c (encode i) }
  /-- R96: the next transaction of the request in progress. -/
  | transaction (u : State) (h : s.seq.phase = .busy) (hr : s.seq.req = encode i) (ho : (opcodeOf i).isSome)
      (hu : Transacted s u) (hl : s.seq.upc.toNat < programLength i) : Effect s i (u.advance (programLength i))
  /-- R66: a raw write. -/
  | raw (u : State) (h : s.seq.phase ≠ .busy) (ho : opcodeOf i = none) (hu : Transacted s u) (hs : u.seq = s.seq) :
      Effect s i u

/-- The operand check of R73 in the model and in the rule's words agree. -/
theorem checkBases_eq (mb sb : Byte) (cfg : Config) : checkBases mb sb = contractFault cfg (.picInit mb sb) := by
  simp only [checkBases, basesValid, contractFault, decide_eq_true_eq]
  grind

/-- The line check of R73 in the model and in the rule's words agree. -/
theorem checkLine_eq (l : Byte) (n : Nat) : checkLine l n = if n ≤ l.toNat then some .lineOutOfRange else none := by
  simp only [checkLine]
  grind

/-- What a request's meaning can do. -/
theorem runRequest_cases {fam : Family} {i : Instr} {chk : Option FaultCode} {prog : Program} {s t : State}
    (h : runRequest fam i chk prog s = .next t) (hf : (opcodeOf i).map Opcode.family = some fam)
    (hc : chk = contractFault s.cfg i) (hl : prog.length = programLength i) :
    (∃ r, t = s.markRefused r) ∨ ∃ u, Effect s i u ∧ t = u.latched := by
  unfold runRequest at h
  split at h
  · cases h
  next hp =>
    split at h
    next hr =>
      unfold microStep at h
      split at h
      · cases h
      next x hx =>
        rcases finish_eq_next.mp h with ⟨u, hu, rfl⟩ | ⟨r, -, rfl⟩
        · cases e : perform x s with
          | error e' => simp [e, Except.map] at hu
          | ok v =>
            simp only [e, Except.map, Except.ok.injEq] at hu
            subst hu
            have hlt : s.seq.upc.toNat < prog.length := (List.getElem?_eq_some_iff.mp hx).1
            rw [hl] at hlt ⊢
            exact .inr ⟨_, .transaction v hp hr (by cases ho : opcodeOf i <;> simp_all) (perform_transacted e) hlt, rfl⟩
        · exact .inl ⟨r, rfl⟩
    next => exact .inl ⟨_, by simpa [eq_comm] using h⟩
  next hp =>
    split at h
    next hfam =>
      split at h
      next c =>
        refine .inr ⟨_, .faulted c hp (hfam ▸ hf) hc.symm, ?_⟩
        simpa [raiseFault, Sequencer.faultedWith, eq_comm] using h
      next =>
        refine .inr ⟨_, .accepted hp (hfam ▸ hf) hc.symm, ?_⟩
        simpa [accept, Sequencer.accepted, eq_comm] using h
    next => exact .inl ⟨_, by simpa [eq_comm] using h⟩

/-- What a raw access can do. -/
theorem rawAccess_cases {f : State → Except Refusal State} {s t : State} (h : rawAccess f s = .next t) :
    (∃ r, t = s.markRefused r) ∨ s.seq.phase ≠ .busy ∧ ∃ u, f s = .ok u ∧ t = u.latched := by
  unfold rawAccess at h
  split at h
  · exact .inl ⟨_, by simpa [eq_comm] using h⟩
  all_goals
    rcases finish_eq_next.mp h with ⟨u, hu, rfl⟩ | ⟨r, -, rfl⟩
    · exact .inr ⟨by simp_all, u, hu, rfl⟩
    · exact .inl ⟨r, rfl⟩

/-- What a device write's meaning can do. -/
theorem rawWrite_effect {f : State → Except Refusal State} {s t : State} {i : Instr} (h : rawAccess f s = .next t)
    (ho : opcodeOf i = none) (hf : ∀ u, f s = .ok u → Transacted s u ∧ u.seq = s.seq) :
    (∃ r, t = s.markRefused r) ∨ ∃ u, Effect s i u ∧ t = u.latched := by
  rcases rawAccess_cases h with h | ⟨hp, u, hu, rfl⟩
  · exact .inl h
  · exact .inr ⟨u, .raw u hp ho (hf u hu).1 (hf u hu).2, rfl⟩

/-- What an instruction can do. -/
theorem exec_cases {i : Instr} {s t : State} (h : exec i s = .next t) :
    (∃ r, t = s.markRefused r) ∨ ∃ u, Effect s i u ∧ t = u.latched := by
  cases i with
  | picInit mb sb => exact runRequest_cases h rfl (checkBases_eq mb sb s.cfg) rfl
  | picReadMasks => exact runRequest_cases (chk := none) (prog := picReadMasksProgram) h rfl rfl rfl
  | picWriteMasks m sl => exact runRequest_cases (chk := none) (prog := picWriteMasksProgram m sl) h rfl rfl rfl
  | picMask l => exact runRequest_cases h rfl (checkLine_eq l 16) rfl
  | picUnmask l => exact runRequest_cases h rfl (checkLine_eq l 16) rfl
  | picUnmaskAll => exact runRequest_cases (chk := none) (prog := picUnmaskAllProgram) h rfl rfl rfl
  | picEoi l =>
    refine runRequest_cases h rfl (checkLine_eq l 16) ?_
    simp only [picEoiProgram, programLength]
    split <;> rfl
  | ioapicWriteEntry l vec dm dsm pol trg dest => exact runRequest_cases h rfl (checkLine_eq l _) rfl
  | ioapicSetMask l m => exact runRequest_cases h rfl (checkLine_eq l _) rfl
  | lapicEnable v => exact runRequest_cases (chk := none) (prog := lapicEnableProgram s.cfg v) h rfl rfl rfl
  | lapicEoi => exact runRequest_cases (chk := none) (prog := lapicEoiProgram s.cfg) h rfl rfl rfl
  | icw1 c v => exact rawWrite_effect h rfl fun _ => picTransaction_transacted
  | icw2 c v => exact rawWrite_effect h rfl fun _ => picTransaction_transacted
  | icw3 c v => exact rawWrite_effect h rfl fun _ => picTransaction_transacted
  | icw4 c v => exact rawWrite_effect h rfl fun _ => picTransaction_transacted
  | ocw1 c v => exact rawWrite_effect h rfl fun _ => picTransaction_transacted
  | ocw2NonspecificEoi c => exact rawWrite_effect h rfl fun _ => picTransaction_transacted
  | ocw2Other c v => exact rawWrite_effect h rfl fun _ => picTransaction_transacted
  | ocw3 c v => exact rawWrite_effect h rfl fun _ => picTransaction_transacted
  | ioapicIndexWrite v => exact rawWrite_effect h rfl fun _ => apicTransaction_transacted
  | ioapicWindowWriteLo n v => exact rawWrite_effect h rfl fun _ => apicTransaction_transacted
  | ioapicWindowWriteHi n v => exact rawWrite_effect h rfl fun _ => apicTransaction_transacted
  | lapicSvrWrite v => exact rawWrite_effect h rfl fun _ => apicTransaction_transacted
  | lapicTprWrite v => exact rawWrite_effect h rfl fun _ => apicTransaction_transacted
  | lapicEoiWrite v => exact rawWrite_effect h rfl fun _ => apicTransaction_transacted

/-- What a step of the environment or of the I/O APIC itself keeps; `x` is the step. -/
structure Environmental (x : Input) (s t : State) : Prop where
  cfg : t.cfg = s.cfg
  seq : t.seq = s.seq
  refused : t.refused = s.refused
  inputs : t.inputs = s.inputs
  hist : t.hist = s.hist ∨ ∃ e, t.hist = s.hist ++ [e]
  picMasks : t.picM.imr = s.picM.imr ∧ t.picS.imr = s.picS.imr ∧ t.picM.step = s.picM.step ∧ t.picS.step = s.picS.step
  index : t.ioapic.ioregsel = s.ioapic.ioregsel
  words : t.ioapic.entries.map Entry.word = s.ioapic.entries.map Entry.word
  pins : t.env.pin.length = s.env.pin.length
  picLatch : t.env.picIntLatch = (s.env.picIntLatch && decide (x ≠ .cpuIntaPic))
  lapicLatch : t.env.lapicIntLatch = (s.env.lapicIntLatch && decide (x ≠ .cpuIntaLapic))
  ofPic : s.cfg.family = .pic → t.ioapic = s.ioapic ∧ t.lapic = s.lapic ∧ t.env.pin = s.env.pin
  ofApic : s.cfg.family = .apic → t.picM = s.picM ∧ t.picS = s.picS

/-- What an agent's turn does when it is not refused, before the latches; `x` is the turn's input, already taken. -/
inductive Turn (x : Input) (s : State) : State → Prop where
  /-- A submission, a raw write or the sequencer's turn runs an instruction. -/
  | instruction (i : Instr) (u : State) (hx : isEnvironment x = false) (h : Effect s i u)
      (hd : opcodeOf i = none ∨ ∃ w, decode .request w = .ok i) : Turn x s u
  /-- R145: a submitted word that is no instruction. -/
  | illegal (w : Word64) (hx : x = .submit w) (h : s.seq.phase = .idle) :
      Turn x s { s with seq := s.seq.faultedWith .illegalRequest w }
  /-- R66: a raw read. -/
  | read (u : State) (hx : isEnvironment x = false) (h : s.seq.phase ≠ .busy) (hu : Transacted s u)
      (hs : u.seq = s.seq) : Turn x s u
  /-- A step of the environment. -/
  | environment (u : State) (hx : isEnvironment x = true) (h : Environmental x s u) : Turn x s u

/-- What a word on a chip's port or on a register decodes to is no request. -/
theorem opcodeOf_decode_device {ctx : Context} {w : Word64} {i : Instr} (hc : ctx ≠ .request)
    (h : decode ctx w = .ok i) : opcodeOf i = none := by
  cases ctx with
  | request => exact absurd rfl hc
  | pic c p step =>
    simp only [decode, Except.ok.injEq] at h
    subst h
    cases picKind p step (w.setWidth 8) <;> rfl
  | mmio r x =>
    simp only [decode] at h
    cases hk : apicKind r x with
    | error e => simp [hk, Except.map] at h
    | ok k =>
      simp only [hk, Except.map, Except.ok.injEq] at h
      subst h
      cases k <;> rfl

/-- A raw write is never decoded as a request. -/
theorem writeContext_ne_request {x : Transaction} {s : State} {ctx : Context} (h : writeContext x s = .ok ctx) :
    ctx ≠ .request := by
  rintro rfl
  unfold writeContext at h
  split at h <;> repeat' split at h
  all_goals simp at h

/-- An instruction's outcome as a turn's. -/
theorem turn_of_exec {x : Input} {i : Instr} {s t : State} (hx : isEnvironment x = false) (h : exec i s = .next t)
    (hd : opcodeOf i = none ∨ ∃ w, decode .request w = .ok i) :
    (∃ r, t = s.markRefused r) ∨ ∃ u, Turn x s u ∧ t = u.latched := by
  rcases exec_cases h with h | ⟨u, hu, rfl⟩
  · exact .inl h
  · exact .inr ⟨u, .instruction i u hx hu hd, rfl⟩

/-- What a submission can do. -/
theorem hostSubmit_cases {w : Word64} {s t : State} (h : hostSubmit w s = .next t) :
    (∃ r, t = s.markRefused r) ∨ ∃ u, Turn (.submit w) s u ∧ t = u.latched := by
  have ill : s.seq.phase = .idle → raiseFault .illegalRequest w s = .next t →
      (∃ r, t = s.markRefused r) ∨ ∃ u, Turn (.submit w) s u ∧ t = u.latched := fun hp h =>
    .inr ⟨_, .illegal w rfl hp, by simpa [raiseFault, Sequencer.faultedWith, eq_comm] using h⟩
  unfold hostSubmit at h
  split at h
  · cases h
  · exact .inl ⟨_, by simpa [eq_comm] using h⟩
  next hp =>
    split at h
    · exact ill hp h
    · split at h
      · split at h
        · exact ill hp h
        next i hi => exact turn_of_exec rfl h (.inr ⟨w, hi⟩)
      · exact .inl ⟨_, by simpa [eq_comm] using h⟩

/-- What a raw write can do. -/
theorem rawWrite_cases {x y : Transaction} {v : Word32} {s t : State} (h : rawWrite x v s = .next t) :
    (∃ r, t = s.markRefused r) ∨ ∃ u, Turn (.raw y) s u ∧ t = u.latched := by
  unfold rawWrite at h
  split at h
  · exact .inl ⟨_, by simpa [eq_comm] using h⟩
  · exact .inl ⟨_, by simpa [eq_comm] using h⟩
  next ctx hctx _ =>
    split at h
    · exact .inl ⟨_, by simpa [eq_comm] using h⟩
    next i hi => exact turn_of_exec rfl h (.inl (opcodeOf_decode_device (writeContext_ne_request hctx) hi))

/-- What a raw access can do. -/
theorem hostRaw_cases {x : Transaction} {s t : State} (h : hostRaw x s = .next t) :
    (∃ r, t = s.markRefused r) ∨ ∃ u, Turn (.raw x) s u ∧ t = u.latched := by
  have rd : rawAccess (rawRead x) s = .next t → (∃ r, t = s.markRefused r) ∨ ∃ u, Turn (.raw x) s u ∧ t = u.latched := by
    intro h
    rcases rawAccess_cases h with h | ⟨hp, u, hu, rfl⟩
    · exact .inl h
    · exact .inr ⟨u, .read u rfl hp (rawRead_transacted hu).1 (rawRead_transacted hu).2, rfl⟩
  cases x with
  | ioWrite p w v => exact rawWrite_cases h
  | memWrite a w v => exact rawWrite_cases h
  | ioRead p w => exact rd h
  | memRead a w => exact rd h

/-- What the sequencer's turn can do. -/
theorem sequencerTurn_cases {s t : State} (h : sequencerTurn s = .next t) :
    (∃ r, t = s.markRefused r) ∨ ∃ u, Turn .sequencer s u ∧ t = u.latched := by
  unfold sequencerTurn at h
  split at h
  · cases h
  · cases h
  · split at h
    · cases h
    next i hi => exact turn_of_exec rfl h (.inr ⟨_, hi⟩)

/-- An edge on a PIC line sets one request bit. -/
theorem picEdge_cases {l : Nat} {s t : State} (h : picEdge l s = .next t) :
    ∃ u, Environmental (.picEdge l) s u ∧ t = u.latched := by
  unfold picEdge at h
  split at h
  next hc =>
    simp only [finish_ok, Host.Outcome.next.injEq] at h
    refine ⟨_, ⟨?_, ?_, ?_, ?_, ?_, ?_, ?_, ?_, ?_, ?_, ?_, ?_, ?_⟩, h.symm⟩ <;>
      first
        | simp [hc.1]
        | (unfold chipOf; split <;> simp)
  next => cases h

/-- An acknowledge of the 8259 pair. -/
theorem cpuIntaPic_cases {s t : State} (h : cpuIntaPic s = .next t) :
    (∃ r, t = s.markRefused r) ∨ ∃ u, Environmental .cpuIntaPic s u ∧ t = u.latched := by
  unfold cpuIntaPic at h
  split at h
  next hc =>
    split at h
    · simp only at h
      split at h
      · simp only [finish_ok, Host.Outcome.next.injEq] at h
        refine .inr ⟨_, ?_, h.symm⟩
        exact ⟨rfl, rfl, rfl, rfl, .inr ⟨_, rfl⟩, ⟨rfl, rfl, rfl, rfl⟩, rfl, rfl, rfl, by simp, by simp, fun _ => ⟨rfl, rfl, rfl⟩,
          fun _ => ⟨rfl, rfl⟩⟩
      · split at h
        · split at h
          · cases h
          · simp only [finish_ok, Host.Outcome.next.injEq] at h
            refine .inr ⟨_, ?_, h.symm⟩
            exact ⟨rfl, rfl, rfl, rfl, .inr ⟨_, rfl⟩, ⟨rfl, rfl, rfl, rfl⟩, rfl, rfl, rfl, by simp, by simp,
              fun _ => ⟨rfl, rfl, rfl⟩, fun h => by simp [hc.1] at h⟩
        · simp only [finish_ok, Host.Outcome.next.injEq] at h
          refine .inr ⟨_, ?_, h.symm⟩
          exact ⟨rfl, rfl, rfl, rfl, .inr ⟨_, rfl⟩, ⟨rfl, rfl, rfl, rfl⟩, rfl, rfl, rfl, by simp, by simp,
            fun _ => ⟨rfl, rfl, rfl⟩, fun h => by simp [hc.1] at h⟩
    · exact .inl ⟨_, by simpa [eq_comm] using h⟩
  next => cases h

/-- A message changes the Local APIC's vector registers and the count of free values drawn, and nothing else. -/
theorem sendMessage_ok {n : Nat} {s t : State} (h : sendMessage n s = .ok t) :
    ∃ (irr tmr : VectorSet) (d : Nat), t = { s with lapic := { s.lapic with irr := irr, tmr := tmr }, draws := d } := by
  unfold sendMessage at h
  simp only at h
  split at h
  · unfold lapicAccept Lapic.register at h
    repeat' split at h
    all_goals first | (cases h; done) | exact ⟨_, _, _, (Except.ok.inj h).symm⟩
  · cases h

/-- A change of a pin. -/
theorem setPin_cases {n : Nat} {b : Bool} {s t : State} (h : setPin n b s = .next t) :
    (∃ r, t = s.markRefused r) ∨ ∃ u, Environmental (.pin n b) s u ∧ t = u.latched := by
  unfold setPin at h
  split at h
  next hc =>
    rcases finish_eq_next.mp h with ⟨u, hu, rfl⟩ | ⟨r, -, rfl⟩
    · refine .inr ⟨u, ?_, rfl⟩
      split at hu
      · obtain ⟨irr, tmr, d, rfl⟩ := sendMessage_ok hu
        exact ⟨rfl, rfl, rfl, rfl, .inl rfl, ⟨rfl, rfl, rfl, rfl⟩, rfl, rfl, by simp, by simp, by simp,
          fun h => by simp [hc.1] at h, fun _ => ⟨rfl, rfl⟩⟩
      · simp only [Except.ok.injEq] at hu
        subst hu
        exact ⟨rfl, rfl, rfl, rfl, .inl rfl, ⟨rfl, rfl, rfl, rfl⟩, rfl, rfl, by simp, by simp, by simp,
          fun h => by simp [hc.1] at h, fun _ => ⟨rfl, rfl⟩⟩
    · exact .inl ⟨r, rfl⟩
  next => cases h

/-- Setting an entry's remote IRR keeps the words of the table. -/
theorem setEntry_words (s : State) (n : Nat) (b : Bool) :
    (s.setEntry n { word := s.ioapic.redir n, remoteIrr := b }).ioapic.entries.map Entry.word =
      s.ioapic.entries.map Entry.word := by
  rw [State_setEntry_entries, List.map_set]
  refine List.ext_getElem? fun i => ?_
  rw [List.getElem?_set]
  simp only [Ioapic.redir]
  grind

/-- A level-triggered entry's own step. -/
theorem ioapicLevel_cases {n : Nat} {s t : State} (h : ioapicLevel n s = .next t) :
    (∃ r, t = s.markRefused r) ∨ ∃ u, Environmental (.ioapicLevel n) s u ∧ t = u.latched := by
  unfold ioapicLevel at h
  split at h
  next hc =>
    rcases finish_eq_next.mp h with ⟨u, hu, rfl⟩ | ⟨r, -, rfl⟩
    · refine .inr ⟨u, ?_, rfl⟩
      obtain ⟨irr, tmr, d, rfl⟩ := sendMessage_ok hu
      exact ⟨rfl, rfl, rfl, rfl, .inl rfl, ⟨rfl, rfl, rfl, rfl⟩, rfl, setEntry_words s n true, rfl, by simp, by simp,
        fun h => by simp [hc.1] at h, fun _ => ⟨rfl, rfl⟩⟩
    · exact .inl ⟨r, rfl⟩
  next => cases h

/-- An acknowledge of the Local APIC. -/
theorem cpuIntaLapic_cases {s t : State} (h : cpuIntaLapic s = .next t) :
    (∃ r, t = s.markRefused r) ∨ ∃ u, Environmental .cpuIntaLapic s u ∧ t = u.latched := by
  unfold cpuIntaLapic at h
  split at h
  next hc =>
    simp only at h
    split at h
    · simp only [finish_ok, Host.Outcome.next.injEq] at h
      refine .inr ⟨_, ?_, h.symm⟩
      exact ⟨rfl, rfl, rfl, rfl, .inr ⟨_, rfl⟩, ⟨rfl, rfl, rfl, rfl⟩, rfl, rfl, rfl, by simp, by simp,
        fun h => by simp [hc.1] at h, fun _ => ⟨rfl, rfl⟩⟩
    · split at h
      · exact .inl ⟨_, by simpa [eq_comm] using h⟩
      · simp only [finish_ok, Host.Outcome.next.injEq] at h
        refine .inr ⟨_, ?_, h.symm⟩
        exact ⟨rfl, rfl, rfl, rfl, .inr ⟨_, rfl⟩, ⟨rfl, rfl, rfl, rfl⟩, rfl, rfl, rfl, by simp, by simp,
          fun h => by simp [hc.1] at h, fun _ => ⟨rfl, rfl⟩⟩
  next => cases h

/-- What an agent's turn can do. -/
theorem runInput_cases {x : Input} {s t : State} (h : runInput x s = .next t) :
    (∃ r, t = s.markRefused r) ∨ ∃ u, Turn x s u ∧ t = u.latched := by
  have env : isEnvironment x = true → ((∃ r, t = s.markRefused r) ∨ ∃ u, Environmental x s u ∧ t = u.latched) →
      (∃ r, t = s.markRefused r) ∨ ∃ u, Turn x s u ∧ t = u.latched := fun hx h =>
    h.imp id fun ⟨u, hu, e⟩ => ⟨u, .environment u hx hu, e⟩
  cases x with
  | sequencer => exact sequencerTurn_cases h
  | submit w => exact hostSubmit_cases h
  | raw x => exact hostRaw_cases h
  | picEdge l => exact env rfl (.inr (picEdge_cases h))
  | cpuIntaPic => exact env rfl (cpuIntaPic_cases h)
  | pin n b => exact env rfl (setPin_cases h)
  | ioapicLevel n => exact env rfl (ioapicLevel_cases h)
  | cpuIntaLapic => exact env rfl (cpuIntaLapic_cases h)

/-- A step with an input waiting is that input's turn. -/
theorem step_of_inputs {s : State} {x : Input} {rest : List Input} (h1 : s.refused = none) (h2 : s.inputs = x :: rest) :
    step s = runInput x { s with inputs := rest } := by
  simp [step, h1, State.nextInput, h2, State.takeInput]

/-- What a step can do: refuse, or take its agent's turn from the state without the turn's input. -/
theorem step_cases {s t : State} (h : step s = .next t) :
    s.refused = none ∧ ((∃ r, t = s.takeInput.markRefused r) ∨ ∃ u, Turn s.nextInput s.takeInput u ∧ t = u.latched) := by
  unfold step at h
  split at h
  · cases h
  next hr => exact ⟨hr, runInput_cases h⟩

end Sys2Proof.Machine
end

