-- ==== Sys2Proof/Tests/Slice0.lean ====
section
/-!
SUPPORT. Tests. Every expected value comes from spec/: V, W and P numbers are the vectors and programs of
95_test_vectors, R numbers the rules. `met_<Name>` shows a state and operands that meet the hypotheses of the
statement `<Name>`, one for each of its clauses.
-/

set_option Elab.async false

namespace Sys2Proof.Tests

open Sys2Proof Sys2Proof.Machine

/-! ### WellFormed smoke: one ill-formed term for each check (R74, R12) -/

theorem test_icw1_without_bit4_is_ill_formed : (Instr.icw1 .master 0x0F#8).wellFormed = false := by decide
theorem test_ocw2_with_bit4_is_ill_formed : (Instr.ocw2Other .master 0x30#8).wellFormed = false := by decide
theorem test_ocw2_with_bit3_is_ill_formed : (Instr.ocw2Other .slave 0x28#8).wellFormed = false := by decide
theorem test_ocw3_with_bit4_is_ill_formed : (Instr.ocw3 .master 0x18#8).wellFormed = false := by decide
theorem test_ocw3_without_bit3_is_ill_formed : (Instr.ocw3 .master 0x03#8).wellFormed = false := by decide
theorem test_window_lo_120_is_ill_formed : (Instr.ioapicWindowWriteLo 120 0#32).wellFormed = false := by decide
theorem test_window_hi_120_is_ill_formed : (Instr.ioapicWindowWriteHi 120 0#32).wellFormed = false := by decide
theorem test_window_119_is_well_formed : (Instr.ioapicWindowWriteHi 119 0#32).wellFormed = true := by decide

/-! ### Decoding: one word for each constructor, written out field by field (R69 to R75, R86) -/

-- V32: D 00, C 00, B 28 (40), A 20 (32), OP 01.
theorem test_decode_picInit : decode .request 0x0000000000282001#64 = .ok (.picInit 0x20#8 0x28#8) := by decide +kernel
-- V42: OP 02.
theorem test_decode_picReadMasks : decode .request 0x0000000000000002#64 = .ok .picReadMasks := by decide +kernel
-- V43: B 8E, A B8, OP 03.
theorem test_decode_picWriteMasks :
    decode .request 0x00000000008EB803#64 = .ok (.picWriteMasks 0xB8#8 0x8E#8) := by decide +kernel
-- V44: A 0C (12), OP 04.
theorem test_decode_picMask : decode .request 0x0000000000000C04#64 = .ok (.picMask 12#8) := by decide +kernel
-- V48: A 09, OP 05.
theorem test_decode_picUnmask : decode .request 0x0000000000000905#64 = .ok (.picUnmask 9#8) := by decide +kernel
-- V49: OP 06.
theorem test_decode_picUnmaskAll : decode .request 0x0000000000000006#64 = .ok .picUnmaskAll := by decide +kernel
-- V52: A 09, OP 07.
theorem test_decode_picEoi : decode .request 0x0000000000000907#64 = .ok (.picEoi 9#8) := by decide +kernel
-- V64: D 0F, C 39 = level 1, low 1, logical 1, mode 001, B 30, A 02, OP 10.
theorem test_decode_ioapicWriteEntry : decode .request 0x0000000F39300210#64 =
    .ok (.ioapicWriteEntry 2#8 0x30#8 .lowest .logical .low .level 0x0F#8) := by decide +kernel
-- V68: B 01 (masked), A 02, OP 11.
theorem test_decode_ioapicSetMask : decode .request 0x0000000000010211#64 = .ok (.ioapicSetMask 2#8 true) := by
  decide +kernel
-- V70: A FF, OP 20.
theorem test_decode_lapicEnable : decode .request 0x000000000000FF20#64 = .ok (.lapicEnable 0xFF#8) := by decide +kernel
-- V73: OP 21.
theorem test_decode_lapicEoi : decode .request 0x0000000000000021#64 = .ok .lapicEoi := by decide +kernel
-- V2, V10, V14, V12: the four ways a word is illegal (R72).
theorem test_decode_unknown_op : decode .request 0x0000000000000012#64 = .error .unknownOp := by decide +kernel
theorem test_decode_operand_of_none : decode .request 0x0000000000000102#64 = .error .mustBeZero := by decide +kernel
theorem test_decode_bit17_of_set_mask : decode .request 0x0000000000020111#64 = .error .mustBeZero := by decide +kernel
theorem test_decode_mode_011 : decode .request 0x0000000003210110#64 = .error .reservedDeliveryMode := by decide +kernel
-- V17, V28: a command-port byte with bit 4 is ICW1 in every init step (R74).
theorem test_decode_icw1 :
    decode (.pic .master .command .awaitIcw3) 0x11#64 = .ok (.icw1 .master 0x11#8) := by decide +kernel
-- V18: the first data byte after ICW1 is ICW2, whatever it was meant as.
theorem test_decode_icw2 : decode (.pic .master .data .awaitIcw2) 0x04#64 = .ok (.icw2 .master 0x04#8) := by decide +kernel
-- V19.
theorem test_decode_icw3 : decode (.pic .master .data .awaitIcw3) 0x20#64 = .ok (.icw3 .master 0x20#8) := by decide +kernel
theorem test_decode_icw4 : decode (.pic .slave .data .awaitIcw4) 0x01#64 = .ok (.icw4 .slave 0x01#8) := by decide +kernel
-- V22.
theorem test_decode_ocw1 : decode (.pic .master .data .ready) 0x5A#64 = .ok (.ocw1 .master 0x5A#8) := by decide +kernel
-- V23 and V28: 0x20 is the non-specific EOI only while the chip is Ready.
theorem test_decode_nonspecific_eoi :
    decode (.pic .slave .command .ready) 0x20#64 = .ok (.ocw2NonspecificEoi .slave) := by decide +kernel
theorem test_decode_eoi_during_init :
    decode (.pic .master .command .awaitIcw2) 0x20#64 = .ok (.ocw2Other .master 0x20#8) := by decide +kernel
-- V25.
theorem test_decode_specific_eoi :
    decode (.pic .master .command .ready) 0x60#64 = .ok (.ocw2Other .master 0x60#8) := by decide +kernel
-- V27.
theorem test_decode_ocw3 : decode (.pic .master .command .ready) 0x0B#64 = .ok (.ocw3 .master 0x0B#8) := by decide +kernel
-- V58.
theorem test_decode_index : decode (.mmio .ioapicIndex 0x33#8) 0x1FF#64 = .ok (.ioapicIndexWrite 0x1FF#32) := by
  decide +kernel
-- V64: index 0x14 is the low half of entry 2, 0x15 its high half (R86); the last index of 120 entries is 0xFF.
theorem test_decode_window_lo :
    decode (.mmio .ioapicWindow 0x14#8) 0x1A930#64 = .ok (.ioapicWindowWriteLo 2 0x1A930#32) := by decide +kernel
theorem test_decode_window_hi :
    decode (.mmio .ioapicWindow 0xFF#8) 0x0F000000#64 = .ok (.ioapicWindowWriteHi 119 0x0F000000#32) := by decide +kernel
-- V60: the version register is not modelled.
theorem test_decode_version_register : decode (.mmio .ioapicWindow 0x01#8) 0#64 = .error .ioapicRegister := by
  decide +kernel
theorem test_decode_svr : decode (.mmio .lapicSvr 0#8) 0x1FF#64 = .ok (.lapicSvrWrite 0x1FF#32) := by decide +kernel
theorem test_decode_tpr : decode (.mmio .lapicTpr 0#8) 0x30#64 = .ok (.lapicTprWrite 0x30#32) := by decide +kernel
theorem test_decode_eoi : decode (.mmio .lapicEoi 0#8) 0#64 = .ok (.lapicEoiWrite 0#32) := by decide +kernel
-- The table's numbering: a request, a byte on the master's command port, a word on the index register (log 18).
theorem test_table_words :
    decodeTableWord 64 0x282001 = some (.picInit 0x20#8 0x28#8) ∧
      decodeTableWord 8 0x20 = some (.ocw2NonspecificEoi .master) ∧
      decodeTableWord 32 0x12 = some (.ioapicIndexWrite 0x12#32) := by decide +kernel

/-! ### The start states of 95_test_vectors -/

/-- P1: the pair after `PIC_INIT 32, 40`. -/
def p1 : State :=
  { State.reset with picM := Pic.named.initialized 0x20#8 0x04#8, picS := Pic.named.initialized 0x28#8 0x02#8 }

/-- A1: the APIC pair after `LAPIC_ENABLE 0xFF`. -/
def a1 : State :=
  { State.reset with
    cfg := { Config.default with family := .apic }, lapic := { Lapic.named with svr := 0x000001FF#32 } }

/-- The state in which request `i` is in progress at its transaction `k`. -/
def during (i : Instr) (k : Nat) (s : State) : State :=
  { s with seq := { s.seq with phase := .busy, req := encode i, upc := BitVec.ofNat 4 k } }

/-- The state in which `x` is the next input. -/
def next (x : Input) (s : State) : State := { s with inputs := [x] }

/-- A property of the next state of an outcome. -/
abbrev Gives (o : Outcome) (p : State → Bool) : Prop :=
  (match o with
  | .next t => p t
  | .fault _ => false
  | .refused _ => false) = true

/-! ### One step on one small state -/

-- V1.
theorem test_picInit_accepted : Gives (exec (.picInit 32#8 40#8) State.reset) fun t =>
    t.seq.phase = .busy ∧ t.seq.upc = 0#4 ∧ t.seq.req = 0x282001#64 := by decide +kernel
-- V34: overlapping windows, fault 2.
theorem test_picInit_overlap : Gives (exec (.picInit 32#8 36#8) State.reset) fun t =>
    t.seq.phase = .faulted ∧ t.seq.fault = 2#4 ∧ t.hist = [] := by decide +kernel
-- V42, second read.
theorem test_picReadMasks_slave : Gives (exec .picReadMasks (during .picReadMasks 1 { p1 with
    seq := { p1.seq with res := 0x00FF#16 } })) fun t => t.seq.res = 0xFFFF#16 ∧ t.seq.phase = .idle := by decide +kernel
-- V43, first write.
theorem test_picWriteMasks_master : Gives (exec (.picWriteMasks 0xB8#8 0x8E#8) (during (.picWriteMasks 0xB8#8 0x8E#8) 0 p1))
    fun t => t.picM.imr = 0xB8#8 ∧ t.picS.imr = 0xFF#8 := by decide +kernel
-- V44: the write, after a read of 0x00.
theorem test_picMask_slave : Gives (exec (.picMask 12#8) (during (.picMask 12#8) 1 p1)) fun t =>
    t.picS.imr = 0x10#8 ∧ t.hist = [.bus .iow 0xA1#32 1 0x10#32] := by decide +kernel
-- V45.
theorem test_picMask_16 : Gives (exec (.picMask 16#8) p1) fun t => t.seq.fault = 3#4 := by decide +kernel
-- V47: the write, after a read of 0xFF.
theorem test_picUnmask_cascade : Gives (exec (.picUnmask 2#8) { during (.picUnmask 2#8) 1 p1 with
    seq := { (during (.picUnmask 2#8) 1 p1).seq with t := 0xFF#32 } }) fun t => t.picM.imr = 0xFB#8 := by decide +kernel
-- V50: during initialization the write is taken as ICW2.
theorem test_picUnmask_in_init : Gives (exec (.picUnmask 1#8) { during (.picUnmask 1#8) 1 p1 with
    seq := { (during (.picUnmask 1#8) 1 p1).seq with t := 0xFF#32 }, picM := { p1.picM with step := .awaitIcw2 } })
    fun t => t.picM.icw2 = 0xFD#8 ∧ t.picM.step = .awaitIcw3 ∧ t.picM.imr = 0xFF#8 := by decide +kernel
-- V49, second write.
theorem test_picUnmaskAll : Gives (exec .picUnmaskAll (during .picUnmaskAll 1 p1)) fun t =>
    t.picS.imr = 0x00#8 ∧ t.picM.imr = 0xFF#8 ∧ t.seq.phase = .idle := by decide +kernel
-- V54: one transaction, and it clears the smallest index.
theorem test_picEoi_2 : Gives (exec (.picEoi 2#8) (during (.picEoi 2#8) 0 { p1 with picM := { p1.picM with isr := 0x06#8 } }))
    fun t => t.picM.isr = 0x04#8 ∧ t.seq.phase = .idle := by decide +kernel
-- V57: the slave is being initialized.
theorem test_picEoi_in_init : Gives (exec (.picEoi 9#8) (during (.picEoi 9#8) 0 { p1 with
    picS := { p1.picS with step := .awaitIcw3 } })) fun t => t.refused = some .unmodelledCommand ∧ t.hist = [] := by
  decide +kernel
-- V64, the low half.
theorem test_ioapicWriteEntry_lo :
    let i : Instr := .ioapicWriteEntry 2#8 0x30#8 .lowest .logical .low .level 0x0F#8
    Gives (exec i (during i 1 { a1 with ioapic := { a1.ioapic with ioregsel := 0x14#8 } })) fun t =>
      t.ioapic.redir 2 = 0x000000000001A930#64 := by decide +kernel
-- V65.
theorem test_ioapicWriteEntry_24 : Gives (exec (.ioapicWriteEntry 24#8 0x21#8 .fixed .physical .high .edge 0#8) a1)
    fun t => t.seq.fault = 3#4 ∧ t.seq.phase = .faulted := by decide +kernel
-- V67, the write, when the read had the delivery-status bit set.
theorem test_ioapicSetMask_write : Gives (exec (.ioapicSetMask 2#8 false) { during (.ioapicSetMask 2#8 false) 2 a1 with
    seq := { (during (.ioapicSetMask 2#8 false) 2 a1).seq with t := 0x0001B930#32 }
    ioapic := { a1.ioapic with ioregsel := 0x14#8 } }) fun t => t.ioapic.redir 2 = 0x000000000000A930#64 := by
  decide +kernel
-- V71: the whole register is written.
theorem test_lapicEnable : Gives (exec (.lapicEnable 0x40#8) (during (.lapicEnable 0x40#8) 0 { a1 with
    lapic := { a1.lapic with svr := 0x000010FF#32 } })) fun t => t.lapic.svr = 0x00000140#32 := by decide +kernel
-- V73.
theorem test_lapicEoi : Gives (exec .lapicEoi (during .lapicEoi 0 { a1 with
    lapic := { a1.lapic with isr := setBit (setBit 0#256 0x21 true) 0x30 true, tmr := setBit 0#256 0x30 true }
    ioapic := { a1.ioapic with entries := [{ word := 0x30#64, remoteIrr := true }, { word := 0x31#64, remoteIrr := true },
      { word := 0x30#64, remoteIrr := true }] } })) fun t =>
    t.lapic.isr = setBit 0#256 0x21 true ∧ t.ioapic.entries.map Entry.remoteIrr = [false, true, false] := by decide +kernel
-- V17.
theorem test_icw1 : Gives (exec (.icw1 .master 0x11#8) p1) fun t =>
    t.picM.step = .awaitIcw2 ∧ t.picM.imr = 0#8 ∧ t.picM.icw1 = 0x11#8 ∧ t.picS.imr = 0xFF#8 := by decide +kernel
-- V21: IC4 = 0 clears ICW4.
theorem test_icw1_without_ic4 : Gives (exec (.icw1 .master 0x10#8) p1) fun t => t.picM.icw4 = 0#8 := by decide +kernel
-- V20: single mode skips ICW3.
theorem test_icw2_single : Gives (exec (.icw2 .slave 0x28#8) { p1 with picS := { p1.picS with icw1 := 0x13#8 } }) fun t =>
    t.picS.step = .awaitIcw4 ∧ t.picS.icw2 = 0x28#8 := by decide +kernel
-- V19.
theorem test_icw3 : Gives (exec (.icw3 .master 0x20#8) p1) fun t =>
    t.picM.step = .awaitIcw4 ∧ t.picM.icw3 = 0x20#8 ∧ t.picModelled = false := by decide +kernel
theorem test_icw4 : Gives (exec (.icw4 .master 0x01#8) { p1 with picM := { p1.picM with step := .awaitIcw4 } }) fun t =>
    t.picM.step = .ready ∧ t.picModelled = true := by decide +kernel
-- V22.
theorem test_ocw1 : Gives (exec (.ocw1 .master 0x5A#8) p1) fun t => t.picM.imr = 0x5A#8 ∧ t.picS = p1.picS := by
  decide +kernel
-- V23.
theorem test_nonspecific_eoi : Gives (exec (.ocw2NonspecificEoi .master) { p1 with picM := { p1.picM with isr := 0x06#8 } })
    fun t => t.picM.isr = 0x04#8 := by decide +kernel
-- V25, V27.
theorem test_ocw2Other : Gives (exec (.ocw2Other .master 0x60#8) p1) fun t =>
    t = { p1 with refused := some .unmodelledCommand } := by decide +kernel
theorem test_ocw3 : Gives (exec (.ocw3 .master 0x0B#8) p1) fun t =>
    t = { p1 with refused := some .unmodelledCommand } := by decide +kernel
-- V58.
theorem test_index_write : Gives (exec (.ioapicIndexWrite 0x1FF#32) a1) fun t => t.ioapic.ioregsel = 0xFF#8 := by
  decide +kernel
-- V61, V62.
theorem test_window_lo : Gives (exec (.ioapicWindowWriteLo 0 0xFFFFFFFF#32) a1) fun t =>
    t.ioapic.redir 0 = 0x00000000FFFFAFFF#64 := by decide +kernel
theorem test_window_hi : Gives (exec (.ioapicWindowWriteHi 0 0xFFFFFFFF#32) a1) fun t =>
    t.ioapic.redir 0 = 0xFFFFFFFF00010000#64 := by decide +kernel
-- R136, R138, R139.
theorem test_svr_write : Gives (exec (.lapicSvrWrite 0xDEADBEEF#32) a1) fun t => t.lapic.svr = 0xDEADBEEF#32 := by
  decide +kernel
theorem test_tpr_write : Gives (exec (.lapicTprWrite 0x30#32) a1) fun t => t.lapic.tpr = 0x30#32 ∧ t.lapic.svr = a1.lapic.svr := by
  decide +kernel
theorem test_eoi_write : Gives (exec (.lapicEoiWrite 0x12345678#32) { a1 with
    lapic := { a1.lapic with isr := setBit 0#256 0x30 true } }) fun t => t.lapic.isr = 0#256 := by decide +kernel
-- W7, W4: a table word is fetched and run as the first instruction.
theorem test_fetched_word_runs : Gives (step (State.reset.withFetchWord 64 0x282001)) fun t =>
    t.seq.phase = .busy ∧ t.seq.req = 0x282001#64 := by decide +kernel
-- V30, V31: the levels a command-port read shows.
theorem test_irr_read_shows_the_slave : Gives (step (next (.raw (.ioRead 0x20#16 1)) { p1 with
    picS := { p1.picS with imr := 0#8, irr := 0x01#8 } })) fun t => t.hist = [.bus .ior 0x20#32 1 0x04#32] := by
  decide +kernel

/-! ### States and operands that meet the statements' hypotheses -/

/-- An outcome that gives something is a next state with it. -/
theorem exists_of {o : Outcome} (p : State → Prop) [DecidablePred p] (h : Gives o fun t => p t) :
    ∃ t, o = .next t ∧ p t := by
  cases o with
  | next t => exact ⟨t, rfl, of_decide_eq_true h⟩
  | fault f => cases h
  | refused r => cases h

/-- A state that holds one entry and one pin, with the entry's word given. -/
def oneEntry (w : Word64) : State :=
  { a1 with
    cfg := { a1.cfg with nRedir := 1 }
    ioapic := { a1.ioapic with entries := [{ word := w, remoteIrr := false }] }
    env := { a1.env with pin := [false] } }

/-- The invariant of a state whose sequencer is Idle or Faulted, from facts that evaluate. -/
theorem inv_of_rest {s : State} (h1 : validConfig s.cfg = true) (h2 : s.ioapic.entries.length = s.cfg.nRedir)
    (h3 : s.env.pin.length = s.cfg.nRedir)
    (h4 : ∀ e ∈ s.ioapic.entries, e.word.getLsbD 12 = false ∧ e.word.getLsbD 14 = false)
    (h5 : s.seq.phase = .idle ∧ s.seq.upc = 0#4 ∧ s.seq.fault = 0#4) : s.Inv :=
  ⟨h1, h2, h3, h4, fun _ => h5.2.1, fun h => by simp [h5.1] at h, by simp [h5.1, h5.2.2]⟩

theorem met_ResetSatisfiesTheInvariant :
    validConfig a1.cfg = true ∧ (Ioapic.named 24).entries.length = a1.cfg.nRedir ∧
      (List.replicate 24 true).length = a1.cfg.nRedir ∧
      ∀ e ∈ (Ioapic.named 24).entries, e.word.getLsbD 12 = false ∧ e.word.getLsbD 14 = false := by decide +kernel

/-- The invariant holds of a Busy state. -/
theorem busy_inv : (during (.lapicEnable 0xFF#8) 0 (oneEntry 0#64)).Inv :=
  ⟨by decide +kernel, rfl, rfl, by decide +kernel, by decide, fun _ => by decide +kernel, by decide⟩

theorem met_StepKeepsTheInvariant :
    (during (.lapicEnable 0xFF#8) 0 (oneEntry 0#64)).Inv ∧
      ∃ t, step (during (.lapicEnable 0xFF#8) 0 (oneEntry 0#64)) = .next t ∧ t.seq.phase = .idle :=
  ⟨busy_inv, exists_of (fun t => t.seq.phase = .idle) (by decide +kernel)⟩

theorem met_DecodeInvertsEncode : (Instr.ioapicWindowWriteHi 119 0xFFFFFFFF#32).wellFormed = true ∧
    (Instr.ocw3 .slave 0x0B#8).wellFormed = true ∧ (Instr.icw1 .master 0x11#8).wellFormed = true := by decide

theorem met_EncodeInvertsDecodeOfRequests :
    decode .request 0x000000FF3FFFFF10#64 = .ok (.ioapicWriteEntry 0xFF#8 0xFF#8 .extint .logical .low .level 0xFF#8) := by
  decide +kernel

theorem met_StepRunsTheSubmittedRequest :
    let s := next (.submit 0xFF20#64) a1
    s.refused = none ∧ s.seq.phase = .idle ∧ s.inputs = .submit 0xFF20#64 :: [] ∧
      decode .request 0xFF20#64 = .ok (.lapicEnable 0xFF#8) ∧
      (opcodeOf (.lapicEnable 0xFF#8)).map Opcode.family = some s.cfg.family := by decide +kernel

theorem met_StepRunsTheRequestInProgress :
    let s := during (.picEoi 9#8) 1 p1
    s.refused = none ∧ s.seq.phase = .busy ∧ decode .request s.seq.req = .ok (.picEoi 9#8) ∧ s.inputs = [] ∧
      (next .sequencer s).inputs = .sequencer :: [] := by decide +kernel

theorem met_StepRunsTheRawWrite :
    (let s := next (.raw (.ioWrite 0xA1#16 1 0x28#32)) p1
     s.refused = none ∧ s.seq.phase ≠ .busy ∧ s.cfg.family = .pic ∧ s.inputs = .raw (.ioWrite 0xA1#16 1 0x28#32) :: [] ∧
      0xA1#16 = portAddr .slave .data ∧ decode (.pic .slave .data (s.pic .slave).step) 0x28#64 = .ok (.ocw1 .slave 0x28#8)) ∧
    (let s := next (.raw (.memWrite 0xFEE00080#32 4 0x30#32)) a1
     s.refused = none ∧ s.seq.phase ≠ .busy ∧ s.cfg.family = .apic ∧ validConfig s.cfg = true ∧
      s.inputs = .raw (.memWrite (regAddr s.cfg .lapicTpr) 4 0x30#32) :: [] ∧
      decode (.mmio .lapicTpr s.ioapic.ioregsel) 0x30#64 = .ok (.lapicTprWrite 0x30#32)) := by decide +kernel

theorem met_BusWritesAgreeWithDecodedInstructions :
    p1.seq.phase ≠ .busy ∧ decode (.pic .master .command (p1.pic .master).step) 0x20#64 = .ok (.ocw2NonspecificEoi .master) ∧
      a1.seq.phase ≠ .busy ∧ validConfig a1.cfg = true ∧
      decode (.mmio .lapicEoi a1.ioapic.ioregsel) 7#64 = .ok (.lapicEoiWrite 7#32) ∧
      (let s := during (.picEoi 9#8) 0 p1
       s.refused = none ∧ s.seq.phase = .busy ∧ s.nextInput = .sequencer ∧ p1.seq.phase ≠ .busy ∧
        Gives (step s) (fun t => t.hist = s.hist ++ [evIow (portAddr .slave .command) 0x20#8]) ∧
        decode (.pic .slave .command (s.pic .slave).step) 0x20#64 = .ok (.ocw2NonspecificEoi .slave)) ∧
      (let s := during .lapicEoi 0 a1
       s.refused = none ∧ s.seq.phase = .busy ∧ s.nextInput = .sequencer ∧ validConfig s.cfg = true ∧
        Gives (step s) (fun t => t.hist = s.hist ++ [evMw (regAddr s.cfg .lapicEoi) 0#32]) ∧
        decode (.mmio .lapicEoi s.ioapic.ioregsel) 0#64 = .ok (.lapicEoiWrite 0#32)) := by decide +kernel

-- V1, V9, V7: one word for each verdict.
theorem met_SubmissionFollowsTheOrderOfChecks :
    (∀ s ∈ [next (.submit 0x282001#64) p1, next (.submit 0x01282001#64) p1, next (.submit 0x1004#64) p1,
        next (.submit 0x1004#64) a1], s.refused = none ∧ s.seq.phase = .idle) ∧
      (next (.submit 0x1004#64) a1).inputs = .submit 0x1004#64 :: [] ∧
      submitVerdict p1.cfg 0x282001#64 = .accepted ∧ submitVerdict p1.cfg 0x01282001#64 = .fault .illegalRequest ∧
      submitVerdict p1.cfg 0x1004#64 = .fault .lineOutOfRange ∧ submitVerdict a1.cfg 0x1004#64 = .familyAbsent := by
  decide +kernel

theorem met_RequestsAreAccepted :
    p1.seq.phase = .idle ∧ (opcodeOf (.picEoi 15#8)).map Opcode.family = some p1.cfg.family ∧
      contractFault p1.cfg (.picEoi 15#8) = none ∧ a1.seq.phase = .idle ∧
      (opcodeOf (.ioapicSetMask 23#8 true)).map Opcode.family = some a1.cfg.family ∧
      contractFault a1.cfg (.ioapicSetMask 23#8 true) = none := by decide +kernel

theorem met_ContractViolationsTakeTheFault :
    p1.seq.phase = .idle ∧ (opcodeOf (.picInit 32#8 39#8)).map Opcode.family = some p1.cfg.family ∧
      contractFault p1.cfg (.picInit 32#8 39#8) = some .badVectorBase ∧
      contractFault a1.cfg (.ioapicSetMask 24#8 true) = some .lineOutOfRange := by decide +kernel

theorem met_AbsentFamilyRequestsAreRefused :
    a1.seq.phase = .idle ∧ (opcodeOf (.picMask 16#8)).map Opcode.family = some .pic ∧ Family.pic ≠ a1.cfg.family := by
  decide +kernel

theorem met_BusyMachineRefusesTheHost :
    let s := during .picReadMasks 0 p1
    s.refused = none ∧ s.seq.phase = .busy ∧ (next (.submit 2#64) s).inputs = .submit 2#64 :: [] ∧
      (next (.raw (.ioRead 0x21#16 1)) s).inputs = .raw (.ioRead 0x21#16 1) :: [] := by decide +kernel

theorem met_RefusalsMarkAndEndTheRun :
    (∃ t, step (next (.raw (.ioRead 0x22#16 1)) p1) = .next t ∧ t.refused = some .unmodelledAddress) ∧
      ({ p1 with refused := some .busy } : State).refused = some .busy :=
  ⟨exists_of (fun t => t.refused = some .unmodelledAddress) (by decide +kernel), rfl⟩

/-- P1 after a fault. -/
def faulted : State := { p1 with seq := p1.seq.faultedWith .illegalRequest 0#64 }

theorem met_FaultedPhaseIsPermanent :
    faulted.seq.phase = .faulted ∧
      (∃ t, step (next (.raw (.ioRead 0x21#16 1)) faulted) = .next t ∧ t.hist = [.bus .ior 0x21#32 1 0xFF#32]) ∧
      faulted.refused = none ∧ (next (.submit 2#64) faulted).inputs = .submit 2#64 :: [] :=
  ⟨rfl, exists_of (fun t => t.hist = [.bus .ior 0x21#32 1 0xFF#32]) (by decide +kernel), rfl, rfl⟩

theorem met_BusySequencerAlwaysSteps :
    let s := during (.lapicEnable 0xFF#8) 0 (oneEntry 0#64)
    let u : State := { s with inputs := [.sequencer, .cpuIntaLapic] }
    s.Inv ∧ s.refused = none ∧ s.seq.phase = .busy ∧ s.inputs = [] ∧ s.nextInput = .sequencer ∧
      u.Inv ∧ u.refused = none ∧ u.seq.phase = .busy ∧ u.nextInput = .sequencer :=
  ⟨busy_inv, rfl, rfl, rfl, rfl, ⟨busy_inv.1, busy_inv.2, busy_inv.3, busy_inv.4, busy_inv.5, busy_inv.6, busy_inv.7⟩,
    rfl, rfl, rfl⟩

/-- A chip in an init step after ICW1 0x11. -/
def inStep (x : InitStep) : Pic := { Pic.named with icw1 := 0x11#8, step := x }

theorem met_PicInitTransactions :
    let i : Instr := .picInit 32#8 40#8
    let init (k : Nat) (x : InitStep) : State := during i k { p1 with picM := inStep x, picS := inStep x }
    p1.cfg.family = .pic ∧ (∀ k < 10, atTransaction i k (during i k p1)) ∧
      (∀ k ∈ [2, 3], atTransaction i k (init k .awaitIcw2) ∧ (init k .awaitIcw2).picM.step = .awaitIcw2 ∧
        (init k .awaitIcw2).picS.step = .awaitIcw2 ∧ (init k .awaitIcw2).picM.icw1 = 0x11#8 ∧
        (init k .awaitIcw2).picS.icw1 = 0x11#8) ∧
      (∀ k ∈ [4, 5], atTransaction i k (init k .awaitIcw3) ∧ (init k .awaitIcw3).picM.step = .awaitIcw3 ∧
        (init k .awaitIcw3).picS.step = .awaitIcw3 ∧ (init k .awaitIcw3).picM.icw1 = 0x11#8 ∧
        (init k .awaitIcw3).picS.icw1 = 0x11#8) ∧
      (∀ k ∈ [6, 7], atTransaction i k (init k .awaitIcw4) ∧ (init k .awaitIcw4).picM.step = .awaitIcw4 ∧
        (init k .awaitIcw4).picS.step = .awaitIcw4) ∧
      (during i 8 p1).picM.step = .ready ∧ (during i 9 p1).picS.step = .ready := by decide +kernel

theorem met_PicInitRunsToItsEndState :
    let s := next (.submit (encode (.picInit 39#8 47#8))) p1
    s.refused = none ∧ s.cfg.family = .pic ∧ s.seq.phase = .idle ∧ contractFault s.cfg (.picInit 39#8 47#8) = none ∧
      s.inputs = [.submit (encode (.picInit 39#8 47#8))] := by decide +kernel

-- V39: edges before, between and after the transactions; the ones before a chip's ICW1 are lost.
theorem met_PicInitEndStateWithEdges :
    let xs : List Input := [.picEdge 1, .sequencer, .picEdge 4, .picEdge 8, .sequencer, .picEdge 15] ++
      List.replicate 8 .sequencer ++ [.picEdge 0]
    let s : State := { p1 with inputs := .submit (encode (.picInit 32#8 40#8)) :: xs }
    s.refused = none ∧ s.cfg.family = .pic ∧ s.seq.phase = .idle ∧ contractFault s.cfg (.picInit 32#8 40#8) = none ∧
      xs.count .sequencer = 10 ∧ (∀ x ∈ xs, x = .sequencer ∨ ∃ l, l < 16 ∧ l ≠ 2 ∧ x = .picEdge l) ∧
      Gives (runs (xs.length + 1) s) (fun t => t.picM.irr = 0x11#8 ∧ t.picS.irr = 0x80#8) := by decide +kernel

theorem met_PicReadMasksTransactions : p1.cfg.family = .pic ∧
    (∀ k < 2, atTransaction .picReadMasks k (during .picReadMasks k p1)) := by decide +kernel

theorem met_MaskWriteTransactions : p1.cfg.family = .pic ∧ p1.picM.step = .ready ∧
    (∀ x ∈ [InitStep.ready, .awaitIcw2, .awaitIcw3, .awaitIcw4],
      let s : State := { p1 with picM := inStep x, picS := inStep x }
      s.cfg.family = .pic ∧ s.picM.step = x ∧ s.picS.step = x ∧
      (∀ k < 2, atTransaction (.picWriteMasks 1#8 2#8) k (during (.picWriteMasks 1#8 2#8) k s)) ∧
      (∀ k < 2, atTransaction .picUnmaskAll k (during .picUnmaskAll k s))) := by decide +kernel

theorem met_MaskReadTransactions : p1.cfg.family = .pic ∧ (7#8).toNat < 16 ∧ (15#8).toNat < 16 ∧
    atTransaction (.picMask 7#8) 0 (during (.picMask 7#8) 0 p1) ∧
    atTransaction (.picUnmask 15#8) 0 (during (.picUnmask 15#8) 0 p1) := by decide +kernel

theorem met_MaskUpdateTransactions :
    ∀ p ∈ [p1, { p1 with picM := inStep .awaitIcw2, picS := inStep .awaitIcw3 }],
    let s (i : Instr) : State := { during i 1 p with seq := { (during i 1 p).seq with t := 0xFF#32 } }
    (s (.picMask 7#8)).cfg.family = .pic ∧ (7#8).toNat < 8 ∧ 8 ≤ (8#8).toNat ∧ (8#8).toNat < 16 ∧
      (s (.picMask 7#8)).seq.t = (0xFF#8).setWidth 32 ∧
      atTransaction (.picMask 7#8) 1 (s (.picMask 7#8)) ∧ atTransaction (.picUnmask 7#8) 1 (s (.picUnmask 7#8)) ∧
      atTransaction (.picMask 8#8) 1 (s (.picMask 8#8)) ∧ atTransaction (.picUnmask 8#8) 1 (s (.picUnmask 8#8)) := by
  decide +kernel

theorem met_PicEoiTransactions :
    let w : State := { p1 with picM := inStep .awaitIcw3, picS := inStep .awaitIcw3 }
    p1.picM.step = .ready ∧ p1.picS.step = .ready ∧ w.picM.step ≠ .ready ∧ w.picS.step ≠ .ready ∧
    ∀ s ∈ [p1, w], s.cfg.family = .pic ∧
    (7#8).toNat < 8 ∧ 8 ≤ (8#8).toNat ∧ (8#8).toNat < 16 ∧ atTransaction (.picEoi 7#8) 0 (during (.picEoi 7#8) 0 s) ∧
    atTransaction (.picEoi 8#8) 0 (during (.picEoi 8#8) 0 s) ∧
    atTransaction (.picEoi 8#8) 1 (during (.picEoi 8#8) 1 s) := by decide +kernel

theorem met_PicEoiHistory :
    let s (l : Byte) := next (.submit (encode (.picEoi l))) p1
    (s 8#8).refused = none ∧ (s 8#8).cfg.family = .pic ∧ (s 8#8).seq.phase = .idle ∧ (s 8#8).picM.step = .ready ∧
      (s 8#8).picS.step = .ready ∧ (s 8#8).inputs = [.submit (encode (.picEoi 8#8))] ∧ 8 ≤ (8#8).toNat ∧
      (8#8).toNat < 16 ∧ (s 7#8).inputs = [.submit (encode (.picEoi 7#8))] ∧ (7#8).toNat < 8 := by decide +kernel

theorem met_ReadMasksAfterWriteMasksOrInit :
    (let s : State := { p1 with inputs := [.submit (encode (.picWriteMasks 0xB8#8 0x8E#8)), .sequencer, .sequencer,
      .submit (encode .picReadMasks)] }
     s.refused = none ∧ s.cfg.family = .pic ∧ s.seq.phase = .idle ∧ s.picM.step = .ready ∧ s.picS.step = .ready) ∧
    (let s : State := { p1 with picM := inStep .awaitIcw4, inputs := .submit (encode (.picInit 32#8 40#8)) ::
      (List.replicate 10 .sequencer ++ [.submit (encode .picReadMasks)]) }
     s.refused = none ∧ s.cfg.family = .pic ∧ s.seq.phase = .idle ∧ contractFault s.cfg (.picInit 32#8 40#8) = none) := by
  decide +kernel

theorem met_MaskPairsRestoreTheByte :
    ∀ masked : Bool, let s : State := { p1 with inputs := if masked
      then [.submit (encode (.picUnmask 15#8)), .sequencer, .sequencer, .submit (encode (.picMask 15#8))]
      else [.submit (encode (.picMask 15#8)), .sequencer, .sequencer, .submit (encode (.picUnmask 15#8))] }
    s.refused = none ∧ s.cfg.family = .pic ∧ s.seq.phase = .idle ∧ (15#8).toNat < 16 ∧ s.picM.step = .ready ∧
      s.picS.step = .ready := by decide +kernel

theorem met_UnmaskAllIsWriteMasksZero : p1.refused = none ∧ p1.cfg.family = .pic ∧ p1.seq.phase = .idle := by
  decide +kernel

theorem met_Icw1Response : p1.cfg.family = .pic ∧ p1.seq.phase ≠ .busy := by decide +kernel
theorem met_DataPortResponses : p1.cfg.family = .pic ∧ p1.seq.phase ≠ .busy := by decide +kernel

theorem met_NonspecificEoiResponse :
    let s : State := { p1 with picM := { p1.picM with isr := 0x80#8 } }
    s.cfg.family = .pic ∧ s.seq.phase ≠ .busy ∧ (s.pic .slave).step = .ready ∧ (s.pic .slave).isr = 0#8 ∧
      (s.pic .master).step = .ready ∧ (s.pic .master).isr.getLsbD 7 = true ∧
      ∀ j < 7, (s.pic .master).isr.getLsbD j = false := by decide +kernel

theorem met_UnmodelledCommandsAreRefused : p1.cfg.family = .pic ∧ p1.seq.phase ≠ .busy ∧
    (({ p1 with picS := inStep .awaitIcw3 } : State).pic .slave).step ≠ .ready := by decide +kernel

theorem met_ChipWritesCommute :
    (∃ t, portWrite (portAddr .master .data) 0x01#8 p1 = .ok t ∧ ∃ u, portWrite (portAddr .slave .command) 0x11#8 t = .ok u) :=
  ⟨_, rfl, _, rfl⟩

theorem met_RawReadsReturnTheRegisters :
    let window (x : Byte) : State := next (.raw (.memRead 0xFEC00010#32 4)) { a1 with
      ioapic := { a1.ioapic with ioregsel := x } }
    (∀ p ∈ [PicPort.data, PicPort.command], ∀ c ∈ [Chip.master, Chip.slave],
      let s := next (.raw (.ioRead (portAddr c p) 1)) p1
      s.refused = none ∧ s.seq.phase ≠ .busy ∧ s.cfg.family = .pic ∧ s.inputs = .raw (.ioRead (portAddr c p) 1) :: []) ∧
    (∀ r ∈ [MmioReg.ioapicIndex, .ioapicWindow, .lapicTpr, .lapicEoi, .lapicSvr],
      let s := next (.raw (.memRead (regAddr a1.cfg r) 4)) a1
      s.refused = none ∧ s.seq.phase ≠ .busy ∧ s.cfg.family = .apic ∧ validConfig s.cfg = true) ∧
    (window 0x3F#8).inputs = .raw (.memRead ((window 0x3F#8).cfg.ioapicBase + 0x10#32) 4) :: [] ∧
    (window 0x0F#8).ioapic.ioregsel.toNat < 0x10 ∧
    0x10 + 2 * (window 0x40#8).cfg.nRedir ≤ (window 0x40#8).ioapic.ioregsel.toNat ∧
    23 < (window 0x3F#8).cfg.nRedir ∧ (window 0x3F#8).ioapic.ioregsel.toNat = 0x11 + 2 * 23 ∧
    (window 0x3E#8).ioapic.ioregsel.toNat = 0x10 + 2 * 23 ∧ ((window 0x3E#8).ioapic.redir 23).getLsbD 12 = false ∧
    ((window 0x3E#8).ioapic.redir 23).getLsbD 14 = false := by decide +kernel

theorem met_UnmodelledAccessesAreRefused :
    p1.refused = none ∧ p1.seq.phase ≠ .busy ∧ (2 : Nat) ≠ 1 ∧ 0x22#16 ∉ [0x20#16, 0x21#16, 0xA0#16, 0xA1#16] ∧
      p1.cfg.family = .pic ∧ a1.refused = none ∧ a1.seq.phase ≠ .busy ∧ a1.cfg.family = .apic ∧
      (0xFEE00082#32).toNat % 4 ≠ 0 ∧ (0xFEC00004#32).toNat % 4 = 0 ∧
      0xFEC00004#32 ∉ [a1.cfg.ioapicBase, a1.cfg.ioapicBase + 0x10#32, a1.cfg.lapicBase + 0x080#32,
        a1.cfg.lapicBase + 0x0B0#32, a1.cfg.lapicBase + 0x0F0#32] := by decide +kernel

theorem met_WriteEntryTransactions :
    let i : Instr := .ioapicWriteEntry 23#8 0x30#8 .lowest .logical .low .level 0x0F#8
    a1.cfg.family = .apic ∧ validConfig a1.cfg = true ∧ (23#8).toNat < a1.cfg.nRedir ∧
      (∀ k < 4, atTransaction i k (during i k a1)) ∧ (0x3E#8).toNat = 0x10 + 2 * (23#8).toNat ∧
      (0x3F#8).toNat = 0x11 + 2 * (23#8).toNat := by decide +kernel

theorem met_SetMaskTransactions :
    let i : Instr := .ioapicSetMask 0#8 false
    let s : State := { during i 2 a1 with
      seq := { (during i 2 a1).seq with t := 0x00011000#32 }, ioapic := { a1.ioapic with ioregsel := 0x10#8 } }
    s.cfg.family = .apic ∧ validConfig s.cfg = true ∧ (0#8).toNat < s.cfg.nRedir ∧
      (∀ k < 3, atTransaction i k (during i k a1)) ∧ atTransaction i 2 s ∧ s.ioapic.ioregsel.toNat = 0x10 + 2 * (0#8).toNat ∧
      (s.ioapic.redir 0).getLsbD 12 = false ∧ (s.ioapic.redir 0).getLsbD 14 = false ∧
      ∀ j < 32, j ≠ 12 → j ≠ 14 → s.seq.t.getLsbD j = (s.ioapic.redir 0).getLsbD j := by decide +kernel

theorem met_RedirectionEntryProperties :
    (let s : State := { a1 with inputs := [.submit (encode (.ioapicWriteEntry 1#8 0x21#8 .fixed .physical .high .edge 0#8)),
      .sequencer, .sequencer, .sequencer, .sequencer,
      .raw (.memWrite a1.cfg.ioapicBase 4 (BitVec.ofNat 32 (0x10 + 2 * (1#8).toNat))),
      .raw (.memRead (a1.cfg.ioapicBase + 0x10#32) 4), .submit (encode (.ioapicSetMask 1#8 false))] }
     s.Inv ∧ s.refused = none ∧ s.cfg.family = .apic ∧ s.seq.phase = .idle ∧ (1#8).toNat < s.cfg.nRedir) ∧
    (let s : State := { a1 with inputs := [.submit (encode (.ioapicSetMask 23#8 true)), .sequencer, .sequencer, .sequencer,
      .submit (encode (.ioapicSetMask 23#8 false))] }
     s.Inv ∧ s.refused = none ∧ s.cfg.family = .apic ∧ s.seq.phase = .idle ∧ (23#8).toNat < s.cfg.nRedir) :=
  ⟨⟨inv_of_rest (by decide +kernel) rfl rfl (by decide +kernel) ⟨rfl, rfl, rfl⟩, rfl, rfl, rfl, by decide +kernel⟩,
    inv_of_rest (by decide +kernel) rfl rfl (by decide +kernel) ⟨rfl, rfl, rfl⟩, rfl, rfl, rfl, by decide +kernel⟩

theorem met_LapicEnableTransaction : a1.cfg.family = .apic ∧ validConfig a1.cfg = true ∧
    atTransaction (.lapicEnable 0xFF#8) 0 (during (.lapicEnable 0xFF#8) 0 a1) := by decide +kernel

theorem met_LapicEoiEndsTheHighestVector :
    let s : State := { a1 with lapic := { a1.lapic with isr := setBit 0#256 255 true } }
    a1.lapic.isr = 0#256 ∧ 255 < 256 ∧ s.lapic.isr.getLsbD 255 = true ∧ ∀ y, 255 < y → s.lapic.isr.getLsbD y = false :=
  ⟨rfl, by decide, by decide +kernel, fun y hy => BitVec.getLsbD_of_ge _ y (by omega)⟩

theorem met_LapicEoiTransaction : a1.cfg.family = .apic ∧ validConfig a1.cfg = true ∧
    atTransaction .lapicEoi 0 (during .lapicEoi 0 a1) := by decide +kernel

theorem met_RegisterWriteResponses : a1.cfg.family = .apic ∧ a1.seq.phase ≠ .busy := by decide +kernel

-- V60: the index of the version register, and the first index above the table.
theorem met_WindowWriteResponses : a1.cfg.family = .apic ∧ a1.seq.phase ≠ .busy ∧ 23 < a1.cfg.nRedir ∧
    a1.cfg.nRedir ≤ 24 ∧ validConfig a1.cfg = true ∧
    (∀ x ∈ [0x0F, 0x40],
      let s := next (.raw (.memWrite 0xFEC00010#32 4 7#32)) { a1 with ioapic := { a1.ioapic with ioregsel := BitVec.ofNat 8 x } }
      s.refused = none ∧ s.inputs = .raw (.memWrite (s.cfg.ioapicBase + 0x10#32) 4 7#32) :: [] ∧
        (s.ioapic.ioregsel.toNat < 0x10 ∨ 0x10 + 2 * s.cfg.nRedir ≤ s.ioapic.ioregsel.toNat)) := by decide +kernel

theorem met_EdgeLatchesTheRequest : p1.refused = none ∧ p1.cfg.family = .pic ∧ (7 : Nat) < 8 ∧ (7 : Nat) ≠ 2 ∧
    (8 : Nat) < 16 ∧ (next (.picEdge 7) p1).inputs = .picEdge 7 :: [] ∧ (next (.picEdge 8) p1).inputs = .picEdge 8 :: [] := by
  decide +kernel

/-- P1 with every mask open, the given requests, and the latch set. -/
def pending (m sl : Byte) : State :=
  { p1 with
    picM := { p1.picM with imr := 0#8, irr := m }, picS := { p1.picS with imr := 0#8, irr := sl }
    env := { p1.env with picIntLatch := true }, inputs := [.cpuIntaPic] }

theorem met_PicAcknowledgeDelivers :
    (pending 0#8 0#8).refused = none ∧ (pending 0#8 0#8).cfg.family = .pic ∧ (pending 0#8 0#8).env.picIntLatch = true ∧
      (pending 0#8 0#8).picModelled = true ∧ (pending 0#8 0#8).inputs = .cpuIntaPic :: [] ∧
      (pending 0#8 0#8).intM = false ∧
      (pending 0x80#8 0#8).intM = true ∧ highestPri8 ((pending 0x80#8 0#8).reqOf .master) = some 7 ∧
      (pending 0#8 0x80#8).intM = true ∧ highestPri8 ((pending 0#8 0x80#8).reqOf .master) = some 2 := by decide +kernel

theorem met_PicAcknowledgeOutsideTheConfigurationIsRefused :
    let s : State := { pending 0#8 0#8 with picM := { p1.picM with icw3 := 0x20#8 } }
    s.refused = none ∧ s.cfg.family = .pic ∧ s.env.picIntLatch = true ∧ s.picModelled = false ∧
      s.inputs = .cpuIntaPic :: [] := by decide +kernel

/-- `pending`, with the given lines in service. -/
def nested (m sl mIsr slIsr : Byte) : State :=
  let s := pending m sl
  { s with picM := { s.picM with isr := mIsr }, picS := { s.picS with isr := slIsr } }

-- V83: line 1 nests on line 9; V84: line 3 does not; R154: line 8 neither, nor line 9 on itself; the slave's own bit 3 holds
-- back line 11 and lets line 10 through.
theorem met_PicPriorityOrder :
    (∀ s ∈ [nested 0x08#8 0x80#8 0#8 0#8, nested 0x02#8 0#8 0x04#8 0x02#8, nested 0x08#8 0x03#8 0x04#8 0x02#8,
        nested 0#8 0x0C#8 0#8 0x08#8, nested 0x08#8 0x08#8 0#8 0x08#8],
      s.refused = none ∧ s.cfg.family = .pic ∧ s.env.picIntLatch = true ∧ s.picModelled = true ∧
        s.inputs = .cpuIntaPic :: []) ∧
    winningLine (nested 0x08#8 0x80#8 0#8 0#8) = some 15 ∧ winningLine (nested 0x02#8 0#8 0x04#8 0x02#8) = some 1 ∧
    winningLine (nested 0x08#8 0x03#8 0x04#8 0x02#8) = none ∧ winningLine (nested 0#8 0x0C#8 0#8 0x08#8) = some 10 ∧
    winningLine (nested 0x08#8 0x08#8 0#8 0x08#8) = some 3 := by decide +kernel

theorem met_InServiceGatesTheOutputs :
    (let s := nested 0x02#8 0#8 0x02#8 0#8
     s.picM.isr.getLsbD 1 = true ∧ (∀ i < 1, (s.reqOf .master).getLsbD i = false) ∧ (s.reqOf .master).getLsbD 1 = true) ∧
    (let s := nested 0#8 0x08#8 0#8 0x08#8
     s.picS.isr.getLsbD 3 = true ∧ (∀ i < 3, (s.reqOf .slave).getLsbD i = false) ∧ (s.reqOf .slave).getLsbD 3 = true) ∧
    (nested 0x02#8 0#8 0x04#8 0x02#8).intM = true ∧ (nested 0#8 0x04#8 0#8 0x08#8).intS = true ∧
    (nested 0#8 0x04#8 0#8 0x08#8).intM = true := by decide +kernel

theorem met_MaskedCascadeHidesTheSlave : p1.picM.imr.getLsbD 2 = true := by decide +kernel

/-- One unmasked, edge-triggered, high entry with vector 0x30 and the given delivery mode, and the pin about to rise. -/
def rising (w : Word64) : State := { oneEntry w with inputs := [.pin 0 true] }

theorem met_PinEdgeSendsTheMessage :
    let e := (rising 0x30#64).ioapic.redir 0
    (rising 0x30#64).refused = none ∧ (rising 0x30#64).cfg.family = .apic ∧ 0 < (rising 0x30#64).cfg.nRedir ∧
      (rising 0x30#64).inputs = .pin 0 true :: [] ∧ e.getLsbD 15 = false ∧ e.getLsbD 16 = false ∧
      lapicMatches (rising 0x30#64).cfg (e.getLsbD 11) (e.extractLsb' 56 8) = true ∧
      ((rising 0x30#64).env.level 0 ^^ e.getLsbD 13) = false ∧ (true ^^ e.getLsbD 13) = true ∧
      e.extractLsb' 8 3 = 0#3 ∧ 0x10 ≤ (e.extractLsb' 0 8).toNat ∧ (rising 0x30#64).lapic.svr.getLsbD 8 = true ∧
      ((rising 0x10030#64).ioapic.redir 0).getLsbD 16 = true ∧
      ((rising 0x430#64).ioapic.redir 0).extractLsb' 8 3 = 4#3 ∧
      (((rising 0x10#64).ioapic.redir 0).extractLsb' 0 8).toNat = 0x10 ∧
      (((rising 0x0F#64).ioapic.redir 0).extractLsb' 0 8).toNat < 0x10 ∧
      ({ rising 0x30#64 with lapic := Lapic.named } : State).lapic.svr.getLsbD 8 = false := by decide +kernel

theorem met_LevelMessageSetsRemoteIrr :
    ∀ w ∈ [0x8030, 0x8010, 0x800F, 0x8430],
    let s : State := { oneEntry (BitVec.ofNat 64 w) with env := { a1.env with pin := [true] }, inputs := [.ioapicLevel 0] }
    let e := s.ioapic.redir 0
    s.refused = none ∧ s.cfg.family = .apic ∧ 0 < s.cfg.nRedir ∧ s.inputs = .ioapicLevel 0 :: [] ∧ e.getLsbD 15 = true ∧
      e.getLsbD 16 = false ∧ (s.env.level 0 ^^ e.getLsbD 13) = true ∧
      lapicMatches s.cfg (e.getLsbD 11) (e.extractLsb' 56 8) = true ∧ s.ioapic.remoteIrr 0 = false ∧
      (e.extractLsb' 8 3 = 0#3 ↔ w ≠ 0x8430) ∧ e.extractLsb' 8 3 ≠ 1#3 ∧
      (0x10 ≤ (e.extractLsb' 0 8).toNat ↔ w ≠ 0x800F) ∧ s.lapic.svr.getLsbD 8 = true ∧
      Lapic.named.svr.getLsbD 8 = false := by decide +kernel

/-- A1 with the latch set and the vector 0x30 requested. -/
def lapicPending : State :=
  { a1 with
    lapic := { a1.lapic with irr := setBit 0#256 0x30 true }, env := { a1.env with lapicIntLatch := true }
    inputs := [.cpuIntaLapic] }

/-- `lapicPending` with the given TPR, vectors in service and SVR. -/
def lapicHeld (tpr : Word32) (isr : BitVec 256) (svr : Word32) : State :=
  { lapicPending with lapic := { lapicPending.lapic with tpr := tpr, isr := isr, svr := svr } }

theorem only_0x30_is_set (w : Nat) (hw : 0x30 < w) : (setBit 0#256 0x30 true).getLsbD w = false := by
  by_cases h : w < 256
  · have : ∀ i : Fin 256, 0x30 < i.val → (setBit 0#256 0x30 true).getLsbD i.val = false := by decide +kernel
    exact this ⟨w, h⟩ hw
  · exact BitVec.getLsbD_of_ge _ w (by omega)

-- The classes just below 3; V92 and V94: the TPR's class equal to 3; the class in service equal to 3; nothing requested.
theorem met_LapicAcknowledgeDelivers :
    (∀ s ∈ [lapicHeld 0x2F#32 (setBit 0#256 0x2F true) 0x1FF#32, lapicHeld 0x30#32 0#256 0x110#32,
        lapicHeld 0#32 (setBit 0#256 0x3F true) 0x10F#32],
      s.refused = none ∧ s.cfg.family = .apic ∧ s.env.lapicIntLatch = true ∧ s.inputs = .cpuIntaLapic :: [] ∧
        s.lapic.irr = setBit 0#256 0x30 true) ∧
    ((setBit 0#256 0x30 true).getLsbD 0x30 = true ∧ ∀ w, 0x30 < w → (setBit 0#256 0x30 true).getLsbD w = false) ∧
    ((0x2F#32).extractLsb' 4 4).toNat < 0x30 / 16 ∧
    (∀ w, (setBit 0#256 0x2F true).getLsbD w = true → w / 16 < 0x30 / 16) ∧
    0x30 / 16 ≤ ((0x30#32).extractLsb' 4 4).toNat ∧
    ((setBit 0#256 0x3F true).getLsbD 0x3F = true ∧ 0x30 / 16 ≤ 0x3F / 16) ∧
    0x10 ≤ ((0x110#32).extractLsb' 0 8).toNat ∧ ((0x10F#32).extractLsb' 0 8).toNat < 0x10 ∧
    ({ lapicPending with lapic := a1.lapic } : State).lapic.irr = 0#256 := by
  refine ⟨by decide +kernel, ⟨by decide +kernel, only_0x30_is_set⟩, by decide, fun w hw => ?_, by decide,
    by decide +kernel, by decide, by decide, rfl⟩
  by_cases h : w < 256
  · have : ∀ i : Fin 256, (setBit 0#256 0x2F true).getLsbD i.val = true → i.val / 16 < 3 := by decide +kernel
    exact this ⟨w, h⟩ hw
  · exact absurd hw (by simp [BitVec.getLsbD_of_ge _ w (by omega : 256 ≤ w)])

theorem met_LatchesRecordTheOutputs :
    (∃ t, step (next (.picEdge 1) { p1 with picM := { p1.picM with imr := 0#8 } }) = .next t ∧
      (t.refused = none ∧ t.cfg.family = .pic ∧ t.env.picIntLatch = true)) ∧
    ∃ t, step (rising 0x30#64) = .next t ∧ (t.refused = none ∧ t.cfg.family = .apic ∧ t.env.lapicIntLatch = true) := by
  constructor
  · exact exists_of (fun t => t.refused = none ∧ t.cfg.family = .pic ∧ t.env.picIntLatch = true) (by decide +kernel)
  · exact exists_of (fun t => t.refused = none ∧ t.cfg.family = .apic ∧ t.env.lapicIntLatch = true) (by decide +kernel)

theorem met_ParametersAndAbsentFamilyAreKept :
    p1.cfg.family = .pic ∧ (∃ t, step (next (.picEdge 1) p1) = .next t ∧ t.picM.irr = 0x02#8) ∧
    a1.cfg.family = .apic ∧ ∃ t, step (rising 0x30#64) = .next t ∧ t.env.pin = [true] :=
  ⟨rfl, exists_of (fun t => t.picM.irr = 0x02#8) (by decide +kernel),
    rfl, exists_of (fun t => t.env.pin = [true]) (by decide +kernel)⟩

theorem met_HistoryGrowsByAtMostOneEvent :
    ∃ t, step (pending 0x80#8 0#8) = .next t ∧ t.hist = [.vec .pic 0x27#8] :=
  exists_of (fun t => t.hist = [.vec .pic 0x27#8]) (by decide +kernel)

theorem met_EnvironmentLeavesTheSequencerAndTheMasks :
    isEnvironment (pending 0x80#8 0#8).nextInput = true ∧
      ∃ t, step (pending 0x80#8 0#8) = .next t ∧ t.picM.isr = 0x80#8 :=
  ⟨rfl, exists_of (fun t => t.picM.isr = 0x80#8) (by decide +kernel)⟩

/-- The outcome is that the agent is stuck. -/
abbrev Stuck (o : Outcome) (a : Agent) : Prop :=
  (match o with
  | .fault f => decide (f = .stuck a)
  | .next _ => false
  | .refused _ => false) = true

/-- The last line of the pair is enabled. -/
theorem edge_enabled : environmentEnabled (next (.picEdge 15) p1) (next (.picEdge 15) p1).nextInput :=
  ⟨rfl, by decide, by decide⟩

/-- The cascade line takes no edge. -/
theorem cascade_edge_not_enabled : ¬ environmentEnabled (next (.picEdge 2) p1) (next (.picEdge 2) p1).nextInput :=
  fun h => h.2.2 rfl

theorem met_StepsNotEnabledAreStuck :
    p1.refused = none ∧ a1.refused = none ∧
      (∀ x ∈ [Input.picEdge 2, .picEdge 16, .cpuIntaPic, .pin 0 true, .ioapicLevel 0, .cpuIntaLapic],
        (next x p1).nextInput = x ∧ isEnvironment x = true ∧ Stuck (step (next x p1)) .environment) ∧
      (∀ x ∈ [Input.picEdge 1, .cpuIntaPic, .pin 24 true, .ioapicLevel 0, .cpuIntaLapic],
        (next x a1).nextInput = x ∧ isEnvironment x = true ∧ Stuck (step (next x a1)) .environment) ∧
      isEnvironment (next (.picEdge 15) p1).nextInput = true ∧
      Gives (step (next (.picEdge 15) p1)) (fun t => t.picS.irr = 0x80#8) ∧
      p1.nextInput = .sequencer ∧ p1.seq.phase ≠ .busy ∧ Stuck (step p1) .sequencer := by decide +kernel

end Sys2Proof.Tests
end

section
/-!
SUPPORT. A request word that decodes is the word of its instruction (R69 to R72): the decoder drops no bit of it.
-/

namespace Sys2Proof.Machine

/-- R72: a field that lies outside the operand bits of a checked word is 0. -/
theorem extract_eq_zero_of_not_free {op : Opcode} {w : Word64} (hz : mustBeZeroClear op w = true) {k : Nat}
    (h8 : 8 ≤ k) (h64 : k + 8 ≤ 64) (hf : ∀ j < 8, freeBit op (k + j) = false) : w.extractLsb' k 8 = 0#8 :=
  BitVec.eq_of_getLsbD_eq fun j hj => by
    have := (mustBeZeroClear_iff op w).mp hz (k + j) (by omega) (by omega) (hf j hj)
    simp [hj, this]

/-- R69: a checked word is packed from its own OP byte and fields; bits 63:40 are free for no operation. -/
theorem packRequest_fields {op : Opcode} {w : Word64} (hop : op.code = w.extractLsb' 0 8)
    (hz : mustBeZeroClear op w = true) : packRequest op (fieldA w) (fieldB w) (fieldC w) (fieldD w) = w :=
  BitVec.eq_of_getLsbD_eq fun i hi => by
    have high : 40 ≤ i → w.getLsbD i = false := fun h =>
      (mustBeZeroClear_iff op w).mp hz i (by omega) hi (by cases op <;> simp [freeBit] <;> omega)
    simp only [getLsbD_packRequest, hop, fieldA, fieldB, fieldC, fieldD, BitVec.getLsbD_extractLsb']
    grind

/-- R71: a C field with bits 7:6 clear is packed from the modes it names. -/
theorem packModes_ofBit {c : Byte} {dm : DeliveryMode} (hdm : DeliveryMode.ofCode (c.extractLsb' 0 3) = some dm)
    (h6 : c.getLsbD 6 = false) (h7 : c.getLsbD 7 = false) :
    packModes dm (.ofBit (c.getLsbD 3)) (.ofBit (c.getLsbD 4)) (.ofBit (c.getLsbD 5)) = c := by
  revert c dm; decide

/-- A byte whose upper seven bits are 0 is its bit 0. -/
theorem setWidth_ofBool_bitZero {b : Byte} (h : ∀ j < 8, 1 ≤ j → b.getLsbD j = false) :
    (BitVec.ofBool (b.getLsbD 0)).setWidth 8 = b := by
  revert b; decide

/-- The instruction read from a checked word's fields packs the same fields. -/
theorem encode_decodeFields {op : Opcode} {w : Word64} {i : Instr} (hz : mustBeZeroClear op w = true)
    (h : decodeFields op w = .ok i) : encode i = packRequest op (fieldA w) (fieldB w) (fieldC w) (fieldD w) := by
  have zeroA : (∀ j < 8, freeBit op (8 + j) = false) → fieldA w = 0#8 :=
    extract_eq_zero_of_not_free hz (by omega) (by omega)
  have zeroB : (∀ j < 8, freeBit op (16 + j) = false) → fieldB w = 0#8 :=
    extract_eq_zero_of_not_free hz (by omega) (by omega)
  have zeroC : (∀ j < 8, freeBit op (24 + j) = false) → fieldC w = 0#8 :=
    extract_eq_zero_of_not_free hz (by omega) (by omega)
  have zeroD : (∀ j < 8, freeBit op (32 + j) = false) → fieldD w = 0#8 :=
    extract_eq_zero_of_not_free hz (by omega) (by omega)
  have bit0 := (mustBeZeroClear_iff op w).mp hz
  cases op
  case ioapicWriteEntry =>
    simp only [decodeFields] at h
    split at h
    · cases h
    next dm hdm =>
      cases h
      have h6 : (fieldC w).getLsbD 6 = false := by simpa [fieldC] using bit0 30 (by omega) (by omega) rfl
      have h7 : (fieldC w).getLsbD 7 = false := by simpa [fieldC] using bit0 31 (by omega) (by omega) rfl
      rw [encode, packModes_ofBit hdm h6 h7]
  case ioapicSetMask =>
    cases h
    have hb : ∀ j < 8, 1 ≤ j → (fieldB w).getLsbD j = false := fun j hj h1 => by
      simpa [fieldB, hj] using bit0 (16 + j) (by omega) (by omega) (by simp [freeBit]; omega)
    rw [encode, setWidth_ofBool_bitZero hb, zeroC (by decide), zeroD (by decide)]
  case picInit | picWriteMasks =>
    cases h
    rw [encode, zeroC (by decide), zeroD (by decide)]
  case picMask | picUnmask | picEoi | lapicEnable =>
    cases h
    rw [encode, zeroB (by decide), zeroC (by decide), zeroD (by decide)]
  case picReadMasks | picUnmaskAll | lapicEoi =>
    cases h
    rw [encode, zeroA (by decide), zeroB (by decide), zeroC (by decide), zeroD (by decide)]

/-- Encoding what a request word decodes to gives the word back. -/
theorem encode_of_decode_request {w : Word64} {i : Instr} (h : decode .request w = .ok i) : encode i = w := by
  simp only [decode, decodeRequest] at h
  split at h
  · cases h
  next op hop =>
    split at h
    next hz => rw [encode_decodeFields hz h, packRequest_fields (Opcode_code_of_ofByte hop) hz]
    next => cases h

/-- An instruction that some request word decodes to is what its own word decodes to. -/
theorem decode_encode_of_decode {w : Word64} {i : Instr} (h : decode .request w = .ok i) :
    decode .request (encode i) = .ok i := by
  rw [encode_of_decode_request h, h]

end Sys2Proof.Machine
end

section
/-!
SUPPORT. What every step keeps, whoever takes it: the parameters, the absent family's devices, and the history but for
one event (R9, R19, R20).
-/

namespace Sys2Proof.Machine

/-! ### State.takeInput -/

@[simp] theorem State_takeInput_cfg (s : State) : s.takeInput.cfg = s.cfg := rfl
@[simp] theorem State_takeInput_seq (s : State) : s.takeInput.seq = s.seq := rfl
@[simp] theorem State_takeInput_picM (s : State) : s.takeInput.picM = s.picM := rfl
@[simp] theorem State_takeInput_picS (s : State) : s.takeInput.picS = s.picS := rfl
@[simp] theorem State_takeInput_ioapic (s : State) : s.takeInput.ioapic = s.ioapic := rfl
@[simp] theorem State_takeInput_lapic (s : State) : s.takeInput.lapic = s.lapic := rfl
@[simp] theorem State_takeInput_env (s : State) : s.takeInput.env = s.env := rfl
@[simp] theorem State_takeInput_hist (s : State) : s.takeInput.hist = s.hist := rfl
@[simp] theorem State_takeInput_refused (s : State) : s.takeInput.refused = s.refused := rfl
@[simp] theorem State_takeInput_inputs (s : State) : s.takeInput.inputs = s.inputs.tail := rfl
@[simp] theorem State_takeInput_draws (s : State) : s.takeInput.draws = s.draws := rfl

/-! ### The frame of every step -/

/-- The frame that a step of any agent has. -/
structure StepFrame (s t : State) : Prop where
  /-- R9 to R13: the parameters are kept. -/
  cfg : t.cfg = s.cfg
  /-- R19: at most one event is appended. -/
  hist : t.hist = s.hist ∨ ∃ e, t.hist = s.hist ++ [e]
  /-- R20: a PIC machine has no APIC pair and no pins. -/
  ofPic : s.cfg.family = .pic → t.ioapic = s.ioapic ∧ t.lapic = s.lapic ∧ t.env.pin = s.env.pin
  /-- R20: an APIC machine has no 8259. -/
  ofApic : s.cfg.family = .apic → t.picM = s.picM ∧ t.picS = s.picS

/-- A change of the sequencer's registers alone has the frame. -/
theorem stepFrame_seq (s : State) (q : Sequencer) : StepFrame s { s with seq := q } :=
  ⟨rfl, .inl rfl, fun _ => ⟨rfl, rfl, rfl⟩, fun _ => ⟨rfl, rfl⟩⟩

/-- A bus transaction has the frame. -/
theorem Transacted.stepFrame {s t : State} (h : Transacted s t) : StepFrame s t where
  cfg := h.cfg
  hist := .inr h.hist
  ofPic hf := ⟨(h.ofPic hf).1, (h.ofPic hf).2, congrArg Env.pin h.env⟩
  ofApic := h.ofApic

/-- A step of the environment has the frame. -/
theorem Environmental.stepFrame {x : Input} {s t : State} (h : Environmental x s t) : StepFrame s t :=
  ⟨h.cfg, h.hist, h.ofPic, h.ofApic⟩

/-- Moving `upc` on keeps the frame. -/
theorem StepFrame.advance {s t : State} (h : StepFrame s t) (n : Nat) : StepFrame s (t.advance n) :=
  ⟨by simpa using h.cfg, by simpa using h.hist, by simpa using h.ofPic, by simpa using h.ofApic⟩

/-- The latch update keeps the frame. -/
theorem StepFrame.latched {s t : State} (h : StepFrame s t) : StepFrame s t.latched :=
  ⟨by simpa using h.cfg, by simpa using h.hist, by simpa using h.ofPic, by simpa using h.ofApic⟩

/-- What an instruction does has the frame. -/
theorem Effect.stepFrame {s t : State} {i : Instr} (h : Effect s i t) : StepFrame s t := by
  cases h with
  | accepted => exact stepFrame_seq s _
  | faulted => exact stepFrame_seq s _
  | transaction u hp hr ho hu hl => exact hu.stepFrame.advance _
  | raw _ hp ho hu hs => exact hu.stepFrame

/-- What an agent's turn does has the frame. -/
theorem Turn.stepFrame {x : Input} {s t : State} (h : Turn x s t) : StepFrame s t := by
  cases h with
  | instruction i _ hx he hd => exact he.stepFrame
  | illegal => exact stepFrame_seq s _
  | read _ hx hp hu hs => exact hu.stepFrame
  | environment _ hx he => exact he.stepFrame

/-- Every step of every agent has the frame. -/
theorem step_stepFrame {s t : State} (h : step s = .next t) : StepFrame s t := by
  obtain ⟨-, ⟨r, rfl⟩ | ⟨u, hu, rfl⟩⟩ := step_cases h
  · exact ⟨by simp, by simp, by simp, by simp⟩
  · obtain ⟨hcfg, hhist, hpic, hapic⟩ := hu.stepFrame.latched
    exact ⟨by simpa using hcfg, by simpa using hhist, by simpa using hpic, by simpa using hapic⟩

/-- Settles O57: the frame of a step, without its history. -/
theorem parametersAndAbsentFamilyAreKept : Obligations.ParametersAndAbsentFamilyAreKept := by
  intro s t h
  obtain ⟨hcfg, -, hpic, hapic⟩ := step_stepFrame h
  exact ⟨hcfg, hpic, hapic⟩

/-- Settles O58: the history's part of the frame of a step. -/
theorem historyGrowsByAtMostOneEvent : Obligations.HistoryGrowsByAtMostOneEvent :=
  fun _ _ h => (step_stepFrame h).hist

end Sys2Proof.Machine
end

section
/-!
SUPPORT. The invariant of R11, R12, R22, R25, R26, R39, R45 and R130: reset has it and every step keeps it.
-/

namespace Sys2Proof.Machine

/-- R100: a request has at least one transaction, so acceptance leaves one to perform, and at most ten, so `upc` never
wraps. -/
theorem programLength_bounds (i : Instr) : 0 < programLength i ∧ programLength i ≤ 10 := by
  cases i with
  | picEoi l => simp only [programLength]; split <;> omega
  | _ => simp [programLength]

/-- R144: no fault code is numbered 0. -/
theorem FaultCode_code_ne_zero (c : FaultCode) : c.code ≠ 0#4 := by cases c <;> decide

/-- What it is for a request to be in progress. -/
theorem inProgress_iff {s : State} :
    inProgress s = true ↔ ∃ i, decode .request s.seq.req = .ok i ∧
      (opcodeOf i).map Opcode.family = some s.cfg.family ∧ contractFault s.cfg i = none ∧
      s.seq.upc.toNat < programLength i := by
  unfold inProgress
  split <;> simp_all [and_assoc]

/-- The invariant speaks of the parameters, the entries' words, the number of entries and pins, and the sequencer's
registers. -/
theorem State.Inv.of_seq_eq {s t : State} (h : s.Inv) (hc : t.cfg = s.cfg) (hq : t.seq = s.seq)
    (hl : t.ioapic.entries.length = s.ioapic.entries.length) (hp : t.env.pin.length = s.env.pin.length)
    (hr : ∀ e ∈ t.ioapic.entries, e.word.getLsbD 12 = false ∧ e.word.getLsbD 14 = false) : t.Inv where
  config := hc ▸ h.config
  entries := by rw [hl, hc, h.entries]
  pins := by rw [hp, hc, h.pins]
  readOnlyBits := hr
  upcRest := hq ▸ h.upcRest
  busy hb := by
    rw [inProgress_iff, hc, hq]
    exact inProgress_iff.mp (h.busy (hq ▸ hb))
  faulted := hq ▸ h.faulted

/-- The latch update keeps the invariant. -/
theorem State.Inv.latched {s : State} (h : s.Inv) : s.latched.Inv :=
  h.of_seq_eq (by simp) (by simp) (by simp) (by simp) (by simpa using h.readOnlyBits)

/-- A refusal keeps the invariant. -/
theorem State.Inv.markRefused {s : State} (h : s.Inv) (r : Refusal) : (s.markRefused r).Inv :=
  h.of_seq_eq rfl rfl rfl rfl h.readOnlyBits

/-- Taking a turn's input keeps the invariant. -/
theorem State.Inv.takeInput {s : State} (h : s.Inv) : s.takeInput.Inv :=
  h.of_seq_eq rfl rfl rfl rfl h.readOnlyBits

/-- A bus transaction that is no transaction of the sequencer keeps the invariant. -/
theorem State.Inv.transacted {s t : State} (h : s.Inv) (ht : Transacted s t) (hq : t.seq = s.seq) : t.Inv :=
  h.of_seq_eq ht.cfg hq ht.length (by rw [ht.env]) (ht.readOnly h.readOnlyBits)

/-- A step of the environment keeps the invariant: it keeps the words of the table. -/
theorem State.Inv.environmental {x : Input} {s t : State} (h : s.Inv) (ht : Environmental x s t) : t.Inv :=
  h.of_seq_eq ht.cfg ht.seq (by simpa using congrArg List.length ht.words) ht.pins
    (forall_word_of_map_eq (P := fun w => w.getLsbD 12 = false ∧ w.getLsbD 14 = false) ht.words h.readOnlyBits)

/-- R94: accepting a request that passed its checks keeps the invariant. -/
theorem State.Inv.accepted {s : State} (h : s.Inv) {i : Instr} (hp : s.seq.phase = .idle)
    (hd : decode .request (encode i) = .ok i) (hf : (opcodeOf i).map Opcode.family = some s.cfg.family)
    (hc : contractFault s.cfg i = none) : ({ s with seq := s.seq.accepted (encode i) } : State).Inv where
  config := h.config
  entries := h.entries
  pins := h.pins
  readOnlyBits := h.readOnlyBits
  upcRest _ := rfl
  busy _ := inProgress_iff.mpr ⟨i, hd, hf, hc, (programLength_bounds i).1⟩
  faulted := by
    have hidle := h.faulted
    rw [hp] at hidle
    simpa [Sequencer.accepted] using hidle

/-- R146: taking a fault keeps the invariant. -/
theorem State.Inv.faultedWith {s : State} (h : s.Inv) (c : FaultCode) (w : Word64) :
    ({ s with seq := s.seq.faultedWith c w } : State).Inv where
  config := h.config
  entries := h.entries
  pins := h.pins
  readOnlyBits := h.readOnlyBits
  upcRest _ := rfl
  busy hb := by simp [Sequencer.faultedWith] at hb
  faulted := by simp [Sequencer.faultedWith, FaultCode_code_ne_zero]

/-- R96: the sequencer's own transaction keeps the invariant: the last one leaves it Idle with `upc` 0, and after any
other `upc` is still inside the micro-program. -/
theorem State.Inv.transaction {s u : State} (h : s.Inv) {i : Instr} (hp : s.seq.phase = .busy)
    (hd : decode .request s.seq.req = .ok i) (hu : Transacted s u) : (u.advance (programLength i)).Inv := by
  obtain ⟨j, hj, hf, hc, hl⟩ := inProgress_iff.mp (h.busy hp)
  obtain rfl : j = i := by simpa [hj] using hd
  have hphase : u.seq.phase = .busy := hu.phase.trans hp
  have hfault : u.seq.fault = 0#4 := hu.fault.trans (by simpa [hp] using h.faulted)
  have hlen := (programLength_bounds j).2
  have hupc : (s.seq.upc + 1#4).toNat = s.seq.upc.toNat + 1 := by
    rw [BitVec.toNat_add, BitVec.toNat_ofNat]; omega
  exact {
    config := by simpa [hu.cfg] using h.config
    entries := by simpa [hu.cfg, hu.length] using h.entries
    pins := by simpa [hu.cfg, hu.env] using h.pins
    readOnlyBits := by simpa using hu.readOnly h.readOnlyBits
    upcRest := by
      unfold State.advance
      split
      · exact fun _ => rfl
      · simp [hphase]
    busy := by
      unfold State.advance
      rw [hu.upc]
      split
      · simp
      · exact fun _ => inProgress_iff.mpr ⟨j, by simpa [hu.req] using hj, by simpa [hu.cfg] using hf,
          by simpa [hu.cfg] using hc, by simp only [hupc]; omega⟩
    faulted := by
      unfold State.advance
      split
      · simp [hfault]
      · simp [hphase, hfault] }

/-- What an instruction does keeps the invariant, if it is a device write or came from a request word. -/
theorem State.Inv.effect {s t : State} (h : s.Inv) {i : Instr} (ht : Effect s i t)
    (hd : opcodeOf i = none ∨ ∃ w, decode .request w = .ok i) : t.Inv := by
  have decoded : (opcodeOf i).isSome → decode .request (encode i) = .ok i := fun ho => by
    rcases hd with hn | ⟨w, hw⟩
    · simp [hn] at ho
    · exact decode_encode_of_decode hw
  cases ht with
  | accepted hp hf hc =>
    exact h.accepted hp (decoded (by simpa using Option.isSome_of_eq_some hf)) hf hc
  | faulted c hp hf hc => exact h.faultedWith c _
  | transaction u hp hr ho hu hl => exact h.transaction hp (hr ▸ decoded ho) hu
  | raw _ hp ho hu hs => exact h.transacted hu hs

/-- What an agent's turn does keeps the invariant. -/
theorem State.Inv.turn {x : Input} {s t : State} (h : s.Inv) (ht : Turn x s t) : t.Inv := by
  cases ht with
  | instruction i _ hx he hd => exact h.effect he hd
  | illegal w hx hp => exact h.faultedWith _ w
  | read _ hx hp hu hs => exact h.transacted hu hs
  | environment _ hx he => exact h.environmental he

/-- Settles O3, by the cases of a step: a refusal, or an agent's turn followed by the latch update. -/
theorem stepKeepsTheInvariant : Obligations.StepKeepsTheInvariant := by
  intro s t h hs
  obtain ⟨-, ⟨r, rfl⟩ | ⟨u, hu, rfl⟩⟩ := step_cases hs
  · exact h.takeInput.markRefused r
  · exact (h.takeInput.turn hu).latched

/-- R50, R167: reset of a machine with valid parameters has the invariant for every draw of its devices. -/
theorem resetWith_inv {c : Config} {io : Ioapic} {pins : List Bool} (m sl : Pic) (la : Lapic)
    (hc : validConfig c = true) (he : io.entries.length = c.nRedir) (hp : pins.length = c.nRedir)
    (hr : ∀ e ∈ io.entries, e.word.getLsbD 12 = false ∧ e.word.getLsbD 14 = false) :
    (State.resetWith c m sl io la pins).Inv where
  config := hc
  entries := he
  pins := hp
  readOnlyBits := hr
  upcRest _ := rfl
  busy hb := by simp [State.resetWith, Sequencer.reset] at hb
  faulted := by simp [State.resetWith, Sequencer.reset]

/-- Settles O2: the named reset is one of the draws that `resetWith_inv` speaks of. -/
theorem resetSatisfiesTheInvariant : Obligations.ResetSatisfiesTheInvariant := by
  refine ⟨resetWith_inv _ _ _ (by decide) (List.length_replicate ..) (List.length_replicate ..) fun e he => ?_,
    fun c m sl io la pins hc he hp hr => resetWith_inv m sl la hc he hp hr⟩
  obtain rfl := List.eq_of_mem_replicate he
  decide

end Sys2Proof.Machine
end

section
/-!
SUPPORT. Where each step of the environment is enabled, and what it answers elsewhere (R18, R150, R151, R155, R158).
-/

namespace Sys2Proof.Machine

/-- R155.2: the enabling of a level message in the bits of its entry (R85). -/
theorem levelEnabled_iff {s : State} {n : Nat} :
    s.levelEnabled n = true ↔
      (s.ioapic.redir n).getLsbD 15 = true ∧ (s.ioapic.redir n).getLsbD 16 = false ∧
        (s.env.level n ^^ (s.ioapic.redir n).getLsbD 13) = true ∧
        lapicMatches s.cfg ((s.ioapic.redir n).getLsbD 11) ((s.ioapic.redir n).extractLsb' 56 8) = true ∧
        s.ioapic.remoteIrr n = false := by
  simp only [State.levelEnabled, State.asserted, assertedAt, State.matched, entryTriggerMode, entryMask, entryPolarity,
    entryDestMode, entryDestination, Bool.and_eq_true, Bool.not_eq_true', and_assoc]

/-- R151: where the master's winning request is the cascade line, the slave has a request. -/
theorem slaveRequest_of_masterWinner {s : State} (h : s.masterWinner = some 2) :
    ∃ j, highestPri8 (s.reqOf .slave) = some j := by
  have hreq : (s.reqOf .master).getLsbD 2 = true := by
    unfold State.masterWinner at h
    split at h
    · exact (highestPri8_eq_some.mp h).1
    · cases h
  have hint : s.intS = true := by
    simp only [State.reqOf, Pic.req, State.irrEff, BitVec.getLsbD_and, Bool.and_eq_true, getLsbD_setBit] at hreq
    simpa using hreq.1
  simp only [State.intS, Pic.int, Bool.and_eq_true] at hint
  cases hj : highestPri8 (s.reqOf .slave) with
  | some j => exact ⟨j, rfl⟩
  | none =>
    have hnone : highestPri8 (s.picS.req s.picS.irr) = none := hj
    simp [hnone] at hint

/-- R151 to R153: an enabled acknowledge of the 8259 pair has a next state; the cascade is always answered. -/
theorem cpuIntaPic_total {s : State} (h : s.cfg.family = .pic ∧ s.env.picIntLatch = true) :
    ∃ t, cpuIntaPic s = .next t := by
  unfold cpuIntaPic
  rw [if_pos h]
  split
  · cases hw : s.masterWinner with
    | none => exact finish_total _ _
    | some i =>
      by_cases hi : i = 2
      · subst hi
        obtain ⟨j, hj⟩ := slaveRequest_of_masterWinner hw
        simp [hj]
      · simp [hi]
  · exact finish_total _ _

/-- R158: an enabled acknowledge of the Local APIC has a next state. -/
theorem cpuIntaLapic_total {s : State} (h : s.cfg.family = .apic ∧ s.env.lapicIntLatch = true) :
    ∃ t, cpuIntaLapic s = .next t := by
  unfold cpuIntaLapic
  rw [if_pos h]
  simp only
  split
  · exact finish_total _ _
  · split <;> exact finish_total _ _

/-- A step guarded by its enabling condition has a next state where the condition holds. -/
theorem guarded_finish_total {p : Prop} [Decidable p] (h : p) (s : State) (x : Except Refusal State) (o : Outcome) :
    ∃ t, (if p then finish s x else o) = .next t := by
  rw [if_pos h]
  exact finish_total s x

/-- An enabled step of the environment has a next state, which may be a refusal's (R147). -/
theorem runInput_of_enabled {x : Input} {s : State} (h : environmentEnabled s x) : ∃ t, runInput x s = .next t := by
  cases x with
  | picEdge l => exact guarded_finish_total (p := s.cfg.family = .pic ∧ l < 16 ∧ l ≠ 2) h _ _ _
  | cpuIntaPic => exact cpuIntaPic_total h
  | pin n b => exact guarded_finish_total (p := s.cfg.family = .apic ∧ n < s.cfg.nRedir) h _ _ _
  | ioapicLevel n =>
    obtain ⟨hf, hn, he⟩ := h
    exact guarded_finish_total ⟨hf, hn, levelEnabled_iff.mpr he⟩ _ _ _
  | cpuIntaLapic => exact cpuIntaLapic_total h
  | sequencer | submit _ | raw _ => exact h.elim

/-- R18: a step of the environment that is not enabled leaves the environment stuck. -/
theorem runInput_of_not_enabled {x : Input} {s : State} (hx : isEnvironment x = true) (h : ¬ environmentEnabled s x) :
    runInput x s = .fault (.stuck .environment) := by
  cases x with
  | picEdge l => exact if_neg h
  | cpuIntaPic => exact if_neg h
  | pin n b => exact if_neg h
  | ioapicLevel n => exact if_neg fun ⟨hf, hn, he⟩ => h ⟨hf, hn, levelEnabled_iff.mp he⟩
  | cpuIntaLapic => exact if_neg h
  | sequencer | submit _ | raw _ => cases hx

/-- R96: the sequencer has no step while it is not Busy. -/
theorem sequencerTurn_of_not_busy {s : State} (h : s.seq.phase ≠ .busy) :
    sequencerTurn s = .fault (.stuck .sequencer) := by
  unfold sequencerTurn
  cases hp : s.seq.phase with
  | idle => rfl
  | faulted => rfl
  | busy => exact absurd hp h

/-- No enabling condition reads the list of turns. -/
theorem environmentEnabled_takeInput (s : State) (x : Input) :
    environmentEnabled s.takeInput x ↔ environmentEnabled s x := by
  cases x <;> exact Iff.rfl

/-- A machine that is not refused takes its agent's turn. -/
theorem step_of_not_refused {s : State} (h : s.refused = none) : step s = runInput s.nextInput s.takeInput := by
  simp [step, h]

/-- Settles O60, from the enabled and the stuck turns of each input. -/
theorem stepsNotEnabledAreStuck : Obligations.StepsNotEnabledAreStuck := by
  intro s hr
  rw [step_of_not_refused hr, ← environmentEnabled_takeInput]
  exact ⟨fun _ he => runInput_of_enabled he, fun hx hn => runInput_of_not_enabled hx hn,
    fun hx hp => hx ▸ sequencerTurn_of_not_busy hp⟩

end Sys2Proof.Machine
end

section
/-!
SUPPORT. What one step of any agent does to the sequencer and to the latches (R21, R22, R26, R47), and reset (R50).
-/

namespace Sys2Proof.Machine

/-- Settles O1: reset sets every tabled register, and the named reset is one of the draws. -/
theorem resetLeavesTheTabledValues : Obligations.ResetLeavesTheTabledValues :=
  ⟨fun _ _ _ _ _ _ => ⟨rfl, rfl, rfl, rfl, rfl, rfl, rfl, rfl⟩, _, _, _, _, _, _, rfl⟩

/-! ### Whose turn it is -/

/-- With no input waiting, taking the turn's input changes nothing. -/
theorem takeInput_of_nil {s : State} (h : s.inputs = []) : s.takeInput = s := by
  rw [State.takeInput, h, List.tail_nil, ← h]

/-- R96: a Busy sequencer's turn runs the request that `req` holds. -/
theorem sequencerTurn_of_busy {s : State} {i : Instr} (hp : s.seq.phase = .busy)
    (hd : decode .request s.seq.req = .ok i) : sequencerTurn s = exec i s := by
  simp only [sequencerTurn, hp, hd]

/-- R96: with no input waiting, a Busy machine runs the request in progress (log 2). -/
theorem step_of_busy {s : State} {i : Instr} (hr : s.refused = none) (hi : s.inputs = []) (hp : s.seq.phase = .busy)
    (hd : decode .request s.seq.req = .ok i) : step s = exec i s := by
  have hturn : s.nextInput = .sequencer := by rw [State.nextInput, hi]; rfl
  rw [step_of_not_refused hr, hturn, takeInput_of_nil hi]
  exact sequencerTurn_of_busy hp hd

/-- Settles O8: the turn is the sequencer's by default or by name. -/
theorem stepRunsTheRequestInProgress : Obligations.StepRunsTheRequestInProgress := by
  intro s i hr hp hd
  refine ⟨fun hi => step_of_busy hr hi hp hd, fun rest hi => ?_⟩
  rw [step_of_inputs hr hi]
  exact sequencerTurn_of_busy hp hd

/-! ### The Faulted phase -/

/-- R146: after a fault an instruction is at most a raw write, which changes no register of the sequencer. -/
theorem Effect.seq_of_faulted {s t : State} {i : Instr} (h : Effect s i t) (hp : s.seq.phase = .faulted) :
    t.seq = s.seq := by
  cases h with
  | accepted hidle => simp [hp] at hidle
  | faulted c hidle => simp [hp] at hidle
  | transaction u hbusy => simp [hp] at hbusy
  | raw _ hb ho hu hs => exact hs

/-- R146: after a fault no agent's turn changes a register of the sequencer. -/
theorem Turn.seq_of_faulted {x : Input} {s t : State} (h : Turn x s t) (hp : s.seq.phase = .faulted) :
    t.seq = s.seq := by
  cases h with
  | instruction i _ hx he hd => exact he.seq_of_faulted hp
  | illegal w hx hidle => simp [hp] at hidle
  | read _ hx hb hu hs => exact hs
  | environment _ hx he => exact he.seq

/-- R94: after a fault the host has no submit step. -/
theorem hostSubmit_of_faulted {s : State} (h : s.seq.phase = .faulted) (w : Word64) :
    hostSubmit w s = .fault (.stuck .host) := by
  simp only [hostSubmit, h]

/-- Settles O17, by the cases of a step. -/
theorem faultedPhaseIsPermanent : Obligations.FaultedPhaseIsPermanent := by
  refine ⟨fun s t hp h => ?_, fun s w rest hr hp hi => ?_⟩
  · obtain ⟨-, ⟨r, rfl⟩ | ⟨u, hu, rfl⟩⟩ := step_cases h
    · rfl
    · rw [State_latched_seq]
      exact hu.seq_of_faulted hp
  · rw [step_of_inputs hr hi]
    exact hostSubmit_of_faulted (s := { s with inputs := rest }) hp w

/-! ### The latches -/

/-- What a turn does to the two latches before the update of R47: it keeps them, but an acknowledge clears its own. -/
def LatchesHeld (x : Input) (s t : State) : Prop :=
  t.env.picIntLatch = (s.env.picIntLatch && decide (x ≠ .cpuIntaPic)) ∧
    t.env.lapicIntLatch = (s.env.lapicIntLatch && decide (x ≠ .cpuIntaLapic))

/-- A turn that is no step of the environment and keeps the environment's registers keeps the latches. -/
theorem latchesHeld_of_env_eq {x : Input} {s t : State} (hx : isEnvironment x = false) (h : t.env = s.env) :
    LatchesHeld x s t := by
  cases x <;> simp_all [LatchesHeld, isEnvironment]

/-- An instruction keeps the environment's registers. -/
theorem Effect.env {s t : State} {i : Instr} (h : Effect s i t) : t.env = s.env := by
  cases h with
  | accepted => rfl
  | faulted => rfl
  | transaction u hp hr ho hu hl => simpa using hu.env
  | raw _ hp ho hu hs => exact hu.env

/-- Only an acknowledge lets go of a latch, and only of its own. -/
theorem Turn.latchesHeld {x : Input} {s t : State} (h : Turn x s t) : LatchesHeld x s t := by
  cases h with
  | instruction i _ hx he hd => exact latchesHeld_of_env_eq hx he.env
  | illegal w hx hp => exact latchesHeld_of_env_eq (by rw [hx]; rfl) rfl
  | read _ hx hp hu hs => exact latchesHeld_of_env_eq hx hu.env
  | environment _ hx he => exact ⟨he.picLatch, he.lapicLatch⟩

/-- A step of the environment that has a next state was enabled. -/
theorem environmentEnabled_of_step {s t : State} (h : step s = .next t) (hx : isEnvironment s.nextInput = true) :
    environmentEnabled s s.nextInput := by
  by_contra hn
  obtain ⟨hr, -⟩ := step_cases h
  obtain ⟨-, hstuck, -⟩ := stepsNotEnabledAreStuck s hr
  cases h.symm.trans (hstuck hx hn)

/-- R151: the acknowledge of the 8259 pair is a PIC machine's. -/
theorem family_of_cpuIntaPic {s t : State} (h : step s = .next t) (hx : s.nextInput = .cpuIntaPic) :
    s.cfg.family = .pic := by
  have he := environmentEnabled_of_step h (by rw [hx]; rfl)
  rw [hx] at he
  exact he.1

/-- R158: the acknowledge of the Local APIC is an APIC machine's. -/
theorem family_of_cpuIntaLapic {s t : State} (h : step s = .next t) (hx : s.nextInput = .cpuIntaLapic) :
    s.cfg.family = .apic := by
  have he := environmentEnabled_of_step h (by rw [hx]; rfl)
  rw [hx] at he
  exact he.1

/-- Settles O56: what the turn leaves of the latches, then the update of R47. -/
theorem latchesRecordTheOutputs : Obligations.LatchesRecordTheOutputs := by
  intro s t h ht
  obtain ⟨-, ⟨r, rfl⟩ | ⟨u, hu, rfl⟩⟩ := step_cases h
  · simp at ht
  obtain ⟨hpic, hlapic⟩ := hu.latchesHeld
  rw [State_takeInput_env] at hpic hlapic
  rw [State_latched_cfg, State_latched_intM, State_latched_lapic]
  have hcfg : u.cfg = s.cfg := hu.stepFrame.cfg
  rw [hcfg]
  refine ⟨fun hf => ?_, fun hf => ?_⟩
  · have hne : s.nextInput ≠ .cpuIntaLapic := fun hx => by simp [family_of_cpuIntaLapic h hx] at hf
    rw [State_latched_pic u (hcfg ▸ hf)]
    exact ⟨by rw [hpic], by simpa [hne] using hlapic⟩
  · have hne : s.nextInput ≠ .cpuIntaPic := fun hx => by simp [family_of_cpuIntaPic h hx] at hf
    rw [State_latched_apic u (hcfg ▸ hf)]
    exact ⟨by rw [hlapic], by simpa [hne] using hpic⟩

end Sys2Proof.Machine
end

section
/-!
SUPPORT. The priority of one 8259 (R37): the requests that nothing in service holds back, the outputs of the pair, and
what the master sees of the slave.
-/

namespace Sys2Proof.Machine

/-- R37: the mask takes out requests, bit by bit. -/
theorem getLsbD_req (p : Pic) (e : Byte) (i : Nat) : (p.req e).getLsbD i = (e.getLsbD i && !p.imr.getLsbD i) := by
  have := BitVec.getLsbD_of_ge e i
  simp only [Pic.req, BitVec.getLsbD_and, BitVec.getLsbD_not]
  grind

/-- R37: the master's request number 2 is the slave's output. -/
theorem getLsbD_reqOf_master (s : State) (i : Nat) :
    (s.reqOf .master).getLsbD i =
      ((if i = 2 then s.intS else s.picM.irr.getLsbD i) && !s.picM.imr.getLsbD i) := by
  simp [State.reqOf, State.irrEff, getLsbD_req, getLsbD_setBit]

/-- R37: the slave's requests are its latched ones. -/
theorem getLsbD_reqOf_slave (s : State) (i : Nat) :
    (s.reqOf .slave).getLsbD i = (s.picS.irr.getLsbD i && !s.picS.imr.getLsbD i) :=
  getLsbD_req s.picS s.picS.irr i

/-- R37: a number is above everything in service exactly if no bit in service has it or a smaller number. -/
theorem above_eq_true {p : Pic} {i : Nat} : p.above i = true ↔ ∀ k ≤ i, p.isr.getLsbD k = false := by
  unfold Pic.above
  split
  next h => simp [highestPri8_eq_none.mp h]
  next j h =>
    obtain ⟨hj, -, hmin⟩ := highestPri8_eq_some.mp h
    rw [decide_eq_true_eq]
    refine ⟨fun hi k hk => hmin k (by omega), fun hi => ?_⟩
    by_contra hn
    simp [hi j (by omega)] at hj

/-- R37, R154: request number `i` of a chip is present, unmasked, and above everything in service. -/
def Pic.serves (p : Pic) (irrEff : Byte) (i : Nat) : Bool := (p.req irrEff).getLsbD i && p.above i

/-- A chip serves a request that is present and that no bit in service holds back. -/
theorem serves_eq_true {p : Pic} {e : Byte} {i : Nat} :
    p.serves e i = true ↔ (p.req e).getLsbD i = true ∧ ∀ k ≤ i, p.isr.getLsbD k = false := by
  rw [Pic.serves, Bool.and_eq_true, above_eq_true]

/-- R154: where a number is above everything in service, so is every smaller one. -/
theorem above_of_le {p : Pic} {i j : Nat} (h : p.above i = true) (hj : j ≤ i) : p.above j = true :=
  above_eq_true.mpr fun k hk => above_eq_true.mp h k (by omega)

/-- R37: the output is up exactly if the chip is Ready and its first request is above everything in service. -/
theorem int_eq_any (p : Pic) (e : Byte) :
    p.int e = (decide (p.step = .ready) && (highestPri8 (p.req e)).any p.above) := by
  unfold Pic.int
  cases highestPri8 (p.req e) <;> rfl

/-- The number a chip's acknowledge takes, if its output is up (R151). -/
def Pic.winner (p : Pic) (irrEff : Byte) : Option Nat := if p.int irrEff then highestPri8 (p.req irrEff) else none

/-- A chip's winner is its first request, on a Ready chip and above everything in service. -/
theorem winner_eq_some {p : Pic} {e : Byte} {i : Nat} :
    p.winner e = some i ↔ p.step = .ready ∧ highestPri8 (p.req e) = some i ∧ p.above i = true := by
  rw [Pic.winner, int_eq_any]
  cases highestPri8 (p.req e) with
  | none => simp
  | some j =>
    simp only [Option.any_some, Bool.and_eq_true, decide_eq_true_eq, Option.ite_none_right_eq_some, Option.some.injEq]
    grind

/-- R37: a bit in service that holds a request back holds back every larger number too, so the winner is the first
request that the chip serves. -/
theorem winner_eq_find {p : Pic} (e : Byte) (hready : p.step = .ready) :
    p.winner e = (List.range 8).find? (p.serves e) := by
  ext i
  rw [winner_eq_some, highestPri8_eq_some, List.find?_range_eq_some]
  simp only [hready, true_and, List.mem_range, Pic.serves, Bool.and_eq_true, Bool.not_eq_true']
  constructor
  · rintro ⟨⟨hi, hlt, hmin⟩, ha⟩
    exact ⟨⟨hi, ha⟩, hlt, fun j hj => by simp [hmin j hj]⟩
  · rintro ⟨⟨hi, ha⟩, hlt, hmin⟩
    refine ⟨⟨hi, hlt, fun j hj => ?_⟩, ha⟩
    simpa [above_of_le ha (Nat.le_of_lt hj)] using hmin j hj

/-- The output is up exactly if there is a winner. -/
theorem int_eq_isSome_winner (p : Pic) (e : Byte) : p.int e = (p.winner e).isSome := by
  rw [Bool.eq_iff_iff, Option.isSome_iff_exists]
  simp [winner_eq_some, int_eq_any, Option.any_eq_true]

/-- R37, R154: the output is up exactly if the chip is Ready and serves some request. -/
theorem int_eq_true {p : Pic} {e : Byte} :
    p.int e = true ↔ p.step = .ready ∧ ∃ i < 8, (p.req e).getLsbD i = true ∧ ∀ k ≤ i, p.isr.getLsbD k = false := by
  by_cases hready : p.step = .ready
  · rw [int_eq_isSome_winner, winner_eq_find e hready, List.find?_isSome]
    simp only [List.mem_range, serves_eq_true, hready, true_and]
  · simp [int_eq_any, hready]

/-- R37: `INT(M)` from the master's requests. -/
theorem intM_eq_true {s : State} :
    s.intM = true ↔ s.picM.step = .ready ∧
      ∃ i < 8, (s.reqOf .master).getLsbD i = true ∧ ∀ k ≤ i, s.picM.isr.getLsbD k = false := int_eq_true

/-- R37: `INT(S)` from the slave's requests. -/
theorem intS_eq_true {s : State} :
    s.intS = true ↔ s.picS.step = .ready ∧
      ∃ i < 8, (s.reqOf .slave).getLsbD i = true ∧ ∀ k ≤ i, s.picS.isr.getLsbD k = false := int_eq_true

/-- R37, R154: a bit in service with no request of a smaller number holds the output down. -/
theorem int_eq_false_of_inService {p : Pic} {e : Byte} {k : Nat} (hk : p.isr.getLsbD k = true)
    (h : ∀ i < k, (p.req e).getLsbD i = false) : p.int e = false := by
  by_contra hn
  obtain ⟨-, i, -, hi, hfree⟩ := int_eq_true.mp (Bool.not_eq_false _ ▸ hn)
  rcases Nat.lt_or_ge i k with hlt | hge
  · simp [h i hlt] at hi
  · simp [hfree k hge] at hk

/-- Settles O51: both chips' outputs in the bits of their registers. -/
theorem inServiceGatesTheOutputs : Obligations.InServiceGatesTheOutputs := by
  intro s
  have slave : ∀ k, s.picS.isr.getLsbD k = true → (∀ i < k, (s.reqOf .slave).getLsbD i = false) → s.intS = false :=
    fun _ => int_eq_false_of_inService
  refine ⟨fun _ => int_eq_false_of_inService, fun k hk h => ⟨slave k hk h, ?_⟩, ?_, ?_⟩
  · rw [getLsbD_reqOf_master, if_pos rfl, slave k hk h, Bool.false_and]
  · simp only [intS_eq_true, getLsbD_reqOf_slave, Bool.and_eq_true, Bool.not_eq_true', and_assoc]
  · simp only [intM_eq_true, getLsbD_reqOf_master, Bool.and_eq_true, Bool.not_eq_true', and_assoc]

/-- R37: a chip's output depends on its effective requests only through those its mask leaves. -/
theorem int_congr {p : Pic} {e e' : Byte} (h : p.req e = p.req e') : p.int e = p.int e' := by
  simp only [int_eq_any, h]

/-- Settles O52: the slave reaches the master through request 2 only, which the mask takes out (R123). -/
theorem maskedCascadeHidesTheSlave : Obligations.MaskedCascadeHidesTheSlave := by
  intro s p hmask
  refine int_congr (p := s.picM) (BitVec.eq_of_getLsbD_eq fun i hi => ?_)
  simp only [State.irrEff, getLsbD_req, getLsbD_setBit]
  by_cases h : i = 2
  · rw [h, hmask, Bool.not_true, Bool.and_false, Bool.and_false]
  · simp only [h, false_and, if_false]

end Sys2Proof.Machine
end

section
/-!
SUPPORT. The acknowledge of the 8259 pair in the modelled configuration (R151, R152), and the order of R154 in which it
takes the sixteen lines.
-/

namespace Sys2Proof.Machine

/-! ### The three cases of CPU_INTA_PIC -/

section Acknowledge

variable {s : State} (hf : s.cfg.family = .pic) (hl : s.env.picIntLatch = true) (hm : s.picModelled = true)
include hf hl hm

/-- R152: with the output down the acknowledge is spurious. -/
theorem cpuIntaPic_spurious (hw : s.masterWinner = none) :
    cpuIntaPic s = .next (({ s with env := { s.env with picIntLatch := false } } : State).deliver .pic
      (s.picM.base ||| 7#8)).latched := by
  simp [cpuIntaPic, hf, hl, hm, hw]

/-- R151: a winning line of the master goes into service and its vector is delivered. -/
theorem cpuIntaPic_master {i : Nat} (hw : s.masterWinner = some i) (hi : i ≠ 2) :
    cpuIntaPic s = .next (({ s with
      env := { s.env with picIntLatch := false }, picM := s.picM.acknowledge i true } : State).deliver .pic
      (s.picM.base ||| BitVec.ofNat 8 i)).latched := by
  simp [cpuIntaPic, hf, hl, hm, hw, hi]

/-- R151: through the cascade the slave's winning line goes into service beside the master's line 2. -/
theorem cpuIntaPic_cascade {j : Nat} (hw : s.masterWinner = some 2) (hj : highestPri8 (s.reqOf .slave) = some j) :
    cpuIntaPic s = .next (({ s with
      env := { s.env with picIntLatch := false }, picM := s.picM.acknowledge 2 false,
      picS := s.picS.acknowledge j true } : State).deliver .pic (s.picS.base ||| BitVec.ofNat 8 j)).latched := by
  simp [cpuIntaPic, hf, hl, hm, hw, hj]

end Acknowledge

/-- Settles O48: the three cases of the acknowledge, at the state with the turn's input taken. -/
theorem picAcknowledgeDelivers : Obligations.PicAcknowledgeDelivers := by
  intro s rest hr hf hl hm hi u
  let v : State := { s with inputs := rest }
  have hstep : step s = cpuIntaPic v := step_of_inputs hr hi
  rw [hstep]
  refine ⟨fun hint => ?_, fun i hint hw hne => ?_, fun hint hw => ?_⟩
  · exact cpuIntaPic_spurious (s := v) hf hl hm (if_neg (Bool.eq_false_iff.mp hint))
  · exact cpuIntaPic_master (s := v) hf hl hm ((if_pos hint).trans hw) hne
  · have hwin : v.masterWinner = some 2 := (if_pos hint).trans hw
    obtain ⟨j, hj⟩ := slaveRequest_of_masterWinner hwin
    exact ⟨j, hj, cpuIntaPic_cascade (s := v) hf hl hm hwin hj⟩

/-! ### The order of R154 -/

/-- R151: what the acknowledge takes is the master's winner. -/
theorem masterWinner_eq_winner (s : State) : s.masterWinner = s.picM.winner (s.irrEff .master) := rfl

/-- R154: line `l` requests and is not held back. -/
def State.servesLine (s : State) (l : Nat) : Bool := lineRequests s l && !lineHeldBack s l

/-- The winning line is the first in the order of R154 that is served. -/
theorem winningLine_eq_find (s : State) : winningLine s = linePriority.find? s.servesLine := rfl

/-- R37: a number is above everything in service exactly if no number up to it is in service. -/
theorem not_any_isr (p : Pic) (i : Nat) : (!(List.range (i + 1)).any p.isr.getLsbD) = p.above i := by
  rw [Bool.eq_iff_iff, above_eq_true]
  simp

/-- R123, R154: master line 2 is unmasked and above everything in service on the master. -/
def State.cascadeOpen (s : State) : Bool := !s.picM.imr.getLsbD 2 && s.picM.above 2

/-- R154: a line of the master is served as the master serves it. -/
theorem servesLine_master (s : State) {l : Nat} (hl : l < 8) (h2 : l ≠ 2) :
    s.servesLine l = s.picM.serves (s.irrEff .master) l := by
  have hreq := getLsbD_reqOf_master s l
  rw [if_neg h2] at hreq
  rw [State.servesLine, lineRequests, lineHeldBack, if_pos hl, if_pos hl, not_any_isr, ← hreq]
  rfl

/-- R154: a line of the slave is served as the slave serves it, while the cascade is open. -/
theorem servesLine_slave (s : State) (j : Nat) :
    s.servesLine (j + 8) = (s.picS.serves s.picS.irr j && s.cascadeOpen) := by
  have hj : ¬ j + 8 < 8 := by omega
  have hsub : j + 8 - 7 = j + 1 := by omega
  rw [State.servesLine, lineRequests, lineHeldBack, if_neg hj, if_neg hj, Nat.add_sub_cancel, hsub, Bool.not_or,
    not_any_isr, not_any_isr, Pic.serves, getLsbD_req, State.cascadeOpen]
  ac_rfl

/-- R37: the master serves its line 2 while the slave's output is up and the cascade is open. -/
theorem serves_cascade (s : State) : s.picM.serves (s.irrEff .master) 2 = (s.intS && s.cascadeOpen) := by
  have hreq := getLsbD_reqOf_master s 2
  rw [if_pos rfl] at hreq
  rw [State.cascadeOpen, ← Bool.and_assoc, ← hreq]
  rfl

/-- R154: line numbers on either side of the cascade's place are served as the master serves them. -/
theorem find_servesLine_master (s : State) {xs : List Nat} (h : ∀ l ∈ xs, l < 8 ∧ l ≠ 2) :
    xs.find? s.servesLine = xs.find? (s.picM.serves (s.irrEff .master)) :=
  List.find?_congr fun l hl => servesLine_master s (h l hl).1 (h l hl).2

/-- R154: the slave's lines, while the cascade is open, are served in the order of the slave's numbers. -/
theorem find_servesLine_slave {s : State} (hS : s.picS.step = .ready) :
    ((List.range 8).map (· + 8)).find? s.servesLine =
      if s.cascadeOpen then (s.picS.winner s.picS.irr).map (· + 8) else none := by
  have hslave : s.servesLine ∘ (· + 8) = fun j => s.picS.serves s.picS.irr j && s.cascadeOpen :=
    funext (servesLine_slave s)
  rw [List.find?_map, hslave, winner_eq_find _ hS]
  cases s.cascadeOpen <;> simp

/-- R151: what an acknowledge answers for the master's winning number: the slave's winning line in the cascade's place. -/
def State.lineOfWinner (s : State) (i : Nat) : Option Nat :=
  if i = 2 then (s.picS.winner s.picS.irr).map (· + 8) else some i

/-- No number but the cascade's stands for another line. -/
theorem bind_lineOfWinner (s : State) {xs : List Nat} (h : ∀ l ∈ xs, l < 8 ∧ l ≠ 2) (p : Nat → Bool) :
    (xs.find? p).bind s.lineOfWinner = xs.find? p := by
  cases hx : xs.find? p with
  | none => rfl
  | some i => simp [State.lineOfWinner, (h i (List.mem_of_find?_eq_some hx)).2]

/-- R154: the winning line is the master's winner, the slave's lines standing in the place of master line 2. -/
theorem winningLine_eq {s : State} (hM : s.picM.step = .ready) (hS : s.picS.step = .ready) :
    winningLine s = s.masterWinner.bind s.lineOfWinner := by
  have before : ∀ l ∈ [0, 1], l < 8 ∧ l ≠ 2 := by decide
  have after : ∀ l ∈ [3, 4, 5, 6, 7], l < 8 ∧ l ≠ 2 := by decide
  have hlines : linePriority = [0, 1] ++ (List.range 8).map (· + 8) ++ [3, 4, 5, 6, 7] := rfl
  have hnumbers : List.range 8 = [0, 1] ++ [2] ++ [3, 4, 5, 6, 7] := rfl
  have hint : s.intS = (s.picS.winner s.picS.irr).isSome := int_eq_isSome_winner _ _
  rw [winningLine_eq_find, hlines, List.find?_append, List.find?_append, find_servesLine_master s before,
    find_servesLine_master s after, find_servesLine_slave hS, masterWinner_eq_winner,
    winner_eq_find _ hM, hnumbers, List.find?_append, List.find?_append,
    List.find?_singleton, serves_cascade, hint]
  have hbefore := bind_lineOfWinner s before (s.picM.serves (s.irrEff .master))
  have hafter := bind_lineOfWinner s after (s.picM.serves (s.irrEff .master))
  cases hb : [0, 1].find? (s.picM.serves (s.irrEff .master)) with
  | some i => simpa [hb] using hbefore.symm
  | none =>
    cases hw : s.picS.winner s.picS.irr with
    | none => simpa using hafter.symm
    | some j => cases s.cascadeOpen with
      | false => simpa using hafter.symm
      | true => simp [State.lineOfWinner, hw]

/-- R151: where the master's winner is its line 2, the slave has a winner. -/
theorem slaveWinner_of_masterWinner {s : State} (h : s.masterWinner = some 2) :
    ∃ j, s.picS.winner s.picS.irr = some j := by
  obtain ⟨-, hfirst, -⟩ := winner_eq_some.mp (masterWinner_eq_winner s ▸ h)
  have hreq : (s.reqOf .master).getLsbD 2 = true := (highestPri8_eq_some.mp hfirst).1
  rw [getLsbD_reqOf_master, if_pos rfl, Bool.and_eq_true] at hreq
  exact Option.isSome_iff_exists.mp (int_eq_isSome_winner s.picS s.picS.irr ▸ hreq.1)

/-- R110: in the modelled configuration both chips are Ready. -/
theorem picModelled_ready {s : State} (h : s.picModelled = true) : s.picM.step = .ready ∧ s.picS.step = .ready := by
  simp only [State.picModelled, Pic.modelled, Bool.and_eq_true, decide_eq_true_eq] at h
  obtain ⟨⟨hM, -⟩, hS, -⟩ := h
  exact ⟨hM, hS⟩

/-- Settles O50: the winning line is the line of the master's winner, whose acknowledge is one of the three cases. -/
theorem picPriorityOrder : Obligations.PicPriorityOrder := by
  intro s rest hr hf hl hm hi
  obtain ⟨hM, hS⟩ := picModelled_ready hm
  let v : State := { s with inputs := rest }
  have hstep : step s = cpuIntaPic v := step_of_inputs hr hi
  rw [hstep, winningLine_eq hM hS]
  cases hw : s.masterWinner with
  | none =>
    refine ⟨fun l hl => (by cases hl), fun _ => ⟨_, cpuIntaPic_spurious (s := v) hf hl hm hw, ?_⟩⟩
    simp [v, Pic.base]
  | some i =>
    by_cases h2 : i = 2
    · subst h2
      obtain ⟨j, hj⟩ := slaveWinner_of_masterWinner hw
      have hline : s.lineOfWinner 2 = some (j + 8) := by simp [State.lineOfWinner, hj]
      simp only [Option.bind_some, hline]
      refine ⟨?_, fun hn => by cases hn⟩
      rintro _ ⟨rfl⟩
      refine ⟨_, cpuIntaPic_cascade (s := v) hf hl hm hw (winner_eq_some.mp hj).2.1, ?_⟩
      simp [v, Pic.base, lineVector, Pic.acknowledge]
    · have hlt : i < 8 := highestPri8_lt (winner_eq_some.mp hw).2.1
      simp only [Option.bind_some, State.lineOfWinner, if_neg h2]
      refine ⟨?_, fun hn => by cases hn⟩
      rintro _ ⟨rfl⟩
      refine ⟨_, cpuIntaPic_master (s := v) hf hl hm hw h2, ?_⟩
      simp [v, Pic.base, lineVector, Pic.acknowledge, hlt]

end Sys2Proof.Machine
end

section
/-!
SUPPORT. The run of PIC_INIT (R113): its ten transactions as a list of writes, one transaction for every state of the
chips, and the state after each when no other agent steps between.
-/

namespace Sys2Proof.Machine

/-! ### Acceptance -/

/-- R69, R70: PIC_INIT's word decodes to it. -/
theorem decode_picInit (mb sb : Byte) : decode .request (encode (.picInit mb sb)) = .ok (.picInit mb sb) := by
  have hz : mustBeZeroClear .picInit (packRequest .picInit mb sb 0#8 0#8) = true := by
    refine (mustBeZeroClear_iff _ _).mpr fun i h8 _ hfree => ?_
    simp only [freeBit, decide_eq_false_iff_not] at hfree
    have h24 : 24 ≤ i := by omega
    simp [getLsbD_packRequest, Nat.not_lt.mpr h24, Nat.not_lt.mpr h8, show ¬ i < 16 by omega]
  simp [decode, decodeRequest, encode, hz, decodeFields]

/-- R72, R73, R94: a valid PIC_INIT submitted to an Idle machine of its family is accepted. -/
theorem hostSubmit_picInit {mb sb : Byte} {s : State} (hf : s.cfg.family = .pic) (hp : s.seq.phase = .idle)
    (hc : contractFault s.cfg (.picInit mb sb) = none) :
    hostSubmit (encode (.picInit mb sb)) s =
      .next ({ s with seq := s.seq.accepted (encode (.picInit mb sb)) } : State).latched := by
  have hop : Opcode.ofByte ((encode (.picInit mb sb)).extractLsb' 0 8) = some .picInit := by simp [encode]
  have hchk : checkBases mb sb = none := (checkBases_eq mb sb s.cfg).trans hc
  simp only [hostSubmit, hp, hop, Opcode.family, hf, if_true, decode_picInit]
  exact (runRequest_idle hp).trans (by simp [hf, hchk])

/-! ### One transaction -/

/-- A byte written to a chip's port. -/
structure PicWrite where
  chip : Chip
  port : PicPort
  byte : Byte

/-- R113: PIC_INIT's ten writes, in order. -/
def picInitWrites (mb sb : Byte) : List PicWrite :=
  [⟨.master, .command, 0x11#8⟩, ⟨.slave, .command, 0x11#8⟩, ⟨.master, .data, mb⟩, ⟨.slave, .data, sb⟩,
    ⟨.master, .data, 0x04#8⟩, ⟨.slave, .data, 0x02#8⟩, ⟨.master, .data, 0x01#8⟩, ⟨.slave, .data, 0x01#8⟩,
    ⟨.master, .data, 0xFF#8⟩, ⟨.slave, .data, 0xFF#8⟩]

/-- The micro-program is these writes. -/
theorem picInitProgram_eq_map (mb sb : Byte) :
    picInitProgram mb sb = (picInitWrites mb sb).map fun x => .out8 (portAddr x.chip x.port) fun _ => x.byte := rfl

/-- R103 to R107: a chip after an ICW1 on its command port, or after a byte on its data port. -/
def Pic.written (p : Pic) : PicPort → Byte → Pic
  | .command, v => p.takeIcw1 v
  | .data, v => p.dataWritten v

/-- R19: the event of a write. -/
def PicWrite.event (x : PicWrite) : Event := evIow (portAddr x.chip x.port) x.byte

/-- The state after a write: the chip's registers, and the transaction in the history. -/
def State.afterWrite (s : State) (x : PicWrite) : State :=
  (s.setPic x.chip ((s.pic x.chip).written x.port x.byte)).log x.event

/-- R74: every command byte of PIC_INIT is an ICW1. -/
theorem picInitWrites_icw1 (mb sb : Byte) :
    ∀ x ∈ picInitWrites mb sb, x.port = .command → x.byte.getLsbD 4 = true := by
  simp [picInitWrites]

/-- R75: what a data byte is stands on the data port. -/
theorem kindPort_dataKind (step : InitStep) : kindPort (dataKind step) = .data := by cases step <;> rfl

/-- R103 to R107: on a PIC machine an ICW1 or a data byte is taken in every init step. -/
theorem portWrite_eq_afterWrite {s : State} (hf : s.cfg.family = .pic) {x : PicWrite}
    (h : x.port = .command → x.byte.getLsbD 4 = true) :
    portWrite (portAddr x.chip x.port) x.byte s = .ok (s.afterWrite x) := by
  rw [portWrite_pic x.chip x.port x.byte hf]
  obtain ⟨c, p, v⟩ := x
  cases p with
  | command =>
    have hk : picKind .command (s.pic c).step v = .icw1 := if_pos (h rfl)
    simp only [hk]
    rfl
  | data =>
    rw [picRespond_data]
    simp only [picKind, kindPort_dataKind]
    rfl

/-- R96, R113: PIC_INIT's transaction `k`, in every state of the chips. -/
theorem exec_picInit_at {mb sb : Byte} {k : Nat} {x : PicWrite} (hx : (picInitWrites mb sb)[k]? = some x) {s : State}
    (hf : s.cfg.family = .pic) (h : atTransaction (.picInit mb sb) k s) :
    exec (.picInit mb sb) s = .next ({ s.afterWrite x with
      seq := if k + 1 = 10 then s.seq.completed else s.seq.afterTransaction k } : State).latched := by
  have hk : k < 10 := (List.getElem?_eq_some_iff.mp hx).1
  have hmicro : (picInitProgram mb sb)[k]? = some (.out8 (portAddr x.chip x.port) fun _ => x.byte) := by
    rw [picInitProgram_eq_map, List.getElem?_map, hx]
    rfl
  have hwrite := portWrite_eq_afterWrite hf (picInitWrites_icw1 mb sb x (List.mem_of_getElem? hx))
  have hrun : exec (.picInit mb sb) s = _ := runRequest_at (by omega) hmicro h
  have hseq : (s.afterWrite x).seq = s.seq := by simp [State.afterWrite]
  have ⟨_, _, hat⟩ := h
  have hupc : (s.afterWrite x).seq.upc = BitVec.ofNat 4 k := hseq ▸ hat
  rw [hrun]
  simp only [perform, hwrite, Except.map, finish_ok, advance_at hupc (show k < 16 by omega), hseq,
    show (picInitProgram mb sb).length = 10 from rfl]
  by_cases hlast : k + 1 = 10 <;> simp only [hlast, if_true, if_false]

/-! ### The run with no other agent between -/

/-- A sequence of states that step one into the next is a run. -/
theorem runs_of_steps {f : Nat → State} {n : Nat} (h : ∀ k < n, step (f k) = .next (f (k + 1))) :
    runs n (f 0) = .next (f n) := by
  induction n generalizing f with
  | zero => rfl
  | succ n ih =>
    rw [runs, h 0 (by omega)]
    exact ih (f := fun k => f (k + 1)) fun k hk => h (k + 1) (by omega)

/-- The state after an uninterrupted PIC_INIT, submitted in `s`, has made its first `k` transactions. The latch records the
output of `s` at acceptance; no later output adds to it. -/
def State.inPicInit (s : State) (mb sb : Byte) (k : Nat) : State :=
  let q := s.seq.accepted (encode (.picInit mb sb))
  { ((picInitWrites mb sb).take k).foldl State.afterWrite s with
    seq := if k = 10 then q.completed else { q with upc := BitVec.ofNat 4 k }
    env := { s.env with picIntLatch := s.env.picIntLatch || s.intM }
    inputs := [] }

/-- A write reads and writes no register of the sequencer or the environment, and no input. -/
theorem afterWrite_update (s : State) (q : Sequencer) (e : Env) (xs : List Input) (x : PicWrite) :
    ({ s with seq := q, env := e, inputs := xs } : State).afterWrite x =
      { s.afterWrite x with seq := q, env := e, inputs := xs } := by
  obtain ⟨c, p, v⟩ := x
  cases c <;> rfl

/-- A list of writes changes the two chips, and appends its events to the history. -/
theorem foldl_afterWrite (xs : List PicWrite) (s : State) :
    xs.foldl State.afterWrite s = { s with
      picM := (xs.foldl State.afterWrite s).picM, picS := (xs.foldl State.afterWrite s).picS
      hist := s.hist ++ xs.map PicWrite.event } := by
  induction xs generalizing s with
  | nil => simp
  | cons x xs ih =>
    rw [List.foldl_cons, ih]
    obtain ⟨c, p, v⟩ := x
    cases c <;> simp [State.afterWrite]

/-- R103 to R107: no write of an ICW or an OCW1 sets a request bit. -/
theorem written_irr_zero {p : Pic} (h : p.irr = 0#8) (port : PicPort) (v : Byte) : (p.written port v).irr = 0#8 := by
  cases port with
  | command => rfl
  | data =>
    simp only [Pic.written, Pic.dataWritten]
    split <;> exact h

/-- A list of writes sets no request bit where both chips have none. -/
theorem foldl_afterWrite_irr_zero (xs : List PicWrite) {s : State} (hM : s.picM.irr = 0#8) (hS : s.picS.irr = 0#8) :
    (xs.foldl State.afterWrite s).picM.irr = 0#8 ∧ (xs.foldl State.afterWrite s).picS.irr = 0#8 := by
  induction xs generalizing s with
  | nil => exact ⟨hM, hS⟩
  | cons x xs ih =>
    obtain ⟨c, p, v⟩ := x
    cases c with
    | master => exact ih (written_irr_zero hM p v) hS
    | slave => exact ih hM (written_irr_zero hS p v)

/-- R37: with no request latched on either chip the output is down. -/
theorem intM_of_no_requests {s : State} (hM : s.picM.irr = 0#8) (hS : s.picS.irr = 0#8) : s.intM = false := by
  have hintS : s.intS = false := by simp [← Bool.not_eq_true, intS_eq_true, getLsbD_reqOf_slave, hS]
  simp [← Bool.not_eq_true, intM_eq_true, getLsbD_reqOf_master, hM, hintS]

/-- R103, R113: the output is down from the master's ICW1 on: first the master is not Ready, and from the slave's ICW1 on no
request is latched. -/
theorem intM_inPicInit (s : State) (mb sb : Byte) (k : Nat) : (s.inPicInit mb sb (k + 1)).intM = false := by
  cases k with
  | zero => rfl
  | succ k =>
    obtain ⟨hM, hS⟩ := foldl_afterWrite_irr_zero (((picInitWrites mb sb).drop 2).take k)
      (s := ((picInitWrites mb sb).take 2).foldl State.afterWrite s) rfl rfl
    exact intM_of_no_requests hM hS

/-- Where the output is down, the latch update changes nothing. -/
theorem latched_of_not_intM {s : State} (hf : s.cfg.family = .pic) (h : s.intM = false) : s.latched = s := by
  rw [State_latched_pic s hf, h, Bool.or_false]

/-- The next write leads from one state of the run to the next. -/
theorem afterWrite_inPicInit {s : State} {mb sb : Byte} {k : Nat} (hk : k < 10) {x : PicWrite}
    (hx : (picInitWrites mb sb)[k]? = some x) :
    ({ (s.inPicInit mb sb k).afterWrite x with
      seq := if k + 1 = 10 then (s.inPicInit mb sb k).seq.completed
        else (s.inPicInit mb sb k).seq.afterTransaction k } : State) = s.inPicInit mb sb (k + 1) := by
  have hfold : ((picInitWrites mb sb).take (k + 1)).foldl State.afterWrite s =
      (((picInitWrites mb sb).take k).foldl State.afterWrite s).afterWrite x := by
    rw [List.take_add_one, hx, List.foldl_append]
    rfl
  simp only [State.inPicInit, afterWrite_update, hfold, hk.ne, if_false]
  rfl

/-- R96: each step of the uninterrupted run is its next transaction. -/
theorem step_inPicInit {s : State} {mb sb : Byte} (hr : s.refused = none) (hf : s.cfg.family = .pic) {k : Nat} (hk : k < 10) :
    step (s.inPicInit mb sb k) = .next (s.inPicInit mb sb (k + 1)) := by
  obtain ⟨x, hx⟩ : ∃ x, (picInitWrites mb sb)[k]? = some x := ⟨_, List.getElem?_eq_getElem hk⟩
  have kept : ∀ j, (s.inPicInit mb sb j).refused = none ∧ (s.inPicInit mb sb j).cfg.family = .pic := fun j => by
    rw [State.inPicInit, foldl_afterWrite]
    exact ⟨hr, hf⟩
  have hat : atTransaction (.picInit mb sb) k (s.inPicInit mb sb k) := by
    simp [atTransaction, State.inPicInit, hk.ne, Sequencer.accepted]
  have ⟨hbusy, hreq, _⟩ := hat
  have hd : decode .request (s.inPicInit mb sb k).seq.req = .ok (.picInit mb sb) := by rw [hreq, decode_picInit]
  rw [step_of_busy (kept k).1 rfl hbusy hd, exec_picInit_at hx (kept k).2 hat, afterWrite_inPicInit hk hx,
    latched_of_not_intM (kept (k + 1)).2 (intM_inPicInit s mb sb k)]

/-- R113: a chip after its own five writes of PIC_INIT. -/
theorem written_eq_initialized (p : Pic) (base icw3 : Byte) :
    ((((p.written .command 0x11#8).written .data base).written .data icw3).written .data 0x01#8).written .data 0xFF#8 =
      p.initialized base icw3 := by
  simp [Pic.written, Pic.takeIcw1, Pic.dataWritten, Pic.initialized]

/-- R113: the state after the tenth transaction. -/
theorem inPicInit_end {s : State} (mb sb : Byte) (hp : s.seq.phase = .idle) :
    s.inPicInit mb sb 10 = { s with
      seq := { s.seq with req := encode (.picInit mb sb), upc := 0#4 }
      picM := s.picM.initialized mb 0x04#8
      picS := s.picS.initialized sb 0x02#8
      env := { s.env with picIntLatch := s.env.picIntLatch || s.intM }
      hist := s.hist ++ (picInitWrites mb sb).map PicWrite.event
      inputs := [] } := by
  have hseq : (s.seq.accepted (encode (.picInit mb sb))).completed =
      { s.seq with req := encode (.picInit mb sb), upc := 0#4 } := by
    simp [Sequencer.accepted, Sequencer.completed, hp]
  rw [State.inPicInit, foldl_afterWrite, ← written_eq_initialized s.picM, ← written_eq_initialized s.picS, ← hseq]
  rfl

/-- Settles O20: acceptance, then the ten transactions one by one. -/
theorem picInitRunsToItsEndState : Obligations.PicInitRunsToItsEndState := by
  intro mb sb s hr hf hp hc hi
  have haccept : step s = .next (s.inPicInit mb sb 0) := by
    rw [step_of_inputs hr hi]
    refine (hostSubmit_picInit (s := { s with inputs := [] }) hf hp hc).trans ?_
    exact congrArg Host.Outcome.next (State_latched_pic _ hf)
  rw [runs, haccept]
  refine (runs_of_steps (f := s.inPicInit mb sb) fun k hk => step_inPicInit hr hf hk).trans ?_
  rw [inPicInit_end mb sb hp]
  rfl

end Sys2Proof.Machine
end

section
/-!
SUPPORT. The host's raw accesses and the sequencer's own writes as instructions (R53, R56, R66, R91, R97): which instruction
a write is, what reaches no register, and what one transaction of the sequencer does.
-/

namespace Sys2Proof.Machine

/-! ### Addresses -/

/-- R51: an address that reaches no port is none of the four. -/
theorem portTarget_eq_none {a : Port} : portTarget a = none ↔ a ∉ [0x20#16, 0x21#16, 0xA0#16, 0xA1#16] := by
  simp only [portTarget, List.mem_cons, List.not_mem_nil, or_false]
  grind

/-- R51: an address that reaches no register is none of the five. -/
theorem regTarget_eq_none {cfg : Config} {a : Word32} :
    regTarget cfg a = none ↔ a ∉ [cfg.ioapicBase, cfg.ioapicBase + 0x10#32, cfg.lapicBase + 0x080#32,
      cfg.lapicBase + 0x0B0#32, cfg.lapicBase + 0x0F0#32] := by
  simp only [regTarget, regAddr, List.mem_cons, List.not_mem_nil, or_false]
  grind

/-- An address that reaches a register is that register's. -/
theorem regAddr_of_regTarget {cfg : Config} {a : Word32} {r : MmioReg} (h : regTarget cfg a = some r) :
    a = regAddr cfg r := by
  unfold regTarget at h
  grind

/-- R56: alignment as a fact of the address's number. -/
theorem aligned_iff (a : Word32) : a.extractLsb' 0 2 = 0#2 ↔ a.toNat % 4 = 0 := by
  simp [← BitVec.toNat_inj, BitVec.extractLsb'_toNat]

/-! ### A write is an instruction -/

/-- R74: a command byte is the non-specific EOI only if it is 0x20. -/
theorem byte_of_picKind_eoi {p : PicPort} {step : InitStep} {v : Byte}
    (h : picKind p step v = .ocw2NonspecificEoi) : v = 0x20#8 := by
  cases p with
  | command =>
    simp only [picKind, commandKind] at h
    grind
  | data => cases step <;> cases h

/-- The kind of a byte on a port stands on that port. -/
theorem kindPort_picKind (p : PicPort) (step : InitStep) (v : Byte) : kindPort (picKind p step v) = p := by
  cases p with
  | command =>
    simp only [picKind, commandKind]
    split_ifs <;> rfl
  | data => exact kindPort_dataKind step

/-- The kind of a write to a register stands on that register. -/
theorem kindReg_of_apicKind {r : MmioReg} {x : Byte} {k : ApicKind} (h : apicKind r x = .ok k) : kindReg k = r := by
  cases r with
  | ioapicWindow =>
    simp only [apicKind] at h
    split at h <;> cases h <;> rfl
  | _ => cases h; rfl

/-- A PIC8 row is its transaction, made by the host. -/
theorem exec_picKind_instr {k : PicKind} {v : Byte} (h : k = .ocw2NonspecificEoi → v = 0x20#8) (c : Chip) (s : State) :
    exec (k.instr c v) s = rawAccess (picTransaction k c v) s := by
  cases k with
  | ocw2NonspecificEoi => rw [h rfl]; rfl
  | _ => rfl

/-- An APIC32 row is its transaction, made by the host. -/
theorem exec_apicKind_instr (k : ApicKind) (v : Word32) (s : State) :
    exec (k.instr v) s = rawAccess (apicTransaction k v) s := by
  cases k <;> rfl

/-- R97: on a machine that is not Busy the instruction of a byte on a port has the outcome of the port's write. -/
theorem exec_eq_finish_portWrite {s : State} {c : Chip} {p : PicPort} {v : Byte} {i : Instr} (hp : s.seq.phase ≠ .busy)
    (hd : decode (.pic c p (s.pic c).step) (v.setWidth 64) = .ok i) :
    exec i s = finish s (portWrite (portAddr c p) v s) := by
  have hv : (v.setWidth 64).setWidth 8 = v := by simp
  simp only [decode, hv, Except.ok.injEq] at hd
  rw [← hd, exec_picKind_instr byte_of_picKind_eoi, rawAccess_of_not_busy _ hp, portWrite_portAddr]

/-- On a valid machine a write that decodes to a kind is that kind's transaction, on either family. -/
theorem mmioWrite_regAddr {s : State} {r : MmioReg} {k : ApicKind} (hc : validConfig s.cfg = true)
    (hk : apicKind r s.ioapic.ioregsel = .ok k) (v : Word32) :
    mmioWrite (regAddr s.cfg r) v s = apicTransaction k v s := by
  by_cases hf : s.cfg.family = .apic
  · simp [mmioWrite, mmioKind, hf, regTarget_regAddr hc, hk, Except.mapError]
  · simp [mmioWrite, mmioKind, apicTransaction, hf]

/-- R97: on a valid machine that is not Busy the instruction of a word on a register has the outcome of the register's
write. -/
theorem exec_eq_finish_mmioWrite {s : State} {r : MmioReg} {v : Word32} {i : Instr} (hp : s.seq.phase ≠ .busy)
    (hc : validConfig s.cfg = true) (hd : decode (.mmio r s.ioapic.ioregsel) (v.setWidth 64) = .ok i) :
    exec i s = finish s (mmioWrite (regAddr s.cfg r) v s) := by
  have hv : (v.setWidth 64).setWidth 32 = v := by simp
  simp only [decode, hv] at hd
  cases hk : apicKind r s.ioapic.ioregsel with
  | error e => simp [hk, Except.map] at hd
  | ok k =>
    simp only [hk, Except.map, Except.ok.injEq] at hd
    rw [← hd, exec_apicKind_instr, rawAccess_of_not_busy _ hp, mmioWrite_regAddr hc hk]

/-! ### The host's raw accesses -/

/-- R66: a raw write on a machine that is not Busy runs the instruction decoded where it is written. -/
theorem rawWrite_of_decode {x : Transaction} {v : Word32} {s : State} {ctx : Context} {i : Instr}
    (hp : s.seq.phase ≠ .busy) (hx : writeContext x s = .ok ctx) (hd : decode ctx (v.setWidth 64) = .ok i) :
    rawWrite x v s = exec i s := by
  unfold rawWrite
  cases hphase : s.seq.phase with
  | busy => exact absurd hphase hp
  | idle => simp only [hx, hd]
  | faulted => simp only [hx, hd]

/-- R147: on a machine that is not Busy a raw write that reaches no register is refused. -/
theorem rawWrite_of_error {x : Transaction} {s : State} {r : Refusal} (hp : s.seq.phase ≠ .busy)
    (hx : writeContext x s = .error r) (v : Word32) : rawWrite x v s = .next (s.markRefused r) := by
  unfold rawWrite
  cases hphase : s.seq.phase with
  | busy => exact absurd hphase hp
  | idle => simp only [hx, finish_error]
  | faulted => simp only [hx, finish_error]

/-- R147: on a machine that is not Busy a raw read that answers nothing is refused. -/
theorem rawRead_of_error {x : Transaction} {s : State} {r : Refusal} (hp : s.seq.phase ≠ .busy)
    (hx : rawRead x s = .error r) : rawAccess (rawRead x) s = .next (s.markRefused r) := by
  rw [rawAccess_of_not_busy _ hp, hx, finish_error]

/-- Settles O9, from the context in which each raw write's word is decoded. -/
theorem stepRunsTheRawWrite : Obligations.StepRunsTheRawWrite := by
  refine ⟨fun s port v rest c p i hr hp hf hi ha hd => ?_, fun s v rest r i hr hp hf hc hi hd => ?_⟩
  · rw [step_of_inputs hr hi]
    have hx : writeContext (.ioWrite port 1 v) { s with inputs := rest } = .ok (.pic c p (s.pic c).step) := by
      simp only [writeContext, ha, portTarget_portAddr, hf, if_true]
      cases c <;> rfl
    exact rawWrite_of_decode hp hx hd
  · rw [step_of_inputs hr hi]
    have hx : writeContext (.memWrite (regAddr s.cfg r) 4 v) { s with inputs := rest } =
        .ok (.mmio r s.ioapic.ioregsel) := by
      simp [writeContext, regAddr_aligned hc, hf, regTarget_regAddr hc]
    exact rawWrite_of_decode hp hx hd

section Refused

variable {s : State} {v : Word32} {n : Nat} {x : Transaction} (hp : s.seq.phase ≠ .busy)
include hp

/-- R56: an I/O access of another width than one byte. -/
theorem hostRaw_io_width {a : Port} (hx : x = .ioWrite a n v ∨ x = .ioRead a n) (hn : n ≠ 1) :
    hostRaw x s = .next (s.markRefused .unmodelledAccess) := by
  rcases hx with rfl | rfl
  · exact rawWrite_of_error hp (by simp [writeContext, hn]) v
  · exact rawRead_of_error hp (if_neg hn)

/-- R53: a one-byte I/O access that reaches no port of this machine. -/
theorem hostRaw_io_address {a : Port} (hx : x = .ioWrite a 1 v ∨ x = .ioRead a 1)
    (ha : s.cfg.family = .apic ∨ portTarget a = none) : hostRaw x s = .next (s.markRefused .unmodelledAddress) := by
  rcases hx with rfl | rfl
  · refine rawWrite_of_error hp ?_ v
    rcases ha with ha | ha <;> simp only [writeContext, ha, if_true]
    split <;> rfl
  · refine rawRead_of_error hp ?_
    rcases ha with ha | ha <;> simp only [rawRead, portRead, ha, if_true]
    · split <;> rfl
    · rfl

/-- R56: an MMIO access of another width than four bytes, or a misaligned one. -/
theorem hostRaw_mem_width {a : Word32} (hx : x = .memWrite a n v ∨ x = .memRead a n)
    (hn : ¬ (n = 4 ∧ a.extractLsb' 0 2 = 0#2)) : hostRaw x s = .next (s.markRefused .unmodelledAccess) := by
  rcases hx with rfl | rfl
  · exact rawWrite_of_error hp (by simp [writeContext, hn]) v
  · exact rawRead_of_error hp (if_neg hn)

/-- R53: an aligned four-byte MMIO access that reaches no register of this machine. -/
theorem hostRaw_mem_address {a : Word32} (hx : x = .memWrite a 4 v ∨ x = .memRead a 4) (hal : a.extractLsb' 0 2 = 0#2)
    (ha : s.cfg.family = .pic ∨ regTarget s.cfg a = none) : hostRaw x s = .next (s.markRefused .unmodelledAddress) := by
  rcases hx with rfl | rfl
  · refine rawWrite_of_error hp ?_ v
    rcases ha with ha | ha <;> simp [writeContext, hal, ha]
  · refine rawRead_of_error hp ?_
    rcases ha with ha | ha <;> simp [rawRead, mmioRead, hal, ha, Except.map]

end Refused

/-- Settles O37: the width is checked before the address, for writes and reads alike. -/
theorem unmodelledAccessesAreRefused : Obligations.UnmodelledAccessesAreRefused := by
  intro s rest v hr hp
  have hp' : ({ s with inputs := rest } : State).seq.phase ≠ .busy := hp
  refine ⟨fun a n x hx hi => ?_, fun a n x hx hi => ?_⟩ <;> rw [step_of_inputs hr hi]
  · refine ⟨hostRaw_io_width hp' hx, ?_⟩
    rintro rfl ha
    exact hostRaw_io_address hp' hx (ha.imp_right portTarget_eq_none.mpr)
  · refine ⟨fun h => hostRaw_mem_width hp' hx ?_, ?_⟩
    · rw [aligned_iff]
      omega
    · rintro rfl hal ha
      exact hostRaw_mem_address hp' hx ((aligned_iff a).mpr hal) (ha.imp_right regTarget_eq_none.mpr)

/-! ### One transaction of the sequencer -/

/-- R19: a byte written to a port is logged under that port. -/
theorem portWrite_hist {a : Port} {v : Byte} {s t : State} (h : portWrite a v s = .ok t) :
    t.hist = s.hist ++ [evIow a v] := by
  unfold portWrite at h
  split at h
  · cases h
  next c p ha =>
    obtain ⟨-, q, -, rfl⟩ := picTransaction_ok h
    rw [kindPort_picKind, ← portAddr_of_portTarget ha]
    simp

/-- R19: a word of known kind is logged under its register's address, whatever the device does with it. -/
theorem apicTransaction_hist {k : ApicKind} {v : Word32} {s t : State} (h : apicTransaction k v s = .ok t) :
    t.hist = s.hist ++ [evMw (regAddr s.cfg (kindReg k)) v] := by
  obtain ⟨e, he⟩ := (apicTransaction_transacted h).1.hist
  obtain ⟨-, u, -, rfl⟩ := apicTransaction_ok h
  obtain ⟨hu, -⟩ := List.append_inj' (show u.hist ++ [evMw _ v] = _ from he) rfl
  rw [← hu]
  rfl

/-- A write of a kind stands at the address of that kind's register. -/
theorem addr_of_mmioKind {a : Word32} {s : State} {k : ApicKind} (h : mmioKind a s = .ok k) :
    a = regAddr s.cfg (kindReg k) := by
  unfold mmioKind at h
  split at h
  · split at h
    · cases h
    next r ha =>
      cases hr : apicKind r s.ioapic.ioregsel with
      | error e => simp [hr, Except.mapError] at h
      | ok k' =>
        obtain rfl : k' = k := by simpa [hr, Except.mapError] using h
        rw [kindReg_of_apicKind hr]
        exact regAddr_of_regTarget ha
  · cases h

/-- R19: a word written to a register is logged under its address. -/
theorem mmioWrite_hist {a v : Word32} {s t : State} (h : mmioWrite a v s = .ok t) : t.hist = s.hist ++ [evMw a v] := by
  unfold mmioWrite at h
  split at h
  · cases h
  next k hk =>
    rw [addr_of_mmioKind hk]
    exact apicTransaction_hist h

/-- R19, R97: what a transaction of a micro-program does: a write to a device, or a read, as its event says. -/
inductive Performed (s t : State) : Prop where
  | wroteByte (a : Port) (v : Byte) (h : portWrite a v s = .ok t) (he : t.hist = s.hist ++ [evIow a v])
  | wroteWord (a v : Word32) (h : mmioWrite a v s = .ok t) (he : t.hist = s.hist ++ [evMw a v])
  | readByte (a : Port) (v : Byte) (he : t.hist = s.hist ++ [evIor a v])
  | readWord (a v : Word32) (he : t.hist = s.hist ++ [evMr a v])

/-- Every transaction that is not refused is one of these. -/
theorem perform_performed {x : Micro} {s t : State} (h : perform x s = .ok t) : Performed s t := by
  cases x with
  | out8 a e => exact .wroteByte a _ h (portWrite_hist h)
  | st32 a e => exact .wroteWord a _ h (mmioWrite_hist h)
  | in8 a d =>
    cases hr : portRead a s with
    | error e => simp [perform, hr, Except.map] at h
    | ok q =>
      obtain ⟨v, u⟩ := q
      obtain ⟨-, rfl⟩ := portRead_ok hr
      simp only [perform, hr, Except.map, Except.ok.injEq] at h
      exact .readByte a v (by simp [← h])
  | ld32 a d =>
    cases hr : mmioRead a s with
    | error e => simp [perform, hr, Except.map] at h
    | ok q =>
      obtain ⟨v, u⟩ := q
      obtain ⟨-, rfl | rfl⟩ := mmioRead_ok hr <;>
      · simp only [perform, hr, Except.map, Except.ok.injEq] at h
        exact .readWord a v (by simp [← h])

/-- An event of a byte on a port names the port and the byte. -/
theorem evIow_inj {a b : Port} {v w : Byte} : evIow a v = evIow b w ↔ a = b ∧ v = w := by
  simp only [evIow, Event.bus.injEq, true_and, ← BitVec.toNat_inj, BitVec.toNat_setWidth]
  omega

/-- An event of a word on a register names its address and the word. -/
theorem evMw_inj {a b v w : Word32} : evMw a v = evMw b w ↔ a = b ∧ v = w := by
  simp [evMw]

/-- A transaction logged as a byte on a port is that write. -/
theorem Performed.portWrite_of_hist {s t : State} (h : Performed s t) {a : Port} {v : Byte}
    (he : t.hist = s.hist ++ [evIow a v]) : portWrite a v s = .ok t := by
  cases h with
  | wroteByte b w hw hb =>
    obtain ⟨rfl, rfl⟩ : b = a ∧ w = v := evIow_inj.mp (by simpa [hb] using he)
    exact hw
  | wroteWord b w hw hb | readByte b w hb | readWord b w hb =>
    simp [hb, evIow, evMw, evIor, evMr] at he

/-- A transaction logged as a word on a register is that write. -/
theorem Performed.mmioWrite_of_hist {s t : State} (h : Performed s t) {a v : Word32}
    (he : t.hist = s.hist ++ [evMw a v]) : mmioWrite a v s = .ok t := by
  cases h with
  | wroteWord b w hw hb =>
    obtain ⟨rfl, rfl⟩ : b = a ∧ w = v := evMw_inj.mp (by simpa [hb] using he)
    exact hw
  | wroteByte b w hw hb | readByte b w hb | readWord b w hb =>
    simp [hb, evIow, evMw, evIor, evMr] at he

/-! ### The sequencer's turn -/

/-- What a Busy machine makes of an instruction: a refusal, or one transaction of a micro-program, after which `upc` moves
on. -/
def BusyOutcome (s t : State) : Prop :=
  (∃ r, t = s.markRefused r) ∨ ∃ (u : State) (n : Nat), Performed s u ∧ t = (u.advance n).latched

/-- R96, R148: a request's meaning on a Busy machine. -/
theorem runRequest_busy {fam : Family} {i : Instr} {chk : Option FaultCode} {prog : Program} {s t : State}
    (hp : s.seq.phase = .busy) (h : runRequest fam i chk prog s = .next t) : BusyOutcome s t := by
  simp only [runRequest, hp] at h
  split at h
  · unfold microStep at h
    split at h
    · cases h
    next x _ =>
      cases hx : perform x s with
      | error r =>
        simp only [hx, Except.map, finish_error, Host.Outcome.next.injEq] at h
        exact .inl ⟨r, h.symm⟩
      | ok u =>
        simp only [hx, Except.map, finish_ok, Host.Outcome.next.injEq] at h
        exact .inr ⟨u, _, perform_performed hx, h.symm⟩
  · simp only [finish_error, Host.Outcome.next.injEq] at h
    exact .inl ⟨_, h.symm⟩

/-- R148: a raw access on a Busy machine is refused. -/
theorem rawAccess_busy {f : State → Except Refusal State} {s t : State} (hp : s.seq.phase = .busy)
    (h : rawAccess f s = .next t) : BusyOutcome s t := by
  rcases rawAccess_cases h with h | ⟨hn, -⟩
  · exact .inl h
  · exact absurd hp hn

/-- What an instruction does on a Busy machine. -/
theorem exec_busy {i : Instr} {s t : State} (hp : s.seq.phase = .busy) (h : exec i s = .next t) : BusyOutcome s t := by
  cases i with
  | picInit | picMask | picUnmask | picEoi | ioapicWriteEntry | ioapicSetMask => exact runRequest_busy hp h
  | picReadMasks => exact runRequest_busy (chk := none) (prog := picReadMasksProgram) hp h
  | picWriteMasks m sl => exact runRequest_busy (chk := none) (prog := picWriteMasksProgram m sl) hp h
  | picUnmaskAll => exact runRequest_busy (chk := none) (prog := picUnmaskAllProgram) hp h
  | lapicEnable v => exact runRequest_busy (chk := none) (prog := lapicEnableProgram s.cfg v) hp h
  | lapicEoi => exact runRequest_busy (chk := none) (prog := lapicEoiProgram s.cfg) hp h
  | _ => exact rawAccess_busy hp h

/-- R96: a step of the sequencer that adds an event to the history is a transaction from the state without the turn's
input. -/
theorem step_sequencer_performed {s t : State} {e : Event} (hp : s.seq.phase = .busy) (hn : s.nextInput = .sequencer)
    (h : step s = .next t) (he : t.hist = s.hist ++ [e]) :
    ∃ (u : State) (n : Nat), Performed s.takeInput u ∧ t = (u.advance n).latched := by
  have hturn : sequencerTurn s.takeInput = .next t := by
    rw [step_of_not_refused (step_cases h).1, hn] at h
    exact h
  simp only [sequencerTurn, State_takeInput_seq, hp] at hturn
  split at hturn
  · cases hturn
  next i _ =>
    rcases exec_busy (by simpa using hp) hturn with ⟨r, rfl⟩ | hu
    · simp at he
    · exact hu

/-- R23, R96: but for the sequencer's registers, a transaction's next state is the one that its write reaches. -/
theorem advance_latched_seq (u : State) (n : Nat) (q : Sequencer) :
    ({ (u.advance n).latched with seq := q } : State) = ({ u with seq := q } : State).latched := by
  rw [← latched_seq]
  unfold State.advance
  split <;> rfl

/-- A byte written to a port reads and writes no register of the sequencer. -/
theorem portWrite_seq (c : Chip) (p : PicPort) (v : Byte) (s : State) (q : Sequencer) :
    portWrite (portAddr c p) v { s with seq := q } =
      (portWrite (portAddr c p) v s).map fun t => { t with seq := q } := by
  have hpic : ({ s with seq := q } : State).pic c = s.pic c := by cases c <;> rfl
  rw [portWrite_portAddr, portWrite_portAddr, hpic, picTransaction_seq]

/-- A word written to an MMIO address reads and writes no register of the sequencer. -/
theorem mmioWrite_seq (a v : Word32) (s : State) (q : Sequencer) :
    mmioWrite a v { s with seq := q } = (mmioWrite a v s).map fun t => { t with seq := q } := by
  have hkind : mmioKind a { s with seq := q } = mmioKind a s := rfl
  unfold mmioWrite
  rw [hkind]
  cases mmioKind a s with
  | error r => rfl
  | ok k => exact apicTransaction_seq k v s q

/-- Settles O10: the host's half by what each write decodes to, the sequencer's half by the event of its transaction. -/
theorem busWritesAgreeWithDecodedInstructions : Obligations.BusWritesAgreeWithDecodedInstructions := by
  refine ⟨fun s c p v i => exec_eq_finish_portWrite, fun s r v i => exec_eq_finish_mmioWrite,
    fun s t c p v i q _ hp hn hq h he hd => ?_, fun s t r v i q _ hp hn hq hc h he hd => ?_⟩
  · obtain ⟨u, n, hu, rfl⟩ := step_sequencer_performed hp hn h he
    have hwrite : portWrite (portAddr c p) v s.takeInput = .ok u := hu.portWrite_of_hist (by simpa using he)
    have hpic : ({ s.takeInput with seq := q } : State).pic c = s.pic c := by cases c <;> rfl
    rw [exec_eq_finish_portWrite hq (hpic ▸ hd), portWrite_seq, hwrite, advance_latched_seq]
    rfl
  · obtain ⟨u, n, hu, rfl⟩ := step_sequencer_performed hp hn h he
    have hwrite : mmioWrite (regAddr s.cfg r) v s.takeInput = .ok u := hu.mmioWrite_of_hist (by simpa using he)
    rw [exec_eq_finish_mmioWrite (s := { s.takeInput with seq := q }) hq hc hd, State_takeInput_cfg, mmioWrite_seq,
      hwrite, advance_latched_seq]
    rfl

end Sys2Proof.Machine
end

section
/-!
SUPPORT. Encoding and decoding agree (R69 to R75, R85, R86, R91): the word of a well-formed instruction decodes to it, and a
request word that decodes is the word of a well-formed request.
-/

namespace Sys2Proof.Machine

/-! ### Request words -/

/-- R72: the byte `x`, placed at bit `k` of a word of the operation, sets no must-be-zero bit. -/
def FieldFits (op : Opcode) (k : Nat) (x : Byte) : Prop := ∀ j < 8, freeBit op (k + j) = false → x.getLsbD j = false

/-- The zero byte fits everywhere. -/
theorem FieldFits.zero {op : Opcode} {k : Nat} : FieldFits op k 0#8 := fun _ _ _ => BitVec.getLsbD_zero

/-- Every byte fits a field that is an operand as a whole. -/
theorem FieldFits.of_free {op : Opcode} {k : Nat} {x : Byte} (h : ∀ j < 8, freeBit op (k + j) = true) :
    FieldFits op k x :=
  fun j hj hfree => by simp [h j hj] at hfree

/-- R71: the modes of IOAPIC_WRITE_ENTRY leave bits 7:6 of field C clear. -/
theorem FieldFits.packModes (dm : DeliveryMode) (dsm : DestMode) (pol : Polarity) (trg : TriggerMode) :
    FieldFits .ioapicWriteEntry 24 (packModes dm dsm pol trg) := fun j hj hfree => by
  obtain ⟨-, -, -, -, h6, h7⟩ := packModes_fields dm dsm pol trg
  obtain rfl | rfl : j = 6 ∨ j = 7 := by
    simp only [freeBit, decide_eq_false_iff_not] at hfree
    omega
  · exact h6
  · exact h7

/-- R71: the mask bit of IOAPIC_SET_MASK leaves bits 7:1 of field B clear. -/
theorem FieldFits.maskBit (m : Bool) : FieldFits .ioapicSetMask 16 ((BitVec.ofBool m).setWidth 8) := fun j hj hfree => by
  have hpos : j ≠ 0 := by
    rintro rfl
    simp [freeBit] at hfree
  simp [BitVec.getLsbD_setWidth, BitVec.getLsbD_ofBool, hpos]

/-- R72: a word packed from fields that fit passes the must-be-zero check. -/
theorem mustBeZeroClear_packRequest {op : Opcode} {a b c d : Byte} (ha : FieldFits op 8 a) (hb : FieldFits op 16 b)
    (hc : FieldFits op 24 c) (hd : FieldFits op 32 d) : mustBeZeroClear op (packRequest op a b c d) = true := by
  refine (mustBeZeroClear_iff op _).mpr fun i h8 h64 hfree => ?_
  have ha := ha (i - 8)
  have hb := hb (i - 16)
  have hc := hc (i - 24)
  have hd := hd (i - 32)
  have high := BitVec.getLsbD_of_ge d (i - 32)
  rw [getLsbD_packRequest]
  grind

/-- R72: a word packed from fields that fit is read field by field. -/
theorem decode_packRequest {op : Opcode} {a b c d : Byte} (ha : FieldFits op 8 a) (hb : FieldFits op 16 b)
    (hc : FieldFits op 24 c) (hd : FieldFits op 32 d) :
    decode .request (packRequest op a b c d) = decodeFields op (packRequest op a b c d) := by
  simp [decode, decodeRequest, mustBeZeroClear_packRequest ha hb hc hd]

/-- R69 to R72: the word of a request decodes to it. -/
theorem decode_encode_request {i : Instr} {op : Opcode} (h : opcodeOf i = some op) :
    decode .request (encode i) = .ok i := by
  cases i with
  | picInit | picWriteMasks =>
    rw [encode, decode_packRequest (.of_free (by decide)) (.of_free (by decide)) .zero .zero]
    simp [decodeFields]
  | picMask | picUnmask | picEoi | lapicEnable =>
    rw [encode, decode_packRequest (.of_free (by decide)) .zero .zero .zero]
    simp [decodeFields]
  | picReadMasks | picUnmaskAll | lapicEoi =>
    rw [encode, decode_packRequest .zero .zero .zero .zero]
    rfl
  | ioapicWriteEntry n vec dm dsm pol trg dest =>
    obtain ⟨hdm, hdsm, hpol, htrg, -⟩ := packModes_fields dm dsm pol trg
    rw [encode, decode_packRequest (.of_free (by decide)) (.of_free (by decide)) (.packModes dm dsm pol trg)
      (.of_free (by decide))]
    simp only [decodeFields, fieldA_packRequest, fieldB_packRequest, fieldC_packRequest, fieldD_packRequest, hdm, hdsm,
      hpol, htrg]
    cases dsm <;> cases pol <;> cases trg <;> rfl
  | ioapicSetMask n m =>
    rw [encode, decode_packRequest (.of_free (by decide)) (.maskBit m) .zero .zero]
    cases m <;> simp [decodeFields]
  | _ => cases h

/-- R70: the fields of an operation's word are read as a request of that operation. -/
theorem opcodeOf_decodeFields {op : Opcode} {w : Word64} {i : Instr} (h : decodeFields op w = .ok i) :
    opcodeOf i = some op := by
  cases op with
  | ioapicWriteEntry =>
    simp only [decodeFields] at h
    split at h <;> cases h
    rfl
  | _ => cases h; rfl

/-- R72: a word that decodes as a request names that request's operation in its OP byte. -/
theorem decode_request_ok {w : Word64} {i : Instr} (h : decode .request w = .ok i) :
    ∃ op, Opcode.ofByte (w.extractLsb' 0 8) = some op ∧ opcodeOf i = some op := by
  simp only [decode, decodeRequest] at h
  split at h
  · cases h
  next op hop =>
    split at h
    next => exact ⟨op, hop, opcodeOf_decodeFields h⟩
    next => cases h

/-- R69: every request is well formed, as its operands are whole fields. -/
theorem wellFormed_of_opcodeOf {i : Instr} {op : Opcode} (h : opcodeOf i = some op) : i.wellFormed = true := by
  cases i with
  | icw1 | ocw2Other | ocw3 | ioapicWindowWriteLo | ioapicWindowWriteHi => cases h
  | _ => rfl

/-! ### Bytes and register words -/

/-- R74, R75: a byte decodes by the port and the init step it meets. -/
theorem decode_pic_byte (c : Chip) (p : PicPort) (step : InitStep) (v : Byte) :
    decode (.pic c p step) (v.setWidth 64) = .ok ((picKind p step v).instr c v) := by
  have hv : (v.setWidth 64).setWidth 8 = v := by simp
  rw [decode, hv]

/-- R86, R91: a register word decodes by the register and the index it meets. -/
theorem decode_mmio_word {r : MmioReg} {x : Byte} {k : ApicKind} (h : apicKind r x = .ok k) (v : Word32) :
    decode (.mmio r x) (v.setWidth 64) = .ok (k.instr v) := by
  have hv : (v.setWidth 64).setWidth 32 = v := by simp
  rw [decode, h, hv]
  rfl

/-- R86: at its low index an entry's window takes its low half. -/
theorem apicKind_loIndex {n : Nat} (h : n < 120) : apicKind .ioapicWindow (loIndex n) = .ok (.windowWriteLo n) := by
  rw [apicKind, indexTarget_lo (loIndex_toNat h)]

/-- R86: at its high index an entry's window takes its high half. -/
theorem apicKind_hiIndex {n : Nat} (h : n < 120) : apicKind .ioapicWindow (hiIndex n) = .ok (.windowWriteHi n) := by
  rw [apicKind, indexTarget_hi (hiIndex_toNat h)]

/-- R74: a command byte with bit 4 set is an ICW1. -/
theorem picKind_icw1 {step : InitStep} {v : Byte} (h4 : v.getLsbD 4 = true) : picKind .command step v = .icw1 := if_pos h4

/-- R74: a command byte with bits 4:3 equal to 01 is an OCW3. -/
theorem picKind_ocw3 {step : InitStep} {v : Byte} (h4 : v.getLsbD 4 = false) (h3 : v.getLsbD 3 = true) :
    picKind .command step v = .ocw3 := by
  simp only [picKind, commandKind, h4, h3, Bool.false_eq_true, if_false, if_true]

/-- R109: a command byte with bits 4:3 clear is no EOI while the chip is not Ready. -/
theorem picKind_ocw2Other {step : InitStep} {v : Byte} (h4 : v.getLsbD 4 = false) (h3 : v.getLsbD 3 = false)
    (hs : step ≠ .ready) : picKind .command step v = .ocw2Other := by
  simp only [picKind, commandKind, h4, h3, hs, and_false, Bool.false_eq_true, if_false]

/-- Settles O4: the requests by their fields, a byte by its port and init step, a register word by its register and
index. -/
theorem decodeInvertsEncode : Obligations.DecodeInvertsEncode := by
  intro i hw
  cases i with
  | icw1 c v => exact (decode_pic_byte c _ _ v).trans (by rw [picKind_icw1 hw]; rfl)
  | ocw2Other c v =>
    simp only [Instr.wellFormed, Bool.and_eq_true, Bool.not_eq_true'] at hw
    exact (decode_pic_byte c _ _ v).trans (by rw [picKind_ocw2Other hw.1 hw.2 (by decide)]; rfl)
  | ocw3 c v =>
    simp only [Instr.wellFormed, Bool.and_eq_true, Bool.not_eq_true'] at hw
    exact (decode_pic_byte c _ _ v).trans (by rw [picKind_ocw3 hw.1 hw.2]; rfl)
  | ocw2NonspecificEoi c => exact decode_pic_byte c .command .ready 0x20#8
  | icw2 c v | icw3 c v | icw4 c v | ocw1 c v => exact decode_pic_byte c .data _ v
  | ioapicWindowWriteLo n v => exact decode_mmio_word (apicKind_loIndex (of_decide_eq_true hw)) v
  | ioapicWindowWriteHi n v => exact decode_mmio_word (apicKind_hiIndex (of_decide_eq_true hw)) v
  | ioapicIndexWrite v => exact decode_mmio_word (k := .indexWrite) rfl v
  | lapicSvrWrite v => exact decode_mmio_word (k := .svrWrite) rfl v
  | lapicTprWrite v => exact decode_mmio_word (k := .tprWrite) rfl v
  | lapicEoiWrite v => exact decode_mmio_word (k := .eoiWrite) rfl v
  | _ => exact decode_encode_request rfl

/-- Settles O5: a word that decodes is packed from its own fields. -/
theorem encodeInvertsDecodeOfRequests : Obligations.EncodeInvertsDecodeOfRequests := by
  intro w i h
  obtain ⟨op, -, hop⟩ := decode_request_ok h
  exact ⟨encode_of_decode_request h, wellFormed_of_opcodeOf hop, by simp [hop]⟩

/-- Settles O6, by evaluating the decoder on the seven words. -/
theorem tableWordsDecode : Obligations.TableWordsDecode := by
  unfold Obligations.TableWordsDecode
  decide

/-! ### The packed entry -/

/-- R85: the bits of an entry made of the two packed halves. -/
theorem getLsbD_packedEntry (vec dest : Byte) (dm : BitVec 3) (dsm pol trg m : Bool) (j : Nat) :
    (packHi dest ++ packLo vec dm dsm pol trg m : Word64).getLsbD j =
      if j < 8 then vec.getLsbD j else if j < 11 then dm.getLsbD (j - 8) else if j = 11 then dsm
      else if j = 13 then pol else if j = 15 then trg else if j = 16 then m
      else decide (56 ≤ j) && dest.getLsbD (j - 56) := by
  rw [getLsbD_halves, getLsbD_packLo, getLsbD_packHi, Nat.sub_sub]
  grind

/-- Settles O39: each field of R85 is a run of the entry's bits. -/
theorem packedEntryFields : Obligations.PackedEntryFields := by
  intro vec dm dsm pol trg m dest e
  have bit : ∀ j, e.getLsbD j = _ := getLsbD_packedEntry vec dest dm.code dsm.bit pol.bit trg.bit m
  refine ⟨BitVec.eq_of_getLsbD_eq fun j hj => ?_, BitVec.eq_of_getLsbD_eq fun j hj => ?_, bit 11, bit 13, bit 15, bit 16,
    BitVec.eq_of_getLsbD_eq fun j hj => ?_, bit 12, bit 14, fun j h17 h56 => ?_⟩
  · simp [entryVector, bit, hj]
  · simp [entryDeliveryMode, bit, hj]
    omega
  · simp only [entryDestination, BitVec.getLsbD_extractLsb', hj, bit]
    grind
  · rw [bit]
    grind

end Sys2Proof.Machine
end

section
/-!
SUPPORT. What a submission and a request's meaning do on an Idle machine (R72, R73, R94, R144 to R147), in the order of the
checks.
-/

namespace Sys2Proof.Machine

/-! ### A request on an Idle machine -/

/-- R73, R94: a request's meaning is `runRequest` of its operation's family, with the contract of R73 as its operand
check. -/
theorem exec_request {i : Instr} {op : Opcode} (h : opcodeOf i = some op) (s : State) :
    ∃ prog, exec i s = runRequest op.family i (contractFault s.cfg i) prog s := by
  cases i with
  | picInit mb sb => cases h; exact ⟨picInitProgram mb sb, by rw [← checkBases_eq mb sb s.cfg]; rfl⟩
  | picMask l => cases h; exact ⟨picMaskProgram l, congrArg (runRequest _ _ · _ s) (checkLine_eq l 16)⟩
  | picUnmask l => cases h; exact ⟨picUnmaskProgram l, congrArg (runRequest _ _ · _ s) (checkLine_eq l 16)⟩
  | picEoi l => cases h; exact ⟨picEoiProgram l, congrArg (runRequest _ _ · _ s) (checkLine_eq l 16)⟩
  | ioapicWriteEntry l vec dm dsm pol trg dest =>
    cases h
    exact ⟨ioapicWriteEntryProgram s.cfg l vec dm dsm pol trg dest,
      congrArg (runRequest _ _ · _ s) (checkLine_eq l s.cfg.nRedir)⟩
  | ioapicSetMask l m =>
    cases h; exact ⟨ioapicSetMaskProgram s.cfg l m, congrArg (runRequest _ _ · _ s) (checkLine_eq l s.cfg.nRedir)⟩
  | picReadMasks => cases h; exact ⟨picReadMasksProgram, rfl⟩
  | picWriteMasks m sl => cases h; exact ⟨picWriteMasksProgram m sl, rfl⟩
  | picUnmaskAll => cases h; exact ⟨picUnmaskAllProgram, rfl⟩
  | lapicEnable v => cases h; exact ⟨lapicEnableProgram s.cfg v, rfl⟩
  | lapicEoi => cases h; exact ⟨lapicEoiProgram s.cfg, rfl⟩
  | _ => cases h

section Idle

variable {i : Instr} {op : Opcode} {s : State} (h : opcodeOf i = some op) (hp : s.seq.phase = .idle)
include h hp

/-- R94: a request of the machine's family that keeps the contract is accepted. -/
theorem exec_accepted (hf : op.family = s.cfg.family) (hc : contractFault s.cfg i = none) :
    exec i s = .next ({ s with seq := s.seq.accepted (encode i) } : State).latched := by
  obtain ⟨prog, hx⟩ := exec_request h s
  rw [hx, runRequest_idle hp, if_pos hf, hc]

/-- R144, R146: a request of the machine's family that breaks the contract takes its fault. -/
theorem exec_faulted (hf : op.family = s.cfg.family) {c : FaultCode} (hc : contractFault s.cfg i = some c) :
    exec i s = .next ({ s with seq := s.seq.faultedWith c (encode i) } : State).latched := by
  obtain ⟨prog, hx⟩ := exec_request h s
  rw [hx, runRequest_idle hp, if_pos hf, hc]

end Idle

/-- Settles O13: the operand check of a request's meaning is the contract of R73. -/
theorem contractViolationsTakeTheFault : Obligations.ContractViolationsTakeTheFault := by
  intro i s c hp hf hc
  obtain ⟨op, hop, hfam⟩ := Option.map_eq_some_iff.mp hf
  exact exec_faulted hop hp hfam hc

/-! ### A submission to an Idle machine -/

/-- R94: the turn of a waiting submission. -/
theorem step_of_submit {s : State} {w : Word64} {rest : List Input} (hr : s.refused = none)
    (hi : s.inputs = .submit w :: rest) : step s = hostSubmit w { s with inputs := rest } :=
  step_of_inputs hr hi

section Submission

variable {w : Word64} {s : State} (hp : s.seq.phase = .idle)
include hp

/-- R72: a word whose OP names no operation faults. -/
theorem hostSubmit_of_unknown (h : Opcode.ofByte (w.extractLsb' 0 8) = none) :
    hostSubmit w s = .next ({ s with seq := s.seq.faultedWith .illegalRequest w } : State).latched := by
  simp only [hostSubmit, hp, h]
  rfl

variable {op : Opcode} (h : Opcode.ofByte (w.extractLsb' 0 8) = some op)
include h

/-- R149: a word of the other family's operation is refused, whatever its other bits. -/
theorem hostSubmit_of_absent (hf : op.family ≠ s.cfg.family) :
    hostSubmit w s = .next (s.markRefused .familyAbsent) := by
  simp only [hostSubmit, hp, h, hf, if_false, finish_error]

variable (hf : op.family = s.cfg.family)
include hf

/-- R72: a word of this family's operation that decodes to nothing faults. -/
theorem hostSubmit_of_illegal {e : Reject} (hd : decode .request w = .error e) :
    hostSubmit w s = .next ({ s with seq := s.seq.faultedWith .illegalRequest w } : State).latched := by
  simp only [hostSubmit, hp, h, hf, if_true, hd]
  rfl

/-- R94: a word of this family's operation that decodes runs its request. -/
theorem hostSubmit_of_decode {i : Instr} (hd : decode .request w = .ok i) : hostSubmit w s = exec i s := by
  simp only [hostSubmit, hp, h, hf, if_true, hd]

end Submission

/-- Settles O7: the OP byte of a word that decodes names the request's operation. -/
theorem stepRunsTheSubmittedRequest : Obligations.StepRunsTheSubmittedRequest := by
  intro s w rest i hr hp hi hd hf
  obtain ⟨op, hop, hi'⟩ := decode_request_ok hd
  rw [step_of_submit hr hi]
  exact hostSubmit_of_decode (s := { s with inputs := rest }) hp hop (by simpa [hi'] using hf) hd

/-! ### The verdict on a word -/

/-- R70: the OP bytes listed by family are the operations' codes. -/
theorem opFamily_toNat (b : Byte) : opFamily b.toNat = (Opcode.ofByte b).map Opcode.family := by
  revert b; decide

/-- R72: the operand masks listed by OP byte are the operations' masks. -/
theorem opFreeMask_code (op : Opcode) : opFreeMask op.code.toNat = op.freeMask := by cases op <;> rfl

/-- R69: the OP byte as a number. -/
theorem opByte_toNat (w : Word64) : (w.extractLsb' 0 8).toNat = w.toNat % 256 := by simp [BitVec.extractLsb'_toNat]

/-- R69: field A as a number. -/
theorem fieldA_toNat (w : Word64) : (fieldA w).toNat = w.toNat / 256 % 256 := by
  simp [fieldA, BitVec.extractLsb'_toNat, Nat.shiftRight_eq_div_pow]

/-- R69: field B as a number. -/
theorem fieldB_toNat (w : Word64) : (fieldB w).toNat = w.toNat / 65536 % 256 := by
  simp [fieldB, BitVec.extractLsb'_toNat, Nat.shiftRight_eq_div_pow]

/-- R71: the delivery mode of field C as a number. -/
theorem deliveryMode_toNat (w : Word64) : ((fieldC w).extractLsb' 0 3).toNat = w.toNat / 16777216 % 8 := by
  simp only [fieldC, BitVec.extractLsb'_toNat, Nat.shiftRight_eq_div_pow]
  omega

/-- R71: the codes without a mode are 3 and 6. -/
theorem DeliveryMode_ofCode_eq_none {b : BitVec 3} : DeliveryMode.ofCode b = none ↔ b.toNat = 3 ∨ b.toNat = 6 := by
  revert b; decide

/-- R72: an OP byte that names no operation decides the verdict. -/
theorem submitVerdict_of_unknown {c : Config} {w : Word64} (h : Opcode.ofByte (w.extractLsb' 0 8) = none) :
    submitVerdict c w = .fault .illegalRequest := by
  have hfam : opFamily (w.toNat % 256) = none := by rw [← opByte_toNat, opFamily_toNat, h]; rfl
  simp only [submitVerdict, hfam]

/-- R145: an OP byte of the other family decides the verdict. -/
theorem submitVerdict_of_absent {c : Config} {w : Word64} {op : Opcode}
    (h : Opcode.ofByte (w.extractLsb' 0 8) = some op) (hf : op.family ≠ c.family) :
    submitVerdict c w = .familyAbsent := by
  have hfam : opFamily (w.toNat % 256) = some op.family := by rw [← opByte_toNat, opFamily_toNat, h]; rfl
  simp only [submitVerdict, hfam, hf, ne_eq, not_false_eq_true, if_true]

/-- The verdict on a word of this machine's family, from what it decodes to and the contract of R73. -/
def decodedVerdict (c : Config) : Except Reject Instr → Verdict
  | .error _ => .fault .illegalRequest
  | .ok i => (contractFault c i).elim .accepted .fault

/-- R72, R73: for a word whose OP is of this machine's family, the checks on its numbers are the decoder's and the
contract's. -/
theorem submitVerdict_of_family {c : Config} {w : Word64} {op : Opcode}
    (h : Opcode.ofByte (w.extractLsb' 0 8) = some op) (hf : op.family = c.family) :
    submitVerdict c w = decodedVerdict c (decode .request w) := by
  have elim_ite := apply_ite fun o : Option FaultCode => o.elim Verdict.accepted Verdict.fault
  have hcode : w.toNat % 256 = op.code.toNat := by rw [Opcode_code_of_ofByte h, opByte_toNat]
  have hfam : opFamily op.code.toNat = some op.family := by simp [opFamily_toNat]
  have hfree : (w &&& ~~~op.freeMask &&& ~~~0xFF#64 ≠ 0#64) ↔ mustBeZeroClear op w = false := by simp [mustBeZeroClear]
  simp only [submitVerdict, hcode, hfam, hf, ne_eq, not_true_eq_false, if_false, opFreeMask_code, hfree, decode,
    decodeRequest, h, ← fieldA_toNat, ← fieldB_toNat, ← deliveryMode_toNat, ← DeliveryMode_ofCode_eq_none]
  cases mustBeZeroClear op w with
  | false => rfl
  | true =>
    cases op with
    | ioapicWriteEntry =>
      simp only [decodeFields]
      cases DeliveryMode.ofCode ((fieldC w).extractLsb' 0 3) with
      | none => rfl
      | some dm => simp [Opcode.code, decodedVerdict, contractFault, elim_ite]
    | _ => simp [Opcode.code, decodedVerdict, decodeFields, contractFault, elim_ite]

/-- Settles O11: the checks in order, each with what the submission then does. -/
theorem submissionFollowsTheOrderOfChecks : Obligations.SubmissionFollowsTheOrderOfChecks := by
  intro s w rest hr hp hi
  have hp' : ({ s with inputs := rest } : State).seq.phase = .idle := hp
  rw [step_of_submit hr hi]
  cases hop : Opcode.ofByte (w.extractLsb' 0 8) with
  | none => rw [hostSubmit_of_unknown hp' hop, submitVerdict_of_unknown hop]
  | some op =>
    by_cases hf : op.family = s.cfg.family
    · rw [submitVerdict_of_family hop hf]
      cases hd : decode .request w with
      | error e => exact hostSubmit_of_illegal hp' hop hf hd
      | ok i =>
        obtain ⟨op', hop', hi'⟩ := decode_request_ok hd
        obtain rfl : op' = op := Option.some.inj (hop'.symm.trans hop)
        rw [hostSubmit_of_decode hp' hop hf hd]
        cases hc : contractFault s.cfg i with
        | none =>
          rw [exec_accepted hi' hp' hf hc, encode_of_decode_request hd, decodedVerdict, hc]
          rfl
        | some c =>
          rw [exec_faulted hi' hp' hf hc, encode_of_decode_request hd, decodedVerdict, hc]
          rfl
    · rw [hostSubmit_of_absent hp' hop hf, submitVerdict_of_absent hop hf]
      rfl

end Sys2Proof.Machine
end

section
/-!
SUPPORT. The requests that write a chip's mask (R118 to R122): their writes, one by one in every init step, and the whole run
of PIC_WRITE_MASKS and PIC_UNMASK_ALL (R93, R124).
-/

namespace Sys2Proof.Machine

/-! ### One write -/

/-- R96, R97: a request's transaction that writes the byte `v` to a data port of a PIC machine, in every init step. -/
theorem runRequest_dataWrite {fam : Family} {i : Instr} {chk : Option FaultCode} {prog : Program} {k : Nat} (hk : k < 16)
    {c : Chip} {e : Word32 → Byte} (hx : prog[k]? = some (.out8 (portAddr c .data) e)) {s : State}
    (hf : s.cfg.family = .pic) (h : atTransaction i k s) {v : Byte} (hv : e s.seq.t = v) :
    runRequest fam i chk prog s = .next ({ s.afterWrite ⟨c, .data, v⟩ with
      seq := if k + 1 = prog.length then s.seq.completed else s.seq.afterTransaction k } : State).latched := by
  have hwrite : portWrite (portAddr c .data) v s = .ok (s.afterWrite ⟨c, .data, v⟩) :=
    portWrite_eq_afterWrite hf (x := ⟨c, .data, v⟩) nofun
  have hseq : (s.afterWrite ⟨c, .data, v⟩).seq = s.seq := by simp [State.afterWrite]
  have ⟨_, _, hat⟩ := h
  rw [runRequest_at hk hx h]
  simp only [perform, hv, hwrite, Except.map, finish_ok, advance_at (hseq ▸ hat) hk, hseq]
  split <;> rfl

/-- R107: a Ready chip takes a data byte as its mask. -/
theorem dataWritten_ready {p : Pic} (h : p.step = .ready) (v : Byte) : p.dataWritten v = { p with imr := v } := by
  rw [Pic.dataWritten, h]

/-- Settles O23, one write for each transaction. -/
theorem maskWriteTransactions : Obligations.MaskWriteTransactions := by
  intro m sl s hf
  refine ⟨fun h => ?_, fun h => ?_, fun h => ?_, fun h => ?_, fun p v h => dataWritten_ready h v⟩
  · exact runRequest_dataWrite (chk := none) (prog := picWriteMasksProgram m sl) (c := .master) (by omega) rfl hf h rfl
  · exact runRequest_dataWrite (chk := none) (prog := picWriteMasksProgram m sl) (c := .slave) (by omega) rfl hf h rfl
  · exact runRequest_dataWrite (chk := none) (prog := picUnmaskAllProgram) (c := .master) (by omega) rfl hf h rfl
  · exact runRequest_dataWrite (chk := none) (prog := picUnmaskAllProgram) (c := .slave) (by omega) rfl hf h rfl

/-! ### The write of PIC_MASK and PIC_UNMASK -/

/-- R120: PIC_MASK's write, on the chip that owns the line. -/
theorem exec_picMask_write {l x : Byte} {s : State} (hf : s.cfg.family = .pic) (ht : s.seq.t = x.setWidth 32)
    (h : atTransaction (.picMask l) 1 s) :
    exec (.picMask l) s = .next ({ s.afterWrite ⟨chipOf l.toNat, .data, setBit x (bitOf l.toNat) true⟩ with
      seq := s.seq.completed } : State).latched :=
  runRequest_dataWrite (prog := picMaskProgram l) (by omega) rfl hf h (by rw [ht, extractByte_setWidth]; rfl)

/-- R121: PIC_UNMASK's write, on the chip that owns the line. -/
theorem exec_picUnmask_write {l x : Byte} {s : State} (hf : s.cfg.family = .pic) (ht : s.seq.t = x.setWidth 32)
    (h : atTransaction (.picUnmask l) 1 s) :
    exec (.picUnmask l) s = .next ({ s.afterWrite ⟨chipOf l.toNat, .data, setBit x (bitOf l.toNat) false⟩ with
      seq := s.seq.completed } : State).latched :=
  runRequest_dataWrite (prog := picUnmaskProgram l) (by omega) rfl hf h (by rw [ht, extractByte_setWidth]; rfl)

/-- R119: lines 0 to 7 are the master's, by their own number. -/
theorem owner_master {l : Nat} (h : l < 8) : chipOf l = .master ∧ bitOf l = l := ⟨if_pos h, if_pos h⟩

/-- R119: the lines from 8 on are the slave's, by their number less 8. -/
theorem owner_slave {l : Nat} (h : 8 ≤ l) : chipOf l = .slave ∧ bitOf l = l - 8 :=
  ⟨if_neg (by omega), if_neg (by omega)⟩

/-- Settles O25, by the chip that owns the line. -/
theorem maskUpdateTransactions : Obligations.MaskUpdateTransactions := by
  intro l x s hf _ ht
  refine ⟨fun hl => ?_, fun hl => ?_, fun p v h => dataWritten_ready h v⟩
  · obtain ⟨hchip, hbit⟩ := owner_master hl
    refine ⟨fun h => (exec_picMask_write hf ht h).trans ?_, fun h => (exec_picUnmask_write hf ht h).trans ?_⟩ <;>
    · rw [hchip, hbit]
      rfl
  · obtain ⟨hchip, hbit⟩ := owner_slave hl
    refine ⟨fun h => (exec_picMask_write hf ht h).trans ?_, fun h => (exec_picUnmask_write hf ht h).trans ?_⟩ <;>
    · rw [hchip, hbit]
      rfl

/-! ### The run of both writes -/

/-- R22, R96: the waiting turn of the sequencer runs the request in progress. -/
theorem step_of_atTransaction {i : Instr} {op : Opcode} (ho : opcodeOf i = some op) {k : Nat} {s : State} {rest : List Input}
    (hr : s.refused = none) (h : atTransaction i k s) (hi : s.inputs = .sequencer :: rest) :
    step s = exec i { s with inputs := rest } := by
  have ⟨hbusy, hreq, _⟩ := h
  exact (stepRunsTheRequestInProgress s i hr hbusy (by rw [hreq, decode_encode_request ho])).2 rest hi

/-- What a request does whose life is that of PIC_WRITE_MASKS `m, sl` but for its own word. -/
structure WritesMasks (m sl : Byte) (i : Instr) : Prop where
  opcode : ∃ op, opcodeOf i = some op ∧ op.family = .pic
  exec : ∀ s, exec i s = runRequest .pic i none (picWriteMasksProgram m sl) s

/-- R118: PIC_WRITE_MASKS is one of them. -/
theorem writesMasks_picWriteMasks (m sl : Byte) : WritesMasks m sl (.picWriteMasks m sl) :=
  ⟨⟨_, rfl, rfl⟩, fun _ => rfl⟩

/-- R122: PIC_UNMASK_ALL has the program of PIC_WRITE_MASKS 0, 0. -/
theorem writesMasks_picUnmaskAll : WritesMasks 0#8 0#8 .picUnmaskAll := ⟨⟨_, rfl, rfl⟩, fun _ => rfl⟩

/-- A run begins with its first step. -/
theorem runs_succ {k : Nat} {s t : State} (h : step s = .next t) : runs (k + 1) s = runs k t := by rw [runs, h]

/-- The latch update reads and writes no register of the sequencer and no input. -/
theorem latched_update (s : State) (q : Sequencer) (xs : List Input) :
    ({ s with seq := q, inputs := xs } : State).latched = { s.latched with seq := q, inputs := xs } := by
  simp only [State.latched]
  cases s.cfg.family <;> rfl

/-- The state after a step that writes the byte `v` to a chip's data port, but for the sequencer's registers. -/
def State.afterDataWrite (s : State) (c : Chip) (v : Byte) : State := (s.afterWrite ⟨c, .data, v⟩).latched

/-- R75, R107: such a step keeps the parameters and the refusal mark. -/
theorem afterDataWrite_kept (s : State) (c : Chip) (v : Byte) :
    (s.afterDataWrite c v).cfg = s.cfg ∧ (s.afterDataWrite c v).refused = s.refused := by
  simp [State.afterDataWrite, State.afterWrite]

section Run

variable {m sl : Byte} {i : Instr} (h : WritesMasks m sl i)
include h

/-- R94: submitted to an Idle PIC machine, the request is accepted. -/
theorem WritesMasks.step_submit {s : State} {rest : List Input} (hr : s.refused = none) (hf : s.cfg.family = .pic)
    (hp : s.seq.phase = .idle) :
    step { s with inputs := .submit (encode i) :: rest } =
      .next { s.latched with seq := s.seq.accepted (encode i), inputs := rest } := by
  obtain ⟨op, ho, hfam⟩ := h.opcode
  obtain ⟨op', hop, ho'⟩ := decode_request_ok (decode_encode_request ho)
  obtain rfl : op = op' := Option.some.inj (ho.symm.trans ho')
  rw [step_of_submit (s := { s with inputs := .submit (encode i) :: rest }) hr rfl,
    hostSubmit_of_decode (s := { s with inputs := rest }) hp hop (hfam.trans hf.symm) (decode_encode_request ho), h.exec,
    runRequest_idle (s := { s with inputs := rest }) hp, if_pos hf.symm]
  exact congrArg _ (latched_update s _ rest)

/-- R96: the request's transaction `k` writes its byte, whatever the chips hold. -/
theorem WritesMasks.step_write {k : Nat} (hk : k < 2) {c : Chip} {v : Byte}
    (hx : (picWriteMasksProgram m sl)[k]? = some (.out8 (portAddr c .data) fun _ => v)) {s : State} {q : Sequencer}
    {rest : List Input} (hr : s.refused = none) (hf : s.cfg.family = .pic)
    (hq : q.phase = .busy ∧ q.req = encode i ∧ q.upc = BitVec.ofNat 4 k) :
    step { s with seq := q, inputs := .sequencer :: rest } =
      .next { s.afterDataWrite c v with
        seq := if k + 1 = 2 then q.completed else q.afterTransaction k, inputs := rest } := by
  obtain ⟨op, ho, -⟩ := h.opcode
  rw [step_of_atTransaction ho (s := { s with seq := q, inputs := .sequencer :: rest }) hr hq rfl, h.exec,
    runRequest_dataWrite (s := { s with seq := q, inputs := rest }) (by omega) hx hf hq rfl]
  have hwrite : ({ s with seq := q, inputs := rest } : State).afterWrite ⟨c, .data, v⟩ =
      { s.afterWrite ⟨c, .data, v⟩ with seq := q, inputs := rest } := by cases c <;> rfl
  rw [hwrite, State.afterDataWrite, ← latched_update]
  rfl

/-- R118, R122: the request from its submission to its completion, with no other agent's step between. -/
theorem WritesMasks.run {s : State} {rest : List Input} (hr : s.refused = none) (hf : s.cfg.family = .pic)
    (hp : s.seq.phase = .idle) :
    runs 3 { s with inputs := .submit (encode i) :: .sequencer :: .sequencer :: rest } =
      .next { (s.latched.afterDataWrite .master m).afterDataWrite .slave sl with
        seq := (s.seq.accepted (encode i)).completed, inputs := rest } := by
  have kept := afterDataWrite_kept s.latched .master m
  simp only [State_latched_cfg, State_latched_refused] at kept
  rw [runs_succ (h.step_submit hr hf hp),
    runs_succ (h.step_write (k := 0) (c := .master) (by omega) rfl (by simpa) (by simpa) ⟨rfl, rfl, rfl⟩),
    runs_succ (h.step_write (k := 1) (c := .slave) (by omega) rfl (kept.2.trans hr) (by rw [kept.1, hf]) ⟨rfl, rfl, rfl⟩)]
  rfl

end Run

/-- Settles O30: both requests have one run, but for the word recorded. -/
theorem unmaskAllIsWriteMasksZero : Obligations.UnmaskAllIsWriteMasksZero := by
  intro s rest hr hf hp
  refine ⟨_, writesMasks_picUnmaskAll.run hr hf hp, ?_, (writesMasks_picWriteMasks 0#8 0#8).run hr hf hp⟩
  simp [afterDataWrite_kept, hr]

end Sys2Proof.Machine
end

section
/-!
SUPPORT. The sequencer and the other agents (R94, R99, R101): a request that keeps the contract is accepted, a Busy sequencer
always has its micro-step, and no step of the environment reaches the sequencer or what its transactions write.
-/

namespace Sys2Proof.Machine

/-- Settles O12: the operand check of a request's meaning is the contract of R73, which holds here. -/
theorem requestsAreAccepted : Obligations.RequestsAreAccepted := by
  intro i s hp hf hc
  obtain ⟨op, hop, hfam⟩ := Option.map_eq_some_iff.mp hf
  exact exec_accepted hop hp hfam hc

/-! ### The micro-step of a Busy sequencer -/

section Busy

variable {i : Instr} {s : State} (hp : s.seq.phase = .busy) (hr : s.seq.req = encode i)
include hp hr

/-- R96: a request in progress has its micro-step while `upc` is inside its micro-program; the transaction may be refused. -/
theorem runRequest_total {fam : Family} {chk : Option FaultCode} {prog : Program} (hl : s.seq.upc.toNat < prog.length) :
    ∃ t, runRequest fam i chk prog s = .next t := by
  have hat : atTransaction i s.seq.upc.toNat s := ⟨hp, hr, by simp⟩
  rw [runRequest_at s.seq.upc.isLt (List.getElem?_eq_getElem hl) hat]
  exact finish_total _ _

/-- R100: each request's micro-program has the length that the table of R100 gives it, so that its meaning has a next state
at every transaction. -/
theorem exec_total_of_busy {op : Opcode} (ho : opcodeOf i = some op) (hl : s.seq.upc.toNat < programLength i) :
    ∃ t, exec i s = .next t := by
  cases i with
  | picInit | picMask | picUnmask | ioapicWriteEntry | ioapicSetMask => exact runRequest_total hp hr hl
  | picEoi l =>
    have hlen : (picEoiProgram l).length = programLength (.picEoi l) := by
      simp only [picEoiProgram, programLength]
      split <;> rfl
    exact runRequest_total hp hr (hlen ▸ hl)
  | picReadMasks => exact runRequest_total (chk := none) (prog := picReadMasksProgram) hp hr hl
  | picWriteMasks m sl => exact runRequest_total (chk := none) (prog := picWriteMasksProgram m sl) hp hr hl
  | picUnmaskAll => exact runRequest_total (chk := none) (prog := picUnmaskAllProgram) hp hr hl
  | lapicEnable v => exact runRequest_total (chk := none) (prog := lapicEnableProgram s.cfg v) hp hr hl
  | lapicEoi => exact runRequest_total (chk := none) (prog := lapicEoiProgram s.cfg) hp hr hl
  | _ => cases ho

end Busy

/-- R99: under the invariant a Busy sequencer's turn has a next state. -/
theorem sequencerTurn_total {s : State} (h : s.Inv) (hp : s.seq.phase = .busy) : ∃ t, sequencerTurn s = .next t := by
  obtain ⟨i, hd, hf, -, hl⟩ := inProgress_iff.mp (h.busy hp)
  obtain ⟨op, hop, -⟩ := Option.map_eq_some_iff.mp hf
  rw [sequencerTurn_of_busy hp hd]
  exact exec_total_of_busy hp (encode_of_decode_request hd).symm hop hl

/-- Settles O18: the invariant keeps a request in progress with `upc` inside its micro-program. -/
theorem busySequencerAlwaysSteps : Obligations.BusySequencerAlwaysSteps := by
  intro s h hr hp hn
  rw [step_of_not_refused hr, hn]
  exact sequencerTurn_total h.takeInput hp

/-! ### The environment's steps -/

/-- R101: a turn on an input of the environment is a step of the environment. -/
theorem Turn.environmental {x : Input} {s t : State} (h : Turn x s t) (hx : isEnvironment x = true) :
    Environmental x s t := by
  cases h with
  | instruction i _ hn he hd => simp [hn] at hx
  | illegal w hw hp => simp [hw, isEnvironment] at hx
  | read _ hn hp hu hs => simp [hn] at hx
  | environment _ _ he => exact he

/-- Settles O59: a refused step changes only the mark, and the latch update changes only the latches. -/
theorem environmentLeavesTheSequencerAndTheMasks : Obligations.EnvironmentLeavesTheSequencerAndTheMasks := by
  intro s t hx h
  obtain ⟨-, ⟨r, rfl⟩ | ⟨u, hu, rfl⟩⟩ := step_cases h
  · exact ⟨rfl, rfl, rfl, rfl, rfl, rfl, rfl⟩
  · have he := hu.environmental hx
    obtain ⟨himrM, himrS, hstepM, hstepS⟩ := he.picMasks
    simp only [State_latched_seq, State_latched_picM, State_latched_picS, State_latched_ioapic]
    exact ⟨he.seq, himrM, himrS, hstepM, hstepS, he.index, he.words⟩

end Sys2Proof.Machine
end

section
/-!
SUPPORT. What an 8259 does with one byte written by the host (R103 to R109), and that the two chips do not see each other's
writes (R102, R114).
-/

namespace Sys2Proof.Machine

/-! ### The host's byte -/

/-- R66, R97: on a PIC machine that is not Busy a PIC8 row is its chip's response, logged. -/
theorem exec_picKind_pic {k : PicKind} {v : Byte} (hk : k = .ocw2NonspecificEoi → v = 0x20#8) (c : Chip) {s : State}
    (hf : s.cfg.family = .pic) (hp : s.seq.phase ≠ .busy) :
    exec (k.instr c v) s =
      finish s ((picRespond k c v s).map fun t => t.log (evIow (portAddr c (kindPort k)) v)) := by
  rw [exec_picKind_instr hk, rawAccess_of_not_busy _ hp, picTransaction, if_pos hf]
  rfl

/-- A byte that the chip takes, leaving the registers `p`. -/
theorem exec_picKind_taken {k : PicKind} {v : Byte} (hk : k = .ocw2NonspecificEoi → v = 0x20#8) {c : Chip} {s : State}
    (hf : s.cfg.family = .pic) (hp : s.seq.phase ≠ .busy) {p : Pic} (h : picRespond k c v s = .ok (s.setPic c p)) :
    exec (k.instr c v) s = .next ((s.setPic c p).log (evIow (portAddr c (kindPort k)) v)).latched := by
  rw [exec_picKind_pic hk c hf hp, h]
  rfl

/-- R147: a byte that the chip refuses. -/
theorem exec_picKind_refused {k : PicKind} {v : Byte} (hk : k = .ocw2NonspecificEoi → v = 0x20#8) {c : Chip} {s : State}
    (hf : s.cfg.family = .pic) (hp : s.seq.phase ≠ .busy) {r : Refusal} (h : picRespond k c v s = .error r) :
    exec (k.instr c v) s = .next (s.markRefused r) := by
  rw [exec_picKind_pic hk c hf hp, h]
  rfl

/-- R103: ICW1 with the condition on its bit 0 said as the rule says it. -/
theorem takeIcw1_eq (p : Pic) (v : Byte) :
    p.takeIcw1 v = { p with
      icw1 := v, step := .awaitIcw2, imr := 0x00#8, irr := 0x00#8, isr := 0x00#8, readSel := .irr,
      icw4 := if v.getLsbD 0 = false then 0x00#8 else p.icw4 } := by
  rw [Pic.takeIcw1]
  cases v.getLsbD 0 <;> rfl

/-- Settles O31: an ICW1 is taken in every init step. -/
theorem icw1Response : Obligations.Icw1Response := by
  intro c v s hf hp
  rw [← takeIcw1_eq]
  exact exec_picKind_taken (k := .icw1) nofun hf hp rfl

/-- Settles O32: each data byte is taken. -/
theorem dataPortResponses : Obligations.DataPortResponses := fun _ _ _ hf hp =>
  ⟨exec_picKind_taken (k := .icw2) nofun hf hp rfl, exec_picKind_taken (k := .icw3) nofun hf hp rfl,
    exec_picKind_taken (k := .icw4) nofun hf hp rfl, exec_picKind_taken (k := .ocw1) nofun hf hp rfl⟩

/-! ### The non-specific EOI and the refused commands -/

/-- R108: with nothing in service an EOI leaves the chip as it is. -/
theorem takeEoi_of_none {p : Pic} (h : highestPri8 p.isr = none) : p.takeEoi = p := by rw [Pic.takeEoi, h]

/-- R108: an EOI clears the in-service bit of highest priority. -/
theorem takeEoi_of_some {p : Pic} {i : Nat} (h : highestPri8 p.isr = some i) :
    p.takeEoi = { p with isr := setBit p.isr i false } := by rw [Pic.takeEoi, h]

/-- A chip's registers replaced by themselves are unchanged. -/
@[simp] theorem State_setPic_pic (s : State) (c : Chip) : s.setPic c (s.pic c) = s := by cases c <;> rfl

/-- R108: a Ready chip takes the EOI. -/
theorem picRespond_eoi {c : Chip} {s : State} (h : (s.pic c).step = .ready) (v : Byte) :
    picRespond .ocw2NonspecificEoi c v s = .ok (s.setPic c (s.pic c).takeEoi) := if_pos h

/-- R109: a chip that is not Ready refuses the byte 0x20. -/
theorem picRespond_eoi_refused {c : Chip} {s : State} (h : (s.pic c).step ≠ .ready) (v : Byte) :
    picRespond .ocw2NonspecificEoi c v s = .error .unmodelledCommand := if_neg h

/-- Settles O33, by whether anything is in service. -/
theorem nonspecificEoiResponse : Obligations.NonspecificEoiResponse := by
  intro c s hf hp hready
  have heoi : exec (.ocw2NonspecificEoi c) s = _ :=
    exec_picKind_taken (k := .ocw2NonspecificEoi) (fun _ => rfl) hf hp (picRespond_eoi hready 0x20#8)
  rw [heoi]
  refine ⟨fun hisr => ?_, fun i hi hset hmin => ?_⟩
  · rw [takeEoi_of_none (highestPri8_eq_none.mpr hisr), State_setPic_pic]
    rfl
  · rw [takeEoi_of_some (highestPri8_eq_some.mpr ⟨hset, hi, hmin⟩)]
    rfl

/-- Settles O34, one refusal for each kind of byte. -/
theorem unmodelledCommandsAreRefused : Obligations.UnmodelledCommandsAreRefused := fun _ _ _ hf hp =>
  ⟨exec_picKind_refused (k := .ocw3) nofun hf hp rfl, exec_picKind_refused (k := .ocw2Other) nofun hf hp rfl,
    fun h => exec_picKind_refused (k := .ocw2NonspecificEoi) (fun _ => rfl) hf hp (picRespond_eoi_refused h 0x20#8)⟩

/-! ### Writes to the two chips commute -/

/-- Replaced registers can be read back. -/
theorem setPic_inj {s : State} {c : Chip} {p q : Pic} (h : s.setPic c p = s.setPic c q) : p = q := by
  simpa using congrArg (State.pic · c) h

/-- R102: what a chip makes of a byte depends on that chip's registers alone. -/
theorem picRespond_congr {k : PicKind} {c : Chip} {v : Byte} {s s' : State} {q : Pic} (hc : s'.pic c = s.pic c)
    (h : picRespond k c v s = .ok (s.setPic c q)) : picRespond k c v s' = .ok (s'.setPic c q) := by
  cases k with
  | ocw2NonspecificEoi =>
    by_cases hready : (s.pic c).step = .ready
    · rw [picRespond_eoi hready, Except.ok.injEq] at h
      rw [picRespond_eoi (hc ▸ hready), hc, setPic_inj h]
    · rw [picRespond_eoi_refused hready] at h
      cases h
  | ocw2Other | ocw3 => cases h
  | _ =>
    simp only [picRespond, Except.ok.injEq] at h
    rw [picRespond, hc, setPic_inj h]

/-- R102: a byte that one state's chip takes is taken alike in every state of a PIC machine whose chip is the same. -/
theorem portWrite_congr {c : Chip} {p : PicPort} {v : Byte} {s s' t : State} (hf : s'.cfg = s.cfg)
    (hc : s'.pic c = s.pic c) (h : portWrite (portAddr c p) v s = .ok t) :
    t = (s.setPic c (t.pic c)).log (evIow (portAddr c p) v) ∧
      portWrite (portAddr c p) v s' = .ok ((s'.setPic c (t.pic c)).log (evIow (portAddr c p) v)) := by
  rw [portWrite_portAddr] at h
  obtain ⟨hfam, q, hq, rfl⟩ := picTransaction_ok h
  have hpic : ((s.setPic c q).log (evIow (portAddr c (kindPort (picKind p (s.pic c).step v))) v)).pic c = q := by
    cases c <;> rfl
  rw [hpic, kindPort_picKind, portWrite_pic c p v (hf ▸ hfam), hc, picRespond_congr hc hq, kindPort_picKind]
  exact ⟨rfl, rfl⟩

/-- Settles O35: each byte meets its chip in the same registers in either order. -/
theorem chipWritesCommute : Obligations.ChipWritesCommute := by
  intro s t u p q v w ht hu
  obtain ⟨htm, -⟩ := portWrite_congr (s' := s) rfl rfl ht
  have hcfg : s.cfg = t.cfg := by rw [htm]; rfl
  have hslave : s.pic .slave = t.pic .slave := by rw [htm]; rfl
  obtain ⟨hus, hfirst⟩ := portWrite_congr hcfg hslave hu
  have hmaster : t.picM = u.picM := by rw [hus]; rfl
  let t' : State := (s.setPic .slave u.picS).log (evIow (portAddr .slave q) w)
  obtain ⟨-, hsecond⟩ := portWrite_congr (s := s) (s' := t') rfl rfl ht
  exact ⟨t', _, hfirst, hsecond, hmaster, rfl⟩

end Sys2Proof.Machine
end

section
/-!
SUPPORT. The host's raw reads (R111, R112, R129, R131, R137, R138, R140): what each register reads as, and what a read leaves.
-/

namespace Sys2Proof.Machine

/-! ### The data window -/

/-- R131: the bits of a low half as it reads: the stored ones, with the delivery status and the remote IRR put in. -/
theorem getLsbD_lowHalfRead (a : Ioapic) (n : Nat) (status : Bool) {j : Nat} (hj : j < 32) :
    (lowHalfRead a n status).getLsbD j =
      ((a.redir n).getLsbD j || (decide (j = 12) && status) || (decide (j = 14) && a.remoteIrr n)) := by
  simp only [lowHalfRead, BitVec.getLsbD_or, getLsbD_loHalf, BitVec.getLsbD_shiftLeft, BitVec.getLsbD_setWidth,
    BitVec.getLsbD_ofBool]
  grind

/-- R131: at an even index inside the table the window reads the low half and draws the delivery status. -/
theorem windowRead_lo {s : State} {n : Nat} (hi : s.ioapic.ioregsel.toNat = 0x10 + 2 * n) (hn : n < s.cfg.nRedir) :
    windowRead s =
      .ok (lowHalfRead s.ioapic n (Config.freeDeliveryStatus s.draws), { s with draws := s.draws + 1 }) := by
  simp only [windowRead, indexTarget_lo hi, hn, if_true]

/-- R131: at an odd index inside the table the window reads the high half. -/
theorem windowRead_hi {s : State} {n : Nat} (hi : s.ioapic.ioregsel.toNat = 0x11 + 2 * n) (hn : n < s.cfg.nRedir) :
    windowRead s = .ok (hiHalf (s.ioapic.redir n), s) := by
  simp only [windowRead, indexTarget_hi hi, hn, if_true]

/-- R131: at an index outside the table a read of the window is refused. -/
theorem windowRead_outside {s : State}
    (h : s.ioapic.ioregsel.toNat < 0x10 ∨ 0x10 + 2 * s.cfg.nRedir ≤ s.ioapic.ioregsel.toNat) :
    windowRead s = .error .unmodelledIoapicRegister := by
  by_cases hlow : s.ioapic.ioregsel.toNat < 0x10
  · simp only [windowRead, indexTarget, hlow, if_true]
  · have hn : ¬ (s.ioapic.ioregsel.toNat - 0x10) / 2 < s.cfg.nRedir := by omega
    simp only [windowRead, indexTarget, hlow, hn, if_false]

/-! ### A read as a step -/

/-- R66: the turn of a waiting raw read on a machine that is not Busy. -/
theorem step_of_rawRead {s : State} {x : Transaction} {rest : List Input}
    (hx : ∀ t, hostRaw x t = rawAccess (rawRead x) t) (hr : s.refused = none) (hp : s.seq.phase ≠ .busy)
    (hi : s.inputs = .raw x :: rest) :
    step s = finish { s with inputs := rest } (rawRead x { s with inputs := rest }) := by
  rw [step_of_inputs hr hi]
  exact (hx _).trans (rawAccess_of_not_busy _ hp)

/-- R111, R112: a raw read of a port adds the value read to the history. -/
theorem rawRead_port (c : Chip) (p : PicPort) {s : State} (hf : s.cfg.family = .pic) :
    rawRead (.ioRead (portAddr c p) 1) s = .ok (s.log (evIor (portAddr c p) (picReadValue c p s))) := by
  rw [rawRead, if_pos rfl, portRead_pic c p hf]
  rfl

/-- A step that reads a port. -/
theorem step_of_portRead {s : State} {c : Chip} {p : PicPort} {rest : List Input} (hr : s.refused = none)
    (hp : s.seq.phase ≠ .busy) (hf : s.cfg.family = .pic) (hi : s.inputs = .raw (.ioRead (portAddr c p) 1) :: rest) :
    step s = .next ({ s with
      inputs := rest, hist := s.hist ++ [evIor (portAddr c p) (picReadValue c p s)] } : State).latched := by
  have hvalue : picReadValue c p { s with inputs := rest } = picReadValue c p s := by cases c <;> rfl
  rw [step_of_rawRead (fun _ => rfl) hr hp hi, rawRead_port (s := { s with inputs := rest }) c p hf, hvalue]
  rfl

/-- R112: a command port reads the register that the chip's read select names. -/
theorem picReadValue_command (c : Chip) (s : State) :
    picReadValue c .command s = if (s.pic c).readSel = .irr then s.irrEff c else (s.pic c).isr := by
  unfold picReadValue
  cases (s.pic c).readSel <;> rfl

/-- R111: a data port reads the mask. -/
theorem picReadValue_data (c : Chip) (s : State) : picReadValue c .data s = (s.pic c).imr := by
  unfold picReadValue
  cases (s.pic c).readSel <;> rfl

/-- R97: on a valid APIC machine a raw read of a register adds the value read to the history, or is refused. -/
theorem rawRead_regAddr {s : State} (hf : s.cfg.family = .apic) (hc : validConfig s.cfg = true) (r : MmioReg) :
    rawRead (.memRead (regAddr s.cfg r) 4) s = (regRead r s).map fun (v, t) => t.log (evMr (regAddr s.cfg r) v) := by
  simp only [rawRead, regAddr_aligned hc, mmioRead, hf, regTarget_regAddr hc, and_self, if_true]
  cases regRead r s <;> rfl

section Register

variable {s : State} {rest : List Input} (hr : s.refused = none) (hp : s.seq.phase ≠ .busy) (hf : s.cfg.family = .apic)
  (hc : validConfig s.cfg = true) {r : MmioReg}
include hr hp hf hc

/-- A step that reads a register. -/
theorem step_of_regRead {v : Word32} {t : State} (hv : regRead r { s with inputs := rest } = .ok (v, t))
    (hi : s.inputs = .raw (.memRead (regAddr s.cfg r) 4) :: rest) :
    step s = .next (t.log (evMr (regAddr s.cfg r) v)).latched := by
  have hread := rawRead_regAddr (s := { s with inputs := rest }) hf hc r
  rw [hv] at hread
  rw [step_of_rawRead (fun _ => rfl) hr hp hi]
  exact congrArg _ hread

/-- R147: a step whose read is refused. -/
theorem step_of_regRead_refused {e : Refusal} (hv : regRead r { s with inputs := rest } = .error e)
    (hi : s.inputs = .raw (.memRead (regAddr s.cfg r) 4) :: rest) :
    step s = .next { s with inputs := rest, refused := some e } := by
  have hread := rawRead_regAddr (s := { s with inputs := rest }) hf hc r
  rw [hv] at hread
  rw [step_of_rawRead (fun _ => rfl) hr hp hi]
  exact congrArg _ hread

end Register

/-- Settles O36: the ports by their read value, the registers by `regRead`. -/
theorem rawReadsReturnTheRegisters : Obligations.RawReadsReturnTheRegisters := by
  intro s rest hr hp
  let v : State := { s with inputs := rest }
  refine ⟨fun c hf hi => ?_, fun c hf hi => ?_, fun hf hc => ⟨?_, ?_, ?_, ?_, fun hi h => ?_, fun hi n hn => ⟨fun h => ?_,
    fun h => ⟨lowHalfRead s.ioapic n (Config.freeDeliveryStatus s.draws), ?_,
      fun _ h14 => ⟨?_, fun j hj hj12 hj14 => ?_⟩⟩⟩⟩⟩
  · rw [step_of_portRead hr hp hf hi, picReadValue_data]
  · rw [step_of_portRead hr hp hf hi, picReadValue_command]
  · exact step_of_regRead (r := .ioapicIndex) hr hp hf hc rfl
  · exact step_of_regRead (r := .lapicSvr) hr hp hf hc rfl
  · exact step_of_regRead (r := .lapicTpr) hr hp hf hc rfl
  · exact step_of_regRead_refused (r := .lapicEoi) hr hp hf hc rfl
  · exact step_of_regRead_refused (r := .ioapicWindow) hr hp hf hc (windowRead_outside (s := v) h) hi
  · exact step_of_regRead (r := .ioapicWindow) hr hp hf hc (windowRead_hi (s := v) h hn) hi
  · exact step_of_regRead (r := .ioapicWindow) hr hp hf hc (windowRead_lo (s := v) h hn) hi
  · rw [getLsbD_lowHalfRead _ _ _ (by omega), h14]
    rfl
  · rw [getLsbD_lowHalfRead _ _ _ hj]
    simp [hj12, hj14]

end Sys2Proof.Machine
end

section
/-!
SUPPORT. The sequencer's transactions with the 8259 pair, one by one: the reads of PIC_READ_MASKS, PIC_MASK and PIC_UNMASK
(R117 to R121), the writes of PIC_EOI (R125, R126) and those of PIC_INIT (R113).
-/

namespace Sys2Proof.Machine

/-! ### Reads -/

/-- R96: the sequencer's registers with a byte read put in its place. -/
def Sequencer.received (q : Sequencer) (v : Byte) : Dst → Sequencer
  | .t => { q with t := v.setWidth 32 }
  | .resLo => { q with res := q.res.extractLsb' 8 8 ++ v }
  | .resHi => { q with res := v ++ q.res.extractLsb' 0 8 }

/-- R96: a byte read goes to its place in the sequencer's registers. -/
theorem setDst_byte (s : State) (d : Dst) (v : Byte) :
    s.setDst d (v.setWidth 32) = { s with seq := s.seq.received v d } := by
  cases d <;> simp [State.setDst, Sequencer.received]

/-- R96, R111: a request's transaction that reads a data port of a PIC machine, in every init step. -/
theorem runRequest_dataRead {fam : Family} {i : Instr} {chk : Option FaultCode} {prog : Program} {k : Nat} (hk : k < 16)
    {c : Chip} {d : Dst} (hx : prog[k]? = some (.in8 (portAddr c .data) d)) {s : State} (hf : s.cfg.family = .pic)
    (h : atTransaction i k s) :
    runRequest fam i chk prog s = .next ({ s with
      seq := if k + 1 = prog.length then (s.seq.received (s.pic c).imr d).completed
        else (s.seq.received (s.pic c).imr d).afterTransaction k
      hist := s.hist ++ [evIor (portAddr c .data) (s.pic c).imr] } : State).latched := by
  have ⟨_, _, hat⟩ := h
  have hupc : (s.seq.received (s.pic c).imr d).upc = BitVec.ofNat 4 k := by cases d <;> exact hat
  have hread : perform (.in8 (portAddr c .data) d) s = .ok { s.log (evIor (portAddr c .data) (s.pic c).imr) with
      seq := s.seq.received (s.pic c).imr d } := by
    rw [perform, portRead_pic c .data hf]
    exact congrArg Except.ok (setDst_byte _ d _)
  rw [runRequest_at hk hx h, hread, Except.map, finish_ok, advance_at hupc hk]
  split <;> rfl

/-- Settles O22, one read for each transaction. -/
theorem picReadMasksTransactions : Obligations.PicReadMasksTransactions := fun _ hf =>
  ⟨runRequest_dataRead (chk := none) (prog := picReadMasksProgram) (c := .master) (d := .resLo) (by omega) rfl hf,
    runRequest_dataRead (chk := none) (prog := picReadMasksProgram) (c := .slave) (d := .resHi) (by omega) rfl hf⟩

/-- R120: PIC_MASK's read, from the chip that owns the line. -/
theorem exec_picMask_read {l : Byte} {s : State} (hf : s.cfg.family = .pic) (h : atTransaction (.picMask l) 0 s) :
    exec (.picMask l) s = .next ({ s with
      seq := { s.seq.afterTransaction 0 with t := (s.pic (chipOf l.toNat)).imr.setWidth 32 }
      hist := s.hist ++ [evIor (dataPort l) (s.pic (chipOf l.toNat)).imr] } : State).latched :=
  runRequest_dataRead (prog := picMaskProgram l) (c := chipOf l.toNat) (d := .t) (by omega) rfl hf h

/-- R121: PIC_UNMASK's read, from the chip that owns the line. -/
theorem exec_picUnmask_read {l : Byte} {s : State} (hf : s.cfg.family = .pic) (h : atTransaction (.picUnmask l) 0 s) :
    exec (.picUnmask l) s = .next ({ s with
      seq := { s.seq.afterTransaction 0 with t := (s.pic (chipOf l.toNat)).imr.setWidth 32 }
      hist := s.hist ++ [evIor (dataPort l) (s.pic (chipOf l.toNat)).imr] } : State).latched :=
  runRequest_dataRead (prog := picUnmaskProgram l) (c := chipOf l.toNat) (d := .t) (by omega) rfl hf h

/-- Settles O24: the owning chip of R119 is the one that the statement names. -/
theorem maskReadTransactions : Obligations.MaskReadTransactions := by
  intro l s hf _ x port
  have hx : (s.pic (chipOf l.toNat)).imr = x := by
    simp only [x, chipOf]
    split <;> rfl
  have hport : dataPort l = port := by
    simp only [port, dataPort, chipOf]
    split <;> rfl
  rw [← hx, ← hport]
  exact ⟨exec_picMask_read hf, exec_picUnmask_read hf⟩

/-! ### The writes of PIC_EOI -/

section Eoi

variable {fam : Family} {i : Instr} {chk : Option FaultCode} {prog : Program} {k : Nat} (hk : k < 16) {c : Chip}
  (hx : prog[k]? = some (.out8 (portAddr c .command) fun _ => 0x20#8)) {s : State} (hf : s.cfg.family = .pic)
  (h : atTransaction i k s)
include hk hx hf h

/-- R108, R125: a request's transaction that writes the byte 0x20 to the command port of a Ready chip. -/
theorem runRequest_eoi (hready : (s.pic c).step = .ready) :
    runRequest fam i chk prog s = .next ({ (s.setPic c (s.pic c).takeEoi).log (evIow (portAddr c .command) 0x20#8) with
      seq := if k + 1 = prog.length then s.seq.completed else s.seq.afterTransaction k } : State).latched := by
  have hkind : picKind .command (s.pic c).step 0x20#8 = .ocw2NonspecificEoi := by rw [hready]; rfl
  let t : State := (s.setPic c (s.pic c).takeEoi).log (evIow (portAddr c .command) 0x20#8)
  have hwrite : portWrite (portAddr c .command) 0x20#8 s = .ok t := by
    rw [portWrite_pic c .command _ hf, hkind, picRespond_eoi hready]
    rfl
  have hseq : t.seq = s.seq := (portWrite_transacted hwrite).2
  have ⟨_, _, hat⟩ := h
  rw [runRequest_at hk hx h, perform, hwrite, Except.map, finish_ok, advance_at (hseq ▸ hat) hk, hseq]
  split <;> rfl

/-- R109, R125: the same transaction on a chip that is not Ready is refused (log 33). -/
theorem runRequest_eoi_refused (hstep : (s.pic c).step ≠ .ready) :
    runRequest fam i chk prog s = .next (s.markRefused .unmodelledCommand) := by
  have hkind : picKind .command (s.pic c).step 0x20#8 = .ocw2Other := picKind_ocw2Other (by decide) (by decide) hstep
  have hwrite : portWrite (portAddr c .command) 0x20#8 s = .error .unmodelledCommand := by
    rw [portWrite_pic c .command _ hf, hkind]
    rfl
  rw [runRequest_at hk hx h, perform, hwrite, Except.map, finish_error]

end Eoi

/-- R126: for a line of the master PIC_EOI is one write. -/
theorem picEoiProgram_master {l : Byte} (h : l.toNat < 8) :
    picEoiProgram l = [.out8 (portAddr .master .command) fun _ => 0x20#8] := if_pos h

/-- R126: for a line of the slave PIC_EOI is a write to the slave, then one to the master. -/
theorem picEoiProgram_slave {l : Byte} (h : 8 ≤ l.toNat) :
    picEoiProgram l =
      [.out8 (portAddr .slave .command) fun _ => 0x20#8, .out8 (portAddr .master .command) fun _ => 0x20#8] :=
  if_neg (by omega)

/-- R108, R109, R125: a transaction of PIC_EOI, by the init step of the chip it addresses. -/
theorem exec_picEoi_at {l : Byte} {k : Nat} (hk : k < 16) {c : Chip} {prog : Program} (hprog : picEoiProgram l = prog)
    (hx : prog[k]? = some (.out8 (portAddr c .command) fun _ => 0x20#8)) {s : State} (hf : s.cfg.family = .pic)
    (h : atTransaction (.picEoi l) k s) :
    ((s.pic c).step = .ready → exec (.picEoi l) s =
      .next ({ (s.setPic c (s.pic c).takeEoi).log (evIow (portAddr c .command) 0x20#8) with
        seq := if k + 1 = prog.length then s.seq.completed else s.seq.afterTransaction k } : State).latched) ∧
    ((s.pic c).step ≠ .ready → exec (.picEoi l) s = .next (s.markRefused .unmodelledCommand)) := by
  have hexec : exec (.picEoi l) s = runRequest .pic (.picEoi l) (checkLine l 16) prog s := hprog ▸ rfl
  rw [hexec]
  exact ⟨runRequest_eoi hk hx hf h, runRequest_eoi_refused hk hx hf h⟩

/-- Settles O26, by the chip that each transaction addresses. -/
theorem picEoiTransactions : Obligations.PicEoiTransactions := by
  intro l s hf _ eoi refusal
  have heoi (p : Pic) : p.takeEoi = { p with isr := eoi p.isr } := by
    simp only [Pic.takeEoi, highestPri8, eoi]
    cases (List.range 8).find? fun i => p.isr.getLsbD i <;> rfl
  rw [← heoi, ← heoi]
  exact ⟨fun hl h => exec_picEoi_at (c := .master) (by omega) (picEoiProgram_master hl) rfl hf h,
    fun hl h => exec_picEoi_at (c := .slave) (by omega) (picEoiProgram_slave hl) rfl hf h,
    fun hl h => exec_picEoi_at (c := .master) (by omega) (picEoiProgram_slave hl) rfl hf h⟩

/-! ### The writes of PIC_INIT -/

/-- R103: an ICW1 with bit 0 set keeps ICW4. -/
theorem takeIcw1_initByte (p : Pic) :
    p.takeIcw1 0x11#8 =
      { p with icw1 := 0x11#8, step := .awaitIcw2, imr := 0#8, irr := 0#8, isr := 0#8, readSel := .irr } := rfl

/-- R104: after ICW1 0x11 the base is followed by ICW3. -/
theorem dataWritten_awaitIcw2 {p : Pic} (hs : p.step = .awaitIcw2) (h1 : p.icw1 = 0x11#8) (v : Byte) :
    p.dataWritten v = { p with icw2 := v, step := .awaitIcw3 } := by
  rw [Pic.dataWritten, hs, h1]
  rfl

/-- R105: after ICW1 0x11 ICW3 is followed by ICW4. -/
theorem dataWritten_awaitIcw3 {p : Pic} (hs : p.step = .awaitIcw3) (h1 : p.icw1 = 0x11#8) (v : Byte) :
    p.dataWritten v = { p with icw3 := v, step := .awaitIcw4 } := by
  rw [Pic.dataWritten, hs, h1]
  rfl

/-- R106: ICW4 makes the chip Ready. -/
theorem dataWritten_awaitIcw4 {p : Pic} (hs : p.step = .awaitIcw4) (v : Byte) :
    p.dataWritten v = { p with icw4 := v, step := .ready } := by
  rw [Pic.dataWritten, hs]

/-- R96, R113: PIC_INIT's transaction `k` where its write leaves the chip's registers `p`. -/
theorem exec_picInit_written {mb sb : Byte} {k : Nat} {x : PicWrite} (hx : (picInitWrites mb sb)[k]? = some x) {s : State}
    (hf : s.cfg.family = .pic) {p : Pic} (hp : (s.pic x.chip).written x.port x.byte = p)
    (h : atTransaction (.picInit mb sb) k s) :
    exec (.picInit mb sb) s = .next ({ (s.setPic x.chip p).log x.event with
      seq := if k + 1 = 10 then s.seq.completed else s.seq.afterTransaction k } : State).latched :=
  hp ▸ exec_picInit_at hx hf h

/-- Settles O19, one write for each transaction. -/
theorem picInitTransactions : Obligations.PicInitTransactions := fun mb sb s hf =>
  ⟨exec_picInit_written (x := ⟨.master, .command, 0x11#8⟩) rfl hf (takeIcw1_initByte s.picM),
    exec_picInit_written (x := ⟨.slave, .command, 0x11#8⟩) rfl hf (takeIcw1_initByte s.picS),
    fun h hs h1 => exec_picInit_written (x := ⟨.master, .data, mb⟩) rfl hf (dataWritten_awaitIcw2 hs h1 mb) h,
    fun h hs h1 => exec_picInit_written (x := ⟨.slave, .data, sb⟩) rfl hf (dataWritten_awaitIcw2 hs h1 sb) h,
    fun h hs h1 => exec_picInit_written (x := ⟨.master, .data, 0x04#8⟩) rfl hf (dataWritten_awaitIcw3 hs h1 0x04#8) h,
    fun h hs h1 => exec_picInit_written (x := ⟨.slave, .data, 0x02#8⟩) rfl hf (dataWritten_awaitIcw3 hs h1 0x02#8) h,
    fun h hs => exec_picInit_written (x := ⟨.master, .data, 0x01#8⟩) rfl hf (dataWritten_awaitIcw4 hs 0x01#8) h,
    fun h hs => exec_picInit_written (x := ⟨.slave, .data, 0x01#8⟩) rfl hf (dataWritten_awaitIcw4 hs 0x01#8) h,
    fun h hs => exec_picInit_written (x := ⟨.master, .data, 0xFF#8⟩) rfl hf (dataWritten_ready hs 0xFF#8) h,
    fun h hs => exec_picInit_written (x := ⟨.slave, .data, 0xFF#8⟩) rfl hf (dataWritten_ready hs 0xFF#8) h⟩

end Sys2Proof.Machine
end

section
/-!
SUPPORT. PIC_INIT with edges among its transactions (R113): the run agrees with the uninterrupted one but for the request
registers, which hold the edges that arrived after each chip's ICW1.
-/

namespace Sys2Proof.Machine

/-! ### Agreement but for the request registers -/

/-- `t` agrees with `s` in what PIC_INIT reaches, but for the chips' request registers. -/
structure AgreesButRequests (s t : State) : Prop where
  cfg : t.cfg = s.cfg
  seq : t.seq = s.seq
  refused : t.refused = s.refused
  hist : t.hist = s.hist
  pic : ∀ c, t.pic c = { s.pic c with irr := (t.pic c).irr }

/-- Agreement is about these registers alone. -/
theorem AgreesButRequests.of_eq {s t u : State} (h : AgreesButRequests s t) (hcfg : u.cfg = t.cfg) (hseq : u.seq = t.seq)
    (hrefused : u.refused = t.refused) (hhist : u.hist = t.hist) (hM : u.picM = t.picM) (hS : u.picS = t.picS) :
    AgreesButRequests s u where
  cfg := hcfg.trans h.cfg
  seq := hseq.trans h.seq
  refused := hrefused.trans h.refused
  hist := hhist.trans h.hist
  pic c := by
    have hpic : u.pic c = t.pic c := by cases c <;> assumption
    rw [hpic]
    exact h.pic c

/-- The latch update keeps agreement. -/
theorem AgreesButRequests.latched {s t : State} (h : AgreesButRequests s t) : AgreesButRequests s t.latched :=
  h.of_eq (by simp) (by simp) (by simp) (by simp) (by simp) (by simp)

/-- Both states may take new registers of the sequencer. -/
theorem AgreesButRequests.withSeq {s t : State} (h : AgreesButRequests s t) (q : Sequencer) :
    AgreesButRequests { s with seq := q } { t with seq := q } :=
  ⟨h.cfg, rfl, h.refused, h.hist, fun c => by cases c <;> [exact h.pic .master; exact h.pic .slave]⟩

/-- A chip whose request register alone differs keeps agreement. -/
theorem AgreesButRequests.setIrr {s t : State} (h : AgreesButRequests s t) (c : Chip) (r : Byte) :
    AgreesButRequests s (t.setPic c { t.pic c with irr := r }) where
  cfg := by simpa using h.cfg
  seq := by simpa using h.seq
  refused := by simpa using h.refused
  hist := by simpa using h.hist
  pic d := by
    by_cases hd : d = c
    · subst hd
      rw [State_pic_setPic, h.pic d]
    · rw [State_pic_setPic_ne _ hd]
      exact h.pic d

/-- R103 to R107: no register but the request register depends on the request register. -/
theorem written_withIrr (p : Pic) (r : Byte) (port : PicPort) (v : Byte) :
    ({ p with irr := r } : Pic).written port v =
      { p.written port v with irr := (({ p with irr := r } : Pic).written port v).irr } := by
  cases port with
  | command => rfl
  | data =>
    simp only [Pic.written, Pic.dataWritten]
    cases p.step <;> rfl

/-- A chip after a write to a port of either. -/
theorem pic_afterWrite (s : State) (x : PicWrite) (c : Chip) :
    (s.afterWrite x).pic c = if c = x.chip then (s.pic c).written x.port x.byte else s.pic c := by
  obtain ⟨d, p, v⟩ := x
  cases c <;> cases d <;> rfl

/-- A write keeps agreement. -/
theorem AgreesButRequests.afterWrite {s t : State} (h : AgreesButRequests s t) (x : PicWrite) :
    AgreesButRequests (s.afterWrite x) (t.afterWrite x) where
  cfg := by simpa [State.afterWrite] using h.cfg
  seq := by simpa [State.afterWrite] using h.seq
  refused := by simpa [State.afterWrite] using h.refused
  hist := by simp [State.afterWrite, h.hist]
  pic c := by
    simp only [pic_afterWrite]
    split
    · rw [h.pic c]
      exact written_withIrr _ _ _ _
    · exact h.pic c

/-! ### The request registers -/

/-- R113: the transaction of PIC_INIT that is the chip's ICW1. -/
def icw1Index : Chip → Nat
  | .master => 0
  | .slave => 1

/-- R119: the logical line of a chip's own number. -/
def lineOf : Chip → Nat → Nat
  | .master, i => i
  | .slave, i => i + 8

/-- R119: a line's owner and its number there determine the line. -/
theorem lineOf_eq_iff {c : Chip} {l i : Nat} (hi : i < 8) : lineOf c i = l ↔ c = chipOf l ∧ i = bitOf l := by
  cases c <;> simp only [lineOf, chipOf, bitOf] <;> split <;> simp <;> omega

/-- R113: the command bytes of PIC_INIT are the two chips' ICW1. -/
theorem command_iff_icw1Index {mb sb : Byte} {k : Nat} {x : PicWrite} (hx : (picInitWrites mb sb)[k]? = some x)
    (c : Chip) : c = x.chip ∧ x.port = .command ↔ k = icw1Index c := by
  have hk : k < 10 := (List.getElem?_eq_some_iff.mp hx).1
  interval_cases k <;> obtain rfl := Option.some.inj hx <;> cases c <;> simp [icw1Index]

/-- R103 to R107: an ICW1 clears the request register, and a data byte keeps it. -/
theorem irr_written (p : Pic) (port : PicPort) (v : Byte) :
    (p.written port v).irr = if port = .command then 0#8 else p.irr := by
  cases port with
  | command => rfl
  | data =>
    simp only [Pic.written, Pic.dataWritten]
    cases p.step <;> rfl

/-- R103, R113: a write of PIC_INIT clears the chip's request register if it is the chip's ICW1, and keeps it otherwise. -/
theorem irr_afterWrite {mb sb : Byte} {k : Nat} {x : PicWrite} (hx : (picInitWrites mb sb)[k]? = some x) (s : State)
    (c : Chip) : ((s.afterWrite x).pic c).irr = if k = icw1Index c then 0#8 else (s.pic c).irr := by
  have h := command_iff_icw1Index hx c
  rw [pic_afterWrite]
  by_cases hc : c = x.chip
  · simp only [hc, if_true, irr_written, true_and] at h ⊢
    simp only [h]
  · have hk : k ≠ icw1Index c := fun e => hc (h.mpr e).1
    rw [if_neg hc, if_neg hk]

/-- R150: an edge sets its line's bit in the owner's request register. -/
theorem picEdge_eq {l : Nat} (hl : l < 16) (h2 : l ≠ 2) {s : State} (hf : s.cfg.family = .pic) :
    picEdge l s = .next (s.setPic (chipOf l) { s.pic (chipOf l) with
      irr := setBit (s.pic (chipOf l)).irr (bitOf l) true }).latched :=
  if_pos ⟨hf, hl, h2⟩

/-- R119, R150: the request bits after an edge on line `l`. -/
theorem irr_afterEdge (s : State) (l : Nat) (c : Chip) {i : Nat} (hi : i < 8) :
    ((s.setPic (chipOf l) { s.pic (chipOf l) with
      irr := setBit (s.pic (chipOf l)).irr (bitOf l) true }).pic c).irr.getLsbD i =
        ((s.pic c).irr.getLsbD i || decide (lineOf c i = l)) := by
  simp only [lineOf_eq_iff hi]
  by_cases hc : c = chipOf l
  · rw [hc, State_pic_setPic, getLsbD_setBit]
    grind
  · rw [State_pic_setPic_ne _ hc]
    simp [hc]

/-- The latch update reads and writes no register of a chip. -/
theorem pic_latched (s : State) (c : Chip) : s.latched.pic c = s.pic c := by cases c <;> simp

/-! ### The edges still to come -/

/-- An edge among the turns counts if it comes after the transactions waited for. -/
theorem edge_mem_afterTransactions_edge (n l m : Nat) (xs : List Input) :
    .picEdge m ∈ afterTransactions n (.picEdge l :: xs) ↔ (n = 0 ∧ m = l) ∨ .picEdge m ∈ afterTransactions n xs := by
  cases n <;> simp [afterTransactions]

/-- A turn of the sequencer is one transaction less to wait for. -/
theorem edge_mem_afterTransactions_sequencer (n m : Nat) (xs : List Input) :
    .picEdge m ∈ afterTransactions n (.sequencer :: xs) ↔ .picEdge m ∈ afterTransactions (n - 1) xs := by
  cases n <;> simp [afterTransactions]

/-- Whether number `i` of chip `c` will be requested at the end of PIC_INIT, after `k` transactions and with the turns `xs`
still to come: it is requested and the chip's ICW1 is past, or an edge comes after that ICW1. -/
def State.requestAtEnd (s : State) (k : Nat) (xs : List Input) (c : Chip) (i : Nat) : Bool :=
  decide (icw1Index c < k) && (s.pic c).irr.getLsbD i ||
    decide (.picEdge (lineOf c i) ∈ afterTransactions (icw1Index c + 1 - k) xs)

/-- With no turn to come, it is what the request register holds. -/
theorem requestAtEnd_nil (s : State) (c : Chip) (i : Nat) : s.requestAtEnd 10 [] c i = (s.pic c).irr.getLsbD i := by
  cases c <;> simp [State.requestAtEnd, icw1Index, afterTransactions]

/-- Before the first transaction, it is what the edges after the chip's ICW1 say. -/
theorem requestAtEnd_zero (s : State) (xs : List Input) (c : Chip) (i : Nat) :
    s.requestAtEnd 0 xs c i = decide (.picEdge (lineOf c i) ∈ afterTransactions (icw1Index c + 1) xs) := by
  simp [State.requestAtEnd]

/-! ### One turn -/

/-- The turns of an interrupted PIC_INIT: the sequencer's and edges. -/
def IsTurnOfPicInit (x : Input) : Prop := x = .sequencer ∨ ∃ l, l < 16 ∧ l ≠ 2 ∧ x = .picEdge l

/-- `t` has come as far as `k` transactions of the PIC_INIT submitted in `s`, with the turns `xs` to come. -/
structure AmidPicInit (s : State) (mb sb : Byte) (k : Nat) (xs : List Input) (t : State) : Prop where
  agrees : AgreesButRequests (s.inPicInit mb sb k) t
  count : k + xs.count .sequencer = 10
  turns : ∀ x ∈ xs, IsTurnOfPicInit x
  inputs : t.inputs = xs

section Turn

variable {s : State} {mb sb : Byte} (hr : s.refused = none) (hf : s.cfg.family = .pic) {k : Nat}
  {xs : List Input} {t : State}
include hr hf

/-- PIC_INIT keeps the parameters and the refusal mark. -/
theorem AgreesButRequests.kept (h : AgreesButRequests (s.inPicInit mb sb k) t) :
    t.refused = none ∧ t.cfg.family = .pic := by
  rw [h.refused, h.cfg, State.inPicInit, foldl_afterWrite]
  exact ⟨hr, hf⟩

/-- R150: an edge among the transactions leaves PIC_INIT where it is, and is counted. -/
theorem AmidPicInit.step_edge {l : Nat} (h : AmidPicInit s mb sb k (.picEdge l :: xs) t) (hl : l < 16) (h2 : l ≠ 2) :
    ∃ u, step t = .next u ∧ AmidPicInit s mb sb k xs u ∧
      ∀ c, ∀ i < 8, u.requestAtEnd k xs c i = t.requestAtEnd k (.picEdge l :: xs) c i := by
  obtain ⟨hrefused, hfam⟩ := h.agrees.kept hr hf
  let v : State := { t with inputs := xs }
  have hstep : step t = picEdge l v := step_of_inputs hrefused h.inputs
  refine ⟨_, hstep.trans (picEdge_eq hl h2 hfam), ⟨?_, ?_, ?_, ?_⟩, fun c i hi => ?_⟩
  · exact ((h.agrees.of_eq (u := v) rfl rfl rfl rfl rfl rfl).setIrr (chipOf l) _).latched
  · simpa using h.count
  · exact fun x hx => h.turns x (List.mem_cons_of_mem _ hx)
  · simp [v]
  · have hirr := irr_afterEdge v l c hi
    have hv : v.pic c = t.pic c := by cases c <;> rfl
    simp only [State.requestAtEnd, pic_latched, hirr, hv, edge_mem_afterTransactions_edge]
    grind

/-- R96: a transaction among the edges leads PIC_INIT on, and its ICW1 drops the requests before it. -/
theorem AmidPicInit.step_transaction (h : AmidPicInit s mb sb k (.sequencer :: xs) t) :
    ∃ u, step t = .next u ∧ AmidPicInit s mb sb (k + 1) xs u ∧
      ∀ c, ∀ i < 8, u.requestAtEnd (k + 1) xs c i = t.requestAtEnd k (.sequencer :: xs) c i := by
  obtain ⟨hrefused, hfam⟩ := h.agrees.kept hr hf
  have hcount := h.count
  have hk : k < 10 := by
    rw [List.count_cons_self] at hcount
    omega
  obtain ⟨x, hx⟩ : ∃ x, (picInitWrites mb sb)[k]? = some x := ⟨_, List.getElem?_eq_getElem hk⟩
  have hat : atTransaction (.picInit mb sb) k t := by
    rw [atTransaction, h.agrees.seq]
    simp [State.inPicInit, hk.ne, Sequencer.accepted]
  let v : State := { t with inputs := xs }
  have hv : AgreesButRequests (s.inPicInit mb sb k) v := h.agrees.of_eq rfl rfl rfl rfl rfl rfl
  have hstep : step t = exec (.picInit mb sb) v := step_of_atTransaction (op := .picInit) rfl hrefused hat h.inputs
  refine ⟨_, hstep.trans (exec_picInit_at hx hfam hat), ⟨?_, ?_, ?_, ?_⟩, fun c i hi => ?_⟩
  · rw [← afterWrite_inPicInit hk hx, ← hv.seq]
    exact ((hv.afterWrite x).withSeq _).latched
  · rw [List.count_cons_self] at hcount
    omega
  · exact fun x hx => h.turns x (List.mem_cons_of_mem _ hx)
  · simp [v, State.afterWrite]
  · have hirr := irr_afterWrite hx v c
    have hpic : v.pic c = t.pic c := by cases c <;> rfl
    have hdrop : ({ v.afterWrite x with
        seq := if k + 1 = 10 then v.seq.completed else v.seq.afterTransaction k } : State).pic c =
        (v.afterWrite x).pic c := by
      cases c <;> rfl
    simp only [State.requestAtEnd, pic_latched, hdrop, hirr, hpic, edge_mem_afterTransactions_sequencer]
    grind

/-! ### The whole run -/

/-- PIC_INIT completes from wherever it has come to, and each request register ends as the turns to come say. -/
theorem AmidPicInit.runs (h : AmidPicInit s mb sb k xs t) :
    ∃ u, runs xs.length t = .next u ∧ AmidPicInit s mb sb 10 [] u ∧
      ∀ c, ∀ i < 8, (u.pic c).irr.getLsbD i = t.requestAtEnd k xs c i := by
  induction xs generalizing k t with
  | nil =>
    obtain rfl : k = 10 := h.count
    exact ⟨t, rfl, h, fun c i _ => (requestAtEnd_nil t c i).symm⟩
  | cons x xs ih =>
    have onward {j : Nat} (hturn : ∃ u, step t = .next u ∧ AmidPicInit s mb sb j xs u ∧
        ∀ c, ∀ i < 8, u.requestAtEnd j xs c i = t.requestAtEnd k (x :: xs) c i) :
        ∃ u, Machine.runs (x :: xs).length t = .next u ∧ AmidPicInit s mb sb 10 [] u ∧
          ∀ c, ∀ i < 8, (u.pic c).irr.getLsbD i = t.requestAtEnd k (x :: xs) c i := by
      obtain ⟨v, hstep, hv, hsame⟩ := hturn
      obtain ⟨u, hruns, hu, hbits⟩ := ih hv
      exact ⟨u, (runs_succ hstep).trans hruns, hu, fun c i hi => (hbits c i hi).trans (hsame c i hi)⟩
    obtain rfl | ⟨l, hl, h2, rfl⟩ := h.turns x List.mem_cons_self
    · exact onward (h.step_transaction hr hf)
    · exact onward (h.step_edge hr hf hl h2)

end Turn

/-- R110: PIC_INIT leaves a chip in the modelled configuration, whatever it has latched since. -/
theorem modelled_initialized (p : Pic) (base icw3 r : Byte) :
    ({ p.initialized base icw3 with irr := r } : Pic).modelled icw3 = true := by
  simp [Pic.modelled, Pic.initialized]

/-- R94: the submission begins PIC_INIT, with all its turns to come. -/
theorem amidPicInit_of_submit {mb sb : Byte} {s : State} {xs : List Input} (hr : s.refused = none)
    (hf : s.cfg.family = .pic) (hp : s.seq.phase = .idle) (hc : contractFault s.cfg (.picInit mb sb) = none)
    (hcount : xs.count .sequencer = 10) (hturns : ∀ x ∈ xs, IsTurnOfPicInit x)
    (hi : s.inputs = .submit (encode (.picInit mb sb)) :: xs) :
    ∃ t, step s = .next t ∧ AmidPicInit s mb sb 0 xs t := by
  let v : State := { s with inputs := xs }
  have hstep : step s = hostSubmit (encode (.picInit mb sb)) v := step_of_submit hr hi
  refine ⟨_, hstep.trans (hostSubmit_picInit hf hp hc), ⟨?_, by omega, hturns, by simp [v]⟩⟩
  exact AgreesButRequests.latched ⟨rfl, rfl, rfl, by simp [State.inPicInit, v], fun c => by cases c <;> rfl⟩

/-- Settles O21: the run agrees with the uninterrupted one, whose end state is `inPicInit_end`, but for the request
registers. -/
theorem picInitEndStateWithEdges : Obligations.PicInitEndStateWithEdges := by
  intro mb sb s xs hr hf hp hc hcount hturns hi
  obtain ⟨t, hstep, ht⟩ := amidPicInit_of_submit hr hf hp hc hcount hturns hi
  obtain ⟨u, hruns, hu, hbits⟩ := ht.runs hr hf
  have hend := hu.agrees
  rw [inPicInit_end mb sb hp] at hend
  have hM := hend.pic .master
  have hS := hend.pic .slave
  have request (c : Chip) : ∀ i < 8, (u.pic c).irr.getLsbD i =
      decide (.picEdge (lineOf c i) ∈ afterTransactions (icw1Index c + 1) xs) := fun i hlt => by
    rw [hbits c i hlt, requestAtEnd_zero]
  refine ⟨u, (runs_succ hstep).trans hruns, hend.seq, hM, hS, request .master, request .slave, ?_,
    hend.refused.trans hr, hu.inputs, hend.hist⟩
  rw [State.picModelled, ← State_pic_master, ← State_pic_slave, hM, hS]
  simp [modelled_initialized]

end Sys2Proof.Machine
end

section
/-!
SUPPORT. Whole runs of the requests about masks (R124): PIC_READ_MASKS after PIC_WRITE_MASKS and after PIC_INIT, and the pairs
of PIC_MASK and PIC_UNMASK. A run is followed by what a later request sees of it: both chips, the sequencer, and the turns to
come.
-/

namespace Sys2Proof.Machine

/-! ### What the next request sees -/

/-- A PIC machine that is not refused, with the chips `f`, the sequencer's registers `q` and the turns `xs` to come. -/
structure Stands (s : State) (f : Chip → Pic) (q : Sequencer) (xs : List Input) : Prop where
  refused : s.refused = none
  family : s.cfg.family = .pic
  pic : s.pic = f
  seq : s.seq = q
  inputs : s.inputs = xs

/-- The latch update is not seen. -/
theorem Stands.latched {s : State} {f : Chip → Pic} {q : Sequencer} {xs : List Input} (h : Stands s f q xs) :
    Stands s.latched f q xs where
  refused := by rw [State_latched_refused, h.refused]
  family := by rw [State_latched_cfg, h.family]
  pic := by rw [← h.pic]; exact funext (pic_latched s)
  seq := by rw [State_latched_seq, h.seq]
  inputs := by rw [State_latched_inputs, h.inputs]

/-- A write changes its own chip and no other. -/
theorem pic_afterWrite_eq_update (s : State) (x : PicWrite) :
    (s.afterWrite x).pic = Function.update s.pic x.chip ((s.pic x.chip).written x.port x.byte) := by
  funext c
  rw [pic_afterWrite, Function.update_apply]
  split
  next h => rw [h]
  · rfl

/-- R103 to R107: what is seen of a write is the chip's registers. -/
theorem Stands.afterWrite {s : State} {f : Chip → Pic} {q : Sequencer} {xs : List Input} (h : Stands s f q xs)
    (x : PicWrite) :
    Stands (s.afterWrite x) (Function.update f x.chip ((f x.chip).written x.port x.byte)) q xs where
  refused := by simpa [State.afterWrite] using h.refused
  family := by simpa [State.afterWrite] using h.family
  pic := by rw [pic_afterWrite_eq_update, h.pic]
  seq := by simpa [State.afterWrite] using h.seq
  inputs := by simpa [State.afterWrite] using h.inputs

/-- R75, R107: the same for a whole step that writes to a data port. -/
theorem Stands.afterDataWrite {s : State} {f : Chip → Pic} {q : Sequencer} {xs : List Input} (h : Stands s f q xs)
    (c : Chip) (v : Byte) : Stands (s.afterDataWrite c v) (Function.update f c ((f c).dataWritten v)) q xs :=
  (h.afterWrite ⟨c, .data, v⟩).latched

/-- The sequencer's registers and the history are no part of a chip. -/
theorem Stands.withSeq {s : State} {f : Chip → Pic} {q : Sequencer} {xs : List Input} (h : Stands s f q xs)
    (r : Sequencer) (es : List Event) : Stands { s with seq := r, hist := es } f r xs :=
  ⟨h.refused, h.family, h.pic ▸ funext fun c => by cases c <;> rfl, rfl, h.inputs⟩

/-- The turns to come are no part of a chip. -/
theorem Stands.withInputs {s : State} {f : Chip → Pic} {q : Sequencer} {xs : List Input} (h : Stands s f q xs)
    (ys : List Input) : Stands { s with inputs := ys } f q ys :=
  ⟨h.refused, h.family, h.pic ▸ funext fun c => by cases c <;> rfl, h.seq, rfl⟩

/-! ### The steps of a request -/

/-- A run that has come to `t` goes on from there. -/
theorem runs_add {m n : Nat} {s t : State} (h : runs m s = .next t) : runs (m + n) s = runs n t := by
  induction m generalizing s with
  | zero =>
    obtain rfl : s = t := Host.Outcome.next.inj h
    rw [Nat.zero_add]
  | succ m ih =>
    cases hstep : step s with
    | next u =>
      rw [runs_succ hstep] at h
      rw [Nat.add_right_comm, runs_succ hstep, ih h]
    | fault e => simp [runs, hstep] at h
    | refused e => simp [runs, hstep] at h

section Request

variable {i : Instr} {op : Opcode} (ho : opcodeOf i = some op) {s : State} {f : Chip → Pic} {q : Sequencer}
include ho

/-- R94: a valid request submitted to an Idle machine is accepted. -/
theorem Stands.step_submit {xs : List Input} (hfam : op.family = .pic) (h : Stands s f q (.submit (encode i) :: xs))
    (hp : q.phase = .idle) (hc : contractFault s.cfg i = none) :
    ∃ t, step s = .next t ∧ Stands t f (q.accepted (encode i)) xs := by
  have hidle : s.seq.phase = .idle := h.seq ▸ hp
  have hop : op.family = s.cfg.family := hfam.trans h.family.symm
  have hrun := stepRunsTheSubmittedRequest s (encode i) xs i h.refused hidle h.inputs (decode_encode_request ho)
    (by rw [ho, ← hop]; rfl)
  rw [exec_accepted (s := { s with inputs := xs }) ho hidle hop hc] at hrun
  refine ⟨_, hrun, ?_⟩
  rw [← h.seq]
  exact ((h.withInputs xs).withSeq _ _).latched

variable {k : Nat} {ys : List Input} (h : Stands s f q ys)
  (hat : q.phase = .busy ∧ q.req = encode i ∧ q.upc = BitVec.ofNat 4 k) (hturn : ys.headD .sequencer = .sequencer)
include h hat hturn

/-- R22, R96: the sequencer's turn, waiting or by default (log 2), runs the request in progress. -/
theorem Stands.step_turn : ∃ v, step s = exec i v ∧ Stands v f q ys.tail := by
  obtain ⟨hr, hf, hpic, rfl, hi⟩ := h
  have ⟨hbusy, hreq, _⟩ := hat
  cases ys with
  | nil => exact ⟨s, step_of_busy hr hi hbusy (by rw [hreq, decode_encode_request ho]), hr, hf, hpic, rfl, hi⟩
  | cons x rest =>
    obtain rfl : x = .sequencer := hturn
    exact ⟨_, step_of_atTransaction ho hr hat hi, Stands.withInputs ⟨hr, hf, hpic, rfl, hi⟩ rest⟩

variable {fam : Family} {chk : Option FaultCode} {prog : Program}
  (hexec : ∀ s, exec i s = runRequest fam i chk prog s) (hk : k < 16)
include hexec hk

/-- R96, R107: a turn that writes a byte to a data port. -/
theorem Stands.step_write {c : Chip} {e : Word32 → Byte} (hx : prog[k]? = some (.out8 (portAddr c .data) e)) :
    ∃ t, step s = .next t ∧ Stands t (Function.update f c ((f c).dataWritten (e q.t)))
      (if k + 1 = prog.length then q.completed else q.afterTransaction k) ys.tail := by
  obtain ⟨v, hstep, hv⟩ := h.step_turn ho hat hturn
  obtain rfl := hv.seq
  have hwrite := runRequest_dataWrite (fam := fam) (chk := chk) hk hx hv.family hat rfl
  exact ⟨_, (hstep.trans (hexec v)).trans hwrite, ((hv.afterWrite ⟨c, .data, e v.seq.t⟩).withSeq _ _).latched⟩

/-- R96, R111: a turn that reads a data port. -/
theorem Stands.step_read {c : Chip} {d : Dst} (hx : prog[k]? = some (.in8 (portAddr c .data) d)) :
    ∃ t, step s = .next t ∧ Stands t f
      (if k + 1 = prog.length then (q.received (f c).imr d).completed
        else (q.received (f c).imr d).afterTransaction k) ys.tail := by
  obtain ⟨v, hstep, hv⟩ := h.step_turn ho hat hturn
  obtain rfl := hv.seq
  obtain rfl := hv.pic
  have hread := runRequest_dataRead (fam := fam) (chk := chk) hk hx hv.family hat
  exact ⟨_, (hstep.trans (hexec v)).trans hread, (hv.withSeq _ _).latched⟩

end Request

/-! ### The runs of the mask requests -/

/-- R118, R122: PIC_WRITE_MASKS and PIC_UNMASK_ALL write both data ports. -/
theorem Stands.run_writesMasks {m sl : Byte} {i : Instr} (hi : WritesMasks m sl i) {s : State} {f : Chip → Pic}
    {q : Sequencer} {xs : List Input} (h : Stands s f q (.submit (encode i) :: .sequencer :: .sequencer :: xs))
    (hp : q.phase = .idle) :
    ∃ t, runs 3 s = .next t ∧ Stands t
      (Function.update (Function.update f .master ((f .master).dataWritten m)) .slave ((f .slave).dataWritten sl))
      (q.accepted (encode i)).completed xs := by
  obtain rfl := h.seq
  have hrun := hi.run (rest := xs) h.refused h.family hp
  rw [← h.inputs] at hrun
  have hwritten := (h.latched.afterDataWrite .master m).afterDataWrite .slave sl
  exact ⟨_, hrun, (hwritten.withInputs xs).withSeq _ _⟩

/-- R117: PIC_READ_MASKS ends Idle with both masks in `res` and the chips as they were. -/
theorem Stands.run_picReadMasks {s : State} {f : Chip → Pic} {q : Sequencer}
    (h : Stands s f q [.submit (encode .picReadMasks)]) (hp : q.phase = .idle) :
    ∃ t, runs 3 s = .next t ∧ t.pic = f ∧ t.seq.phase = .idle ∧ t.seq.res = (f .slave).imr ++ (f .master).imr := by
  have read {k : Nat} (hk : k < 16) {c : Chip} {d : Dst} {s : State} {q : Sequencer} (h : Stands s f q [])
      (hat : q.phase = .busy ∧ q.req = encode .picReadMasks ∧ q.upc = BitVec.ofNat 4 k)
      (hx : picReadMasksProgram[k]? = some (.in8 (portAddr c .data) d)) :=
    h.step_read (op := .picReadMasks) (chk := none) rfl hat rfl (fun _ => rfl) hk hx
  obtain ⟨t, hsubmit, ht⟩ := h.step_submit (op := .picReadMasks) rfl rfl hp rfl
  obtain ⟨u, hreadM, hu⟩ := read (k := 0) (c := .master) (by omega) ht ⟨rfl, rfl, rfl⟩ rfl
  obtain ⟨v, hreadS, hv⟩ := read (k := 1) (c := .slave) (by omega) hu ⟨rfl, rfl, rfl⟩ rfl
  refine ⟨v, ?_, hv.pic, by rw [hv.seq]; rfl, ?_⟩
  · rw [runs_succ hsubmit, runs_succ hreadM, runs_succ hreadS, runs]
  · rw [hv.seq]
    exact congrArg ((f .slave).imr ++ ·) (BitVec.extractLsb'_append_eq_right (a := q.res.extractLsb' 8 8))

/-- R120, R121: PIC_MASK or PIC_UNMASK of a line. -/
def maskRequest (l : Byte) (masked : Bool) : Instr := if masked then .picMask l else .picUnmask l

/-- R119 to R121: its two transactions. -/
def maskRequestProgram (l : Byte) (masked : Bool) : Program :=
  [.in8 (dataPort l) .t, .out8 (dataPort l) fun t => setBit (t.extractLsb' 0 8) (bitOf l.toNat) masked]

/-- R120, R121: the program is that of the request. -/
theorem exec_maskRequest (l : Byte) (masked : Bool) (s : State) :
    exec (maskRequest l masked) s =
      runRequest .pic (maskRequest l masked) (checkLine l 16) (maskRequestProgram l masked) s := by
  cases masked <;> rfl

/-- R119: a chip with one bit of its mask set to `masked`. -/
def Pic.withMaskBit (p : Pic) (j : Nat) (masked : Bool) : Pic := { p with imr := setBit p.imr j masked }

/-- R120, R121: on a Ready chip PIC_MASK and PIC_UNMASK end Idle with the line's bit set or clear. -/
theorem Stands.run_maskRequest {s : State} {f : Chip → Pic} {q : Sequencer} {xs : List Input} {l : Byte} {masked : Bool}
    (h : Stands s f q (.submit (encode (maskRequest l masked)) :: xs)) (hp : q.phase = .idle) (hl : l.toNat < 16)
    (hready : (f (chipOf l.toNat)).step = .ready) (h0 : xs.headD .sequencer = .sequencer)
    (h1 : xs.tail.headD .sequencer = .sequencer) :
    ∃ t r, runs 3 s = .next t ∧ r.phase = .idle ∧ Stands t (Function.update f (chipOf l.toNat)
      ((f (chipOf l.toNat)).withMaskBit (bitOf l.toNat) masked)) r xs.tail.tail := by
  obtain ⟨op, ho, hfam, hc⟩ : ∃ op, opcodeOf (maskRequest l masked) = some op ∧ op.family = .pic ∧
      contractFault s.cfg (maskRequest l masked) = none := by
    cases masked <;> exact ⟨_, rfl, rfl, if_neg (by omega)⟩
  have hexec := exec_maskRequest l masked
  let p := f (chipOf l.toNat)
  let r := ((q.accepted (encode (maskRequest l masked))).received p.imr .t).afterTransaction 0
  have hbyte : r.t.extractLsb' 0 8 = p.imr := extractByte_setWidth p.imr
  obtain ⟨t, hsubmit, ht⟩ := h.step_submit ho hfam hp hc
  obtain ⟨u, hread, hu⟩ : ∃ u, step t = .next u ∧ Stands u f r xs.tail :=
    ht.step_read (k := 0) ho ⟨rfl, rfl, rfl⟩ h0 hexec (by omega) rfl
  obtain ⟨v, hwrite, hv⟩ : ∃ v, step u = .next v ∧ Stands v (Function.update f (chipOf l.toNat)
      (p.dataWritten (setBit (r.t.extractLsb' 0 8) (bitOf l.toNat) masked))) r.completed xs.tail.tail :=
    hu.step_write (k := 1) ho ⟨rfl, rfl, rfl⟩ h1 hexec (by omega) rfl
  rw [hbyte, dataWritten_ready hready] at hv
  exact ⟨v, r.completed, by rw [runs_succ hsubmit, runs_succ hread, runs_succ hwrite, runs], rfl, hv⟩

/-! ### PIC_INIT with turns to come after it -/

/-- PIC_INIT keeps the parameters and the refusal mark. -/
theorem inPicInit_kept {s : State} (hr : s.refused = none) (hf : s.cfg.family = .pic) (mb sb : Byte) (k : Nat) :
    (s.inPicInit mb sb k).refused = none ∧ (s.inPicInit mb sb k).cfg.family = .pic :=
  AgreesButRequests.kept (mb := mb) (sb := sb) (k := k) hr hf ⟨rfl, rfl, rfl, rfl, fun _ => rfl⟩

/-- R96: a step of the uninterrupted PIC_INIT, whatever turns come after it. -/
theorem step_inPicInit_of_inputs {s : State} {mb sb : Byte} (hr : s.refused = none) (hf : s.cfg.family = .pic) {k : Nat}
    (hk : k < 10) (ys : List Input) :
    step { s.inPicInit mb sb k with inputs := .sequencer :: ys } = .next { s.inPicInit mb sb (k + 1) with inputs := ys } := by
  obtain ⟨x, hx⟩ : ∃ x, (picInitWrites mb sb)[k]? = some x := ⟨_, List.getElem?_eq_getElem hk⟩
  obtain ⟨hrefused, hfam⟩ := inPicInit_kept hr hf mb sb k
  have hat : atTransaction (.picInit mb sb) k (s.inPicInit mb sb k) := by
    simp [atTransaction, State.inPicInit, hk.ne, Sequencer.accepted]
  have hwrite : ({ s.inPicInit mb sb k with inputs := ys } : State).afterWrite x =
      { (s.inPicInit mb sb k).afterWrite x with inputs := ys } := by
    obtain ⟨c, p, v⟩ := x
    cases c <;> rfl
  let v : State := { s.inPicInit mb sb k with inputs := ys }
  have hnext : ({ v.afterWrite x with
      seq := if k + 1 = 10 then v.seq.completed else v.seq.afterTransaction k } : State) =
      { s.inPicInit mb sb (k + 1) with inputs := ys } := by
    rw [hwrite, ← afterWrite_inPicInit hk hx]
  have hstep := step_of_atTransaction (op := .picInit) (s := { s.inPicInit mb sb k with inputs := .sequencer :: ys }) rfl
    hrefused hat rfl
  refine hstep.trans ((exec_picInit_at (s := v) hx hfam hat).trans (congrArg _ ?_))
  rw [hnext]
  exact latched_of_not_intM (inPicInit_kept hr hf mb sb (k + 1)).2 (intM_inPicInit s mb sb k)

/-- R113: PIC_INIT from its submission to its end state, with the turns `ys` after it. -/
theorem runs_picInit {s : State} {mb sb : Byte} (hr : s.refused = none) (hf : s.cfg.family = .pic)
    (hp : s.seq.phase = .idle) (hc : contractFault s.cfg (.picInit mb sb) = none) {ys : List Input}
    (hi : s.inputs = .submit (encode (.picInit mb sb)) :: (List.replicate 10 .sequencer ++ ys)) :
    runs 11 s = .next { s.inPicInit mb sb 10 with inputs := ys } := by
  let f (k : Nat) : State := { s.inPicInit mb sb k with inputs := List.replicate (10 - k) .sequencer ++ ys }
  have haccept : step s = .next (f 0) := by
    rw [step_of_submit hr hi]
    refine (hostSubmit_picInit (s := { s with inputs := List.replicate 10 .sequencer ++ ys }) hf hp hc).trans ?_
    exact congrArg Host.Outcome.next (State_latched_pic _ hf)
  rw [runs_succ haccept]
  refine runs_of_steps (f := f) (n := 10) fun k hk => ?_
  have hturns : List.replicate (10 - k) Input.sequencer = .sequencer :: List.replicate (10 - (k + 1)) .sequencer := by
    rw [← List.replicate_succ]
    congr 1
    omega
  simp only [f, hturns, List.cons_append]
  exact step_inPicInit_of_inputs hr hf hk _

/-- Settles O28: the masks read are those that the first request leaves on the chips. -/
theorem readMasksAfterWriteMasksOrInit : Obligations.ReadMasksAfterWriteMasksOrInit := by
  refine ⟨fun m sl s hr hf hp hM hS hi => ?_, fun mb sb s hr hf hp hc hi => ?_⟩
  · obtain ⟨u, hwrites, hu⟩ := Stands.run_writesMasks (writesMasks_picWriteMasks m sl) ⟨hr, hf, rfl, rfl, hi⟩ hp
    rw [dataWritten_ready (p := s.pic .master) hM, dataWritten_ready (p := s.pic .slave) hS] at hu
    obtain ⟨t, hread, hpic, hidle, hres⟩ := hu.run_picReadMasks rfl
    exact ⟨t, (runs_add hwrites).trans hread, hidle, hres, congrFun hpic .master, congrFun hpic .slave⟩
  · have hinit := runs_picInit hr hf hp hc hi
    obtain ⟨hrefused, hfam⟩ := inPicInit_kept hr hf mb sb 10
    have hu := Stands.withInputs ⟨hrefused, hfam, rfl, rfl, rfl⟩ [.submit (encode .picReadMasks)]
    rw [inPicInit_end mb sb hp] at hinit hu
    obtain ⟨t, hread, hpic, hidle, hres⟩ := hu.run_picReadMasks hp
    have hM : (t.pic .master).imr = 0xFF#8 := congrArg Pic.imr (congrFun hpic .master)
    have hS : (t.pic .slave).imr = 0xFF#8 := congrArg Pic.imr (congrFun hpic .slave)
    rw [← hpic, hM, hS] at hres
    exact ⟨t, (runs_add hinit).trans hread, hidle, hres, hM, hS⟩

/-! ### The pairs of PIC_MASK and PIC_UNMASK -/

/-- R15: setting a bit twice is setting it to the second value. -/
theorem setBit_setBit {w : Nat} (x : BitVec w) (i : Nat) (a b : Bool) : setBit (setBit x i a) i b = setBit x i b := by
  ext j hj
  simp only [← BitVec.getLsbD_eq_getElem, getLsbD_setBit]
  grind

/-- R15: setting a bit changes nothing exactly where it had the value. -/
theorem setBit_eq_self_iff {w : Nat} {x : BitVec w} {i : Nat} (hi : i < w) {b : Bool} :
    setBit x i b = x ↔ x.getLsbD i = b := by
  refine ⟨fun h => ?_, fun h => ?_⟩
  · rw [← h, getLsbD_setBit, if_pos ⟨rfl, hi⟩]
  · ext j hj
    simp only [← BitVec.getLsbD_eq_getElem, getLsbD_setBit]
    grind

/-- A chip's mask bit set twice is set to the second value. -/
theorem withMaskBit_withMaskBit (p : Pic) (j : Nat) (a b : Bool) :
    (p.withMaskBit j a).withMaskBit j b = p.withMaskBit j b := by
  simp only [Pic.withMaskBit, setBit_setBit]

/-- Settles O29: the second request sets the bit that the first one changed. -/
theorem maskPairsRestoreTheByte : Obligations.MaskPairsRestoreTheByte := by
  intro l s masked hr hf hp hl hM hS hi
  have hpair : s.inputs = [.submit (encode (maskRequest l !masked)), .sequencer, .sequencer,
      .submit (encode (maskRequest l masked))] := by
    rw [hi]
    cases masked <;> rfl
  have hready : ∀ c, (s.pic c).step = .ready := fun c => by cases c <;> assumption
  obtain ⟨u, q, hfirst, hq, hu⟩ := Stands.run_maskRequest ⟨hr, hf, rfl, rfl, hpair⟩ hp hl (hready _) rfl rfl
  obtain ⟨t, r, hsecond, hidle, ht⟩ := hu.run_maskRequest hq hl (by rw [Function.update_self]; exact hready _) rfl rfl
  rw [Function.update_idem, Function.update_self, withMaskBit_withMaskBit] at ht
  have htM : t.picM = _ := congrFun ht.pic .master
  have htS : t.picS = _ := congrFun ht.pic .slave
  refine ⟨t, (runs_add hfirst).trans hsecond, ht.seq ▸ hidle, ?_⟩
  rw [htM, htS]
  by_cases h8 : l.toNat < 8
  · obtain ⟨hchip, hbit⟩ := owner_master h8
    rw [hchip, hbit]
    simp [h8, Pic.withMaskBit, setBit_eq_self_iff h8]
  · obtain ⟨hchip, hbit⟩ := owner_slave (Nat.le_of_not_lt h8)
    have hbound : l.toNat - 8 < 8 := by omega
    rw [hchip, hbit]
    simp [h8, Pic.withMaskBit, setBit_eq_self_iff hbound]

end Sys2Proof.Machine
end

section
/-!
SUPPORT. The history of a whole PIC_EOI (R126): from its submission to its completion on a Ready pair, with no other agent's
step between. Each turn keeps the pair Ready, so the next one is not refused.
-/

namespace Sys2Proof.Machine

/-- A PIC machine that is not refused, with both chips Ready, no other agent's turn waiting, the sequencer's registers `q`
and the history `es`. -/
structure ReadyPair (s : State) (q : Sequencer) (es : List Event) : Prop where
  refused : s.refused = none
  family : s.cfg.family = .pic
  ready : ∀ c, (s.pic c).step = .ready
  seq : s.seq = q
  inputs : s.inputs = []
  hist : s.hist = es

/-- The latch update keeps a Ready pair. -/
theorem ReadyPair.latched {s : State} {q : Sequencer} {es : List Event} (h : ReadyPair s q es) :
    ReadyPair s.latched q es where
  refused := by rw [State_latched_refused, h.refused]
  family := by rw [State_latched_cfg, h.family]
  ready c := by rw [pic_latched, h.ready]
  seq := by rw [State_latched_seq, h.seq]
  inputs := by rw [State_latched_inputs, h.inputs]
  hist := by rw [State_latched_hist, h.hist]

/-- A Ready pair may take new registers of the sequencer. -/
theorem ReadyPair.withSeq {s : State} {q : Sequencer} {es : List Event} (h : ReadyPair s q es) (r : Sequencer) :
    ReadyPair { s with seq := r } r es :=
  ⟨h.refused, h.family, fun c => by cases c <;> [exact h.ready .master; exact h.ready .slave], rfl, h.inputs, h.hist⟩

/-- R108: an EOI keeps the init step. -/
@[simp] theorem takeEoi_step (p : Pic) : p.takeEoi.step = p.step := by
  cases h : highestPri8 p.isr with
  | none => rw [takeEoi_of_none h]
  | some i => rw [takeEoi_of_some h]

/-- R19, R108: an EOI taken by a chip and logged keeps the pair Ready. -/
theorem ReadyPair.eoi {s : State} {q : Sequencer} {es : List Event} (h : ReadyPair s q es) (c : Chip) (e : Event) :
    ReadyPair ((s.setPic c (s.pic c).takeEoi).log e) q (es ++ [e]) where
  refused := by simpa using h.refused
  family := by simpa using h.family
  ready d := by
    have hlog : ((s.setPic c (s.pic c).takeEoi).log e).pic d = (s.setPic c (s.pic c).takeEoi).pic d := by cases d <;> rfl
    rw [hlog]
    by_cases hd : d = c
    · rw [hd, State_pic_setPic, takeEoi_step, h.ready]
    · rw [State_pic_setPic_ne _ hd, h.ready]
  seq := by simpa using h.seq
  inputs := by simpa using h.inputs
  hist := by simp [h.hist]

/-- R94: the turn of a valid request's submission to an Idle machine accepts it, and does nothing else. -/
theorem step_of_submit_accepted {i : Instr} {op : Opcode} (ho : opcodeOf i = some op) {s : State} {xs : List Input}
    (hr : s.refused = none) (hp : s.seq.phase = .idle) (hf : op.family = s.cfg.family)
    (hc : contractFault s.cfg i = none) (hi : s.inputs = .submit (encode i) :: xs) :
    step s = .next ({ s with inputs := xs, seq := s.seq.accepted (encode i) } : State).latched := by
  have hsubmit : step s = exec i { s with inputs := xs } :=
    stepRunsTheSubmittedRequest s (encode i) xs i hr hp hi (decode_encode_request ho) (by rw [ho, ← hf]; rfl)
  exact hsubmit.trans (exec_accepted (s := { s with inputs := xs }) ho hp hf hc)

section PicEoi

variable {l : Byte} {s : State}

/-- R94: a PIC_EOI submitted to a Ready pair is accepted. -/
theorem ReadyPair.of_submit (hr : s.refused = none) (hf : s.cfg.family = .pic) (hp : s.seq.phase = .idle)
    (hready : ∀ c, (s.pic c).step = .ready) (hl : l.toNat < 16) (hi : s.inputs = [.submit (encode (.picEoi l))]) :
    ∃ t, step s = .next t ∧ ReadyPair t (s.seq.accepted (encode (.picEoi l))) s.hist := by
  have hc : contractFault s.cfg (.picEoi l) = none := if_neg (by omega)
  have hpair : ReadyPair { s with inputs := [] } s.seq s.hist :=
    ⟨hr, hf, fun c => by cases c <;> [exact hready .master; exact hready .slave], rfl, rfl, rfl⟩
  exact ⟨_, step_of_submit_accepted (op := .picEoi) rfl hr hp hf.symm hc hi, (hpair.withSeq _).latched⟩

/-- R125, R126: the sequencer's turn at transaction `k` of PIC_EOI writes 0x20 to the command port that it names. -/
theorem ReadyPair.step_picEoi {q : Sequencer} {es : List Event} (h : ReadyPair s q es) {k : Nat} (hk : k < 16)
    {prog : Program} (hprog : picEoiProgram l = prog) {c : Chip}
    (hx : prog[k]? = some (.out8 (portAddr c .command) fun _ => 0x20#8))
    (hat : q.phase = .busy ∧ q.req = encode (.picEoi l) ∧ q.upc = BitVec.ofNat 4 k) :
    ∃ t, step s = .next t ∧ ReadyPair t (if k + 1 = prog.length then q.completed else q.afterTransaction k)
      (es ++ [evIow (portAddr c .command) 0x20#8]) := by
  obtain rfl := h.seq
  have ⟨hbusy, hreq, _⟩ := hat
  have hturn : step s = exec (.picEoi l) s :=
    step_of_busy h.refused h.inputs hbusy (by rw [hreq, decode_encode_request (op := .picEoi) rfl])
  exact ⟨_, hturn.trans ((exec_picEoi_at hk hprog hx h.family hat).1 (h.ready c)), ((h.eoi c _).withSeq _).latched⟩

/-- R126: for a line of the slave, the slave's EOI and then the master's. -/
theorem ReadyPair.run_picEoi_slave {q : Sequencer} {es : List Event} (h : ReadyPair s (q.accepted (encode (.picEoi l))) es)
    (hl : 8 ≤ l.toNat) : ∃ t, runs 2 s = .next t ∧ ReadyPair t (q.accepted (encode (.picEoi l))).completed
      (es ++ [evIow (portAddr .slave .command) 0x20#8, evIow (portAddr .master .command) 0x20#8]) := by
  have hprog := picEoiProgram_slave hl
  obtain ⟨u, hslave, hu⟩ := h.step_picEoi (k := 0) (c := .slave) (by omega) hprog rfl ⟨rfl, rfl, rfl⟩
  obtain ⟨t, hmaster, ht⟩ := hu.step_picEoi (k := 1) (c := .master) (by omega) hprog rfl ⟨rfl, rfl, rfl⟩
  rw [List.append_assoc] at ht
  exact ⟨t, by rw [runs_succ hslave, runs_succ hmaster, runs], ht⟩

/-- R126: for a line of the master, the master's EOI alone. -/
theorem ReadyPair.run_picEoi_master {q : Sequencer} {es : List Event} (h : ReadyPair s (q.accepted (encode (.picEoi l))) es)
    (hl : l.toNat < 8) : ∃ t, runs 1 s = .next t ∧ ReadyPair t (q.accepted (encode (.picEoi l))).completed
      (es ++ [evIow (portAddr .master .command) 0x20#8]) := by
  obtain ⟨t, hmaster, ht⟩ :=
    h.step_picEoi (k := 0) (c := .master) (by omega) (picEoiProgram_master hl) rfl ⟨rfl, rfl, rfl⟩
  exact ⟨t, by rw [runs_succ hmaster, runs], ht⟩

end PicEoi

/-- Settles O27: the submission adds no event, and each turn after it adds that of its write. -/
theorem picEoiHistory : Obligations.PicEoiHistory := by
  intro l s hr hf hp hM hS hi
  have hready : ∀ c, (s.pic c).step = .ready := fun c => by cases c <;> assumption
  have accepted (hl : l.toNat < 16) := ReadyPair.of_submit hr hf hp hready hl hi
  refine ⟨fun h8 hl => ?_, fun h8 => ?_⟩
  · obtain ⟨u, hsubmit, hu⟩ := accepted hl
    obtain ⟨t, hrun, ht⟩ := hu.run_picEoi_slave h8
    exact ⟨t, (runs_succ hsubmit).trans hrun, by rw [ht.seq]; rfl, ht.hist⟩
  · obtain ⟨u, hsubmit, hu⟩ := accepted (by omega)
    obtain ⟨t, hrun, ht⟩ := hu.run_picEoi_master h8
    exact ⟨t, (runs_succ hsubmit).trans hrun, by rw [ht.seq]; rfl, ht.hist⟩

end Sys2Proof.Machine
end

section
/-!
SUPPORT. Writes of the APIC registers (R128, R130, R136, R138, R139): what each leaves of the I/O APIC, as a raw write and as a
transaction of a request.
-/

namespace Sys2Proof.Machine

/-! ### The I/O APIC's registers -/

/-- R128: the I/O APIC with another index. -/
def Ioapic.select (a : Ioapic) (i : Byte) : Ioapic := { a with ioregsel := i }

/-- R130: the I/O APIC with another word in entry `n`, whose remote IRR is kept. -/
def Ioapic.withWord (a : Ioapic) (n : Nat) (w : Word64) : Ioapic :=
  { a with entries := a.entries.set n { word := w, remoteIrr := a.remoteIrr n } }

/-- R128, R130: the I/O APIC after a write of kind `k`; the other kinds of write are the Local APIC's. -/
def Ioapic.written (a : Ioapic) (v : Word32) : ApicKind → Ioapic
  | .indexWrite => a.select (v.extractLsb' 0 8)
  | .windowWriteLo n => a.withWord n (hiHalf (a.redir n) ++ setBit (setBit v 12 false) 14 false)
  | .windowWriteHi n => a.withWord n (v ++ loHalf (a.redir n))
  | .svrWrite | .tprWrite | .eoiWrite => a

/-- R128, R130: a write of the index, or of an entry of a table with `n` entries. -/
def InTable (n : Nat) : ApicKind → Prop
  | .indexWrite => True
  | .windowWriteLo m | .windowWriteHi m => m < n
  | .svrWrite | .tprWrite | .eoiWrite => False

/-- R130: what is stored of a low half is the word with bits 12 and 14 clear. -/
theorem lowHalfStored_eq_setBit (v : Word32) : lowHalfStored v = setBit (setBit v 12 false) 14 false :=
  BitVec.eq_of_getLsbD_eq fun j _ => by
    rw [lowHalfStored_bits, getLsbD_setBit, getLsbD_setBit]
    grind

/-- R130: a data-window write of an entry of the table. -/
theorem windowWrite_inside {n : Nat} {s : State} (hn : n < s.cfg.nRedir) (h : Half) (v : Word32) :
    windowWrite n h v s = .ok { s with ioapic := s.ioapic.withWord n (writtenWord (s.ioapic.redir n) h v) } := if_pos hn

/-- R130: a data-window write of an entry outside the table. -/
theorem windowWrite_outside {n : Nat} {s : State} (hn : s.cfg.nRedir ≤ n) (h : Half) (v : Word32) :
    windowWrite n h v s = .error .unmodelledIoapicRegister := if_neg (by omega)

/-- R128, R130: a write of the I/O APIC's index or of an entry of its table changes the I/O APIC alone. -/
theorem apicRespond_inTable {k : ApicKind} {s : State} (h : InTable s.cfg.nRedir k) (v : Word32) :
    apicRespond k v s = .ok { s with ioapic := s.ioapic.written v k } := by
  cases k with
  | indexWrite => rfl
  | windowWriteLo n =>
    rw [apicRespond, windowWrite_inside h, writtenWord, setLoHalf_eq, lowHalfStored_eq_setBit]
    rfl
  | windowWriteHi n => rw [apicRespond, windowWrite_inside h, writtenWord, setHiHalf_eq]; rfl
  | svrWrite | tprWrite | eoiWrite => exact h.elim

/-! ### Raw writes -/

section Raw

variable {k : ApicKind} {v : Word32} {s : State} (hf : s.cfg.family = .apic) (hp : s.seq.phase ≠ .busy)
include hf hp

/-- R66: on an APIC machine that is not Busy a write is the device's response, logged. -/
theorem exec_apicWrite {t : State} (h : apicRespond k v s = .ok t) :
    exec (k.instr v) s = .next (t.log (evMw (regAddr s.cfg (kindReg k)) v)).latched := by
  rw [exec_apicKind_instr, rawAccess_of_not_busy _ hp, apicTransaction, if_pos hf, h]
  rfl

/-- R147: a write that the device refuses. -/
theorem exec_apicWrite_refused {e : Refusal} (h : apicRespond k v s = .error e) :
    exec (k.instr v) s = .next (s.markRefused e) := by
  rw [exec_apicKind_instr, rawAccess_of_not_busy _ hp, apicTransaction, if_pos hf, h]
  rfl

/-- R128, R130: a raw write of the I/O APIC's index or of an entry of its table. -/
theorem exec_ioapicWrite (h : InTable s.cfg.nRedir k) :
    exec (k.instr v) s = .next ({ s with
      ioapic := s.ioapic.written v k, hist := s.hist ++ [evMw (regAddr s.cfg (kindReg k)) v] } : State).latched :=
  exec_apicWrite hf hp (apicRespond_inTable h v)

end Raw

/-- Settles O45: each register takes the word as its rule says. -/
theorem registerWriteResponses : Obligations.RegisterWriteResponses := by
  intro v s hf hp
  refine ⟨?_, exec_apicWrite (k := .svrWrite) hf hp rfl, exec_apicWrite (k := .tprWrite) hf hp rfl, ?_⟩
  · rw [BitVec.setWidth_eq_extractLsb' (by omega)]
    exact exec_ioapicWrite (k := .indexWrite) hf hp trivial
  · rw [← State_takeLapicEoi_hist s]
    exact exec_apicWrite (k := .eoiWrite) hf hp rfl

/-! ### The data window outside the table -/

/-- R130: a data-window write of an entry outside the table is refused. -/
theorem exec_windowWrite_refused {n : Nat} {s : State} (hf : s.cfg.family = .apic) (hp : s.seq.phase ≠ .busy)
    (hn : s.cfg.nRedir ≤ n) (v : Word32) :
    exec (.ioapicWindowWriteLo n v) s = .next (s.markRefused .unmodelledIoapicRegister) ∧
      exec (.ioapicWindowWriteHi n v) s = .next (s.markRefused .unmodelledIoapicRegister) :=
  ⟨exec_apicWrite_refused (k := .windowWriteLo n) hf hp (windowWrite_outside hn .lo v),
    exec_apicWrite_refused (k := .windowWriteHi n) hf hp (windowWrite_outside hn .hi v)⟩

/-- R130: at an index outside a table of `n` entries a word on the data window is no instruction, or writes an entry outside
the table. -/
theorem decode_window_outside {i : Byte} {n : Nat} (h : i.toNat < 0x10 ∨ 0x10 + 2 * n ≤ i.toNat) (v : Word32) :
    decode (.mmio .ioapicWindow i) (v.setWidth 64) = .error .ioapicRegister ∨
      ∃ m, n ≤ m ∧ (decode (.mmio .ioapicWindow i) (v.setWidth 64) = .ok (.ioapicWindowWriteLo m v) ∨
        decode (.mmio .ioapicWindow i) (v.setWidth 64) = .ok (.ioapicWindowWriteHi m v)) := by
  by_cases hlow : i.toNat < 0x10
  · exact .inl (by simp only [decode, apicKind, indexTarget, hlow, if_true]; rfl)
  · refine .inr ⟨(i.toNat - 0x10) / 2, by omega, ?_⟩
    obtain ⟨half, ht⟩ : ∃ half, indexTarget i = some ((i.toNat - 0x10) / 2, half) := ⟨_, if_neg hlow⟩
    cases half with
    | lo => exact .inl (decode_mmio_word (k := .windowWriteLo _) (by rw [apicKind, ht]) v)
    | hi => exact .inr (decode_mmio_word (k := .windowWriteHi _) (by rw [apicKind, ht]) v)

/-- R147: on a machine that is not Busy a raw write of a word that is no instruction is refused. -/
theorem rawWrite_of_reject {x : Transaction} {v : Word32} {s : State} {ctx : Context} {e : Reject}
    (hp : s.seq.phase ≠ .busy) (hx : writeContext x s = .ok ctx) (hd : decode ctx (v.setWidth 64) = .error e) :
    rawWrite x v s = .next (s.markRefused (rejectRefusal e)) := by
  unfold rawWrite
  cases hphase : s.seq.phase with
  | busy => exact absurd hphase hp
  | idle => simp only [hx, hd, finish_error]
  | faulted => simp only [hx, hd, finish_error]

/-- R147: the turn of a waiting raw write to a register, of a word that is no instruction there. -/
theorem step_of_rawWrite_reject {s : State} {r : MmioReg} {v : Word32} {rest : List Input} {e : Reject}
    (hr : s.refused = none) (hf : s.cfg.family = .apic) (hp : s.seq.phase ≠ .busy) (hc : validConfig s.cfg = true)
    (hi : s.inputs = .raw (.memWrite (regAddr s.cfg r) 4 v) :: rest)
    (hd : decode (.mmio r s.ioapic.ioregsel) (v.setWidth 64) = .error e) :
    step s = .next { s with inputs := rest, refused := some (rejectRefusal e) } := by
  have hx : writeContext (.memWrite (regAddr s.cfg r) 4 v) { s with inputs := rest } =
      .ok (.mmio r s.ioapic.ioregsel) := by
    simp [writeContext, regAddr_aligned hc, hf, regTarget_regAddr hc]
  rw [step_of_inputs hr hi]
  exact rawWrite_of_reject hp hx hd

/-- Settles O46: a write inside the table is the I/O APIC's response, and outside it nothing answers. -/
theorem windowWriteResponses : Obligations.WindowWriteResponses := by
  refine ⟨fun v s rest hr hf hp hi hc hout => ?_, fun n v s hf hp => ⟨fun hn => ?_, fun hn => ?_⟩⟩
  · have run {i : Instr} := stepRunsTheRawWrite.2 s v rest .ioapicWindow i hr hp hf hc hi
    have refused (m : Nat) (hm : s.cfg.nRedir ≤ m) := exec_windowWrite_refused (s := { s with inputs := rest }) hf hp hm v
    obtain hd | ⟨m, hm, hd | hd⟩ := decode_window_outside hout v
    · exact step_of_rawWrite_reject (r := .ioapicWindow) hr hf hp hc hi hd
    · exact (run hd).trans (refused m hm).1
    · exact (run hd).trans (refused m hm).2
  · exact ⟨exec_ioapicWrite (k := .windowWriteLo n) hf hp hn, exec_ioapicWrite (k := .windowWriteHi n) hf hp hn⟩
  · exact exec_windowWrite_refused hf hp hn v

end Sys2Proof.Machine
end

section
/-!
SUPPORT. The transactions of IOAPIC_WRITE_ENTRY and IOAPIC_SET_MASK (R133, R134), one by one: writes of the I/O APIC's index and
of an entry, and the read of a low half.
-/

namespace Sys2Proof.Machine

/-! ### The two kinds of transaction -/

/-- R96, R128, R130: a request's transaction that writes `v` to the I/O APIC's index or to an entry of its table, and leaves the
I/O APIC `b`. -/
theorem runRequest_ioapicWrite {fam : Family} {i : Instr} {chk : Option FaultCode} {prog : Program} {k : Nat} (hk : k < 16)
    {s : State} {r : MmioReg} {e : Word32 → Word32} (hx : prog[k]? = some (.st32 (regAddr s.cfg r) e))
    (hf : s.cfg.family = .apic) (hc : validConfig s.cfg = true) (h : atTransaction i k s) {kind : ApicKind}
    (hkind : apicKind r s.ioapic.ioregsel = .ok kind) (hin : InTable s.cfg.nRedir kind) {v : Word32} (hv : e s.seq.t = v)
    {b : Ioapic} (hb : s.ioapic.written v kind = b) :
    runRequest fam i chk prog s = .next ({ s with
      ioapic := b
      seq := if k + 1 = prog.length then s.seq.completed else s.seq.afterTransaction k
      hist := s.hist ++ [evMw (regAddr s.cfg r) v] } : State).latched := by
  have ⟨_, _, hat⟩ := h
  let t : State := { s with ioapic := b, hist := s.hist ++ [evMw (regAddr s.cfg r) v] }
  have hwrite : perform (.st32 (regAddr s.cfg r) e) s = .ok t := by
    rw [perform, hv, mmioWrite_regAddr hc hkind, apicTransaction, if_pos hf, apicRespond_inTable hin, hb,
      kindReg_of_apicKind hkind]
    rfl
  rw [runRequest_at hk hx h, hwrite, Except.map, finish_ok, advance_at (s := t) hat hk]
  split <;> rfl

/-- R131: on a valid APIC machine a read of a register is the register's answer, logged. -/
theorem mmioRead_regAddr {s : State} (hf : s.cfg.family = .apic) (hc : validConfig s.cfg = true) (r : MmioReg) :
    mmioRead (regAddr s.cfg r) s = (regRead r s).map fun (v, t) => (v, t.log (evMr (regAddr s.cfg r) v)) := by
  rw [mmioRead, if_pos hf, regTarget_regAddr hc]
  rfl

/-- R131: the low half of entry `n` as it reads next, its delivery status drawn. -/
def State.lowHalfNow (s : State) (n : Nat) : Word32 := lowHalfRead s.ioapic n (Config.freeDeliveryStatus s.draws)

/-- R131: but for bits 12 and 14 a low half reads as it is stored. -/
theorem getLsbD_lowHalfNow (s : State) (n : Nat) {j : Nat} (hj : j < 32) (h12 : j ≠ 12) (h14 : j ≠ 14) :
    (s.lowHalfNow n).getLsbD j = (s.ioapic.redir n).getLsbD j := by
  rw [State.lowHalfNow, getLsbD_lowHalfRead _ _ _ hj]
  simp [h12, h14]

/-- R96, R131: a request's transaction, not its last, that reads the low half of an entry into `t`. -/
theorem runRequest_lowHalfRead {fam : Family} {i : Instr} {chk : Option FaultCode} {prog : Program} {k : Nat} (hk : k < 16)
    {s : State} (hx : prog[k]? = some (.ld32 (regAddr s.cfg .ioapicWindow) .t)) (hlast : k + 1 ≠ prog.length)
    (hf : s.cfg.family = .apic) (hc : validConfig s.cfg = true) (h : atTransaction i k s) {n : Nat}
    (hi : s.ioapic.ioregsel.toNat = 0x10 + 2 * n) (hn : n < s.cfg.nRedir) :
    runRequest fam i chk prog s = .next ({ s with
      seq := { s.seq.afterTransaction k with t := s.lowHalfNow n }
      draws := s.draws + 1
      hist := s.hist ++ [evMr (regAddr s.cfg .ioapicWindow) (s.lowHalfNow n)] } : State).latched := by
  have ⟨_, _, hat⟩ := h
  let t : State := { s with
    seq := { s.seq with t := s.lowHalfNow n }
    draws := s.draws + 1
    hist := s.hist ++ [evMr (regAddr s.cfg .ioapicWindow) (s.lowHalfNow n)] }
  have hread : perform (.ld32 (regAddr s.cfg .ioapicWindow) .t) s = .ok t := by
    rw [perform, mmioRead_regAddr hf hc, regRead, windowRead_lo hi hn]
    rfl
  rw [runRequest_at hk hx h, hread, Except.map, finish_ok, advance_at (s := t) hat hk, if_neg hlast]
  rfl

/-! ### The words that are written -/

/-- R86: at an even index the data window is the low half of an entry. -/
theorem apicKind_lo {i : Byte} {n : Nat} (h : i.toNat = 0x10 + 2 * n) :
    apicKind .ioapicWindow i = .ok (.windowWriteLo n) := by rw [apicKind, indexTarget_lo h]

/-- R86: at an odd index the data window is the high half of an entry. -/
theorem apicKind_hi {i : Byte} {n : Nat} (h : i.toNat = 0x11 + 2 * n) :
    apicKind .ioapicWindow i = .ok (.windowWriteHi n) := by rw [apicKind, indexTarget_hi h]

/-- R11, R12: a line of a valid machine is below 120. -/
theorem line_lt_of_valid {c : Config} (hc : validConfig c = true) {n : Nat} (hn : n < c.nRedir) : n < 120 := by
  obtain ⟨-, hmax, -⟩ := validConfig_facts hc
  omega

/-- R86: the word that selects an entry's low half. -/
theorem loIndex_word {n : Nat} (h : n < 120) : (loIndex n).setWidth 32 = BitVec.ofNat 32 (0x10 + 2 * n) :=
  BitVec.eq_of_toNat_eq (by
    rw [BitVec.toNat_setWidth, loIndex_toNat h, BitVec.toNat_ofNat])

/-- R86: the word that selects an entry's high half. -/
theorem hiIndex_word {n : Nat} (h : n < 120) : (hiIndex n).setWidth 32 = BitVec.ofNat 32 (0x11 + 2 * n) :=
  BitVec.eq_of_toNat_eq (by
    rw [BitVec.toNat_setWidth, hiIndex_toNat h, BitVec.toNat_ofNat])

/-- R128: the index register takes an index written as a word. -/
theorem written_index {a : Ioapic} {i : Byte} {v : Word32} (h : i.setWidth 32 = v) : a.written v .indexWrite = a.select i := by
  rw [← h, Ioapic.written, extractByte_setWidth]

/-- R96, R128: a request's transaction that writes the index `j`, as the word `v`. -/
theorem runRequest_indexWrite {fam : Family} {i : Instr} {chk : Option FaultCode} {prog : Program} {k : Nat} (hk : k < 16)
    {s : State} {j : Byte} (hx : prog[k]? = some (.st32 (regAddr s.cfg .ioapicIndex) fun _ => j.setWidth 32))
    (hf : s.cfg.family = .apic) (hc : validConfig s.cfg = true) (h : atTransaction i k s) {v : Word32}
    (hv : j.setWidth 32 = v) :
    runRequest fam i chk prog s = .next ({ s with
      ioapic := s.ioapic.select j
      seq := if k + 1 = prog.length then s.seq.completed else s.seq.afterTransaction k
      hist := s.hist ++ [evMw s.cfg.ioapicBase v] } : State).latched :=
  runRequest_ioapicWrite (r := .ioapicIndex) (kind := .indexWrite) hk hx hf hc h rfl trivial hv (written_index hv)

/-- R85, R130: a packed low half is stored as it is, as its bits 12 and 14 are clear. -/
theorem written_packLo (a : Ioapic) (n : Nat) (vec : Byte) (dm : BitVec 3) (dsm pol trg m : Bool) :
    a.written (packLo vec dm dsm pol trg m) (.windowWriteLo n) =
      a.withWord n (hiHalf (a.redir n) ++ packLo vec dm dsm pol trg m) := by
  have bit := getLsbD_packLo vec dm dsm pol trg m
  rw [Ioapic.written, (setBit_eq_self_iff (b := false) (by omega)).mpr (bit 12),
    (setBit_eq_self_iff (b := false) (by omega)).mpr (bit 14)]

/-- R134: the word that IOAPIC_SET_MASK writes is the one that it read but for bit 16. -/
theorem getLsbD_withMaskBit (t : Word32) (m : Bool) {j : Nat} (hj : j < 32) :
    (withMaskBit t m).getLsbD j = if j = 16 then m else t.getLsbD j := by
  have hbit : ∀ i : Fin 32, (0x00010000#32).getLsbD i = decide (i.val = 16) := by decide
  have := hbit ⟨j, hj⟩
  simp only at this
  simp only [withMaskBit, BitVec.getLsbD_or, BitVec.getLsbD_and, BitVec.getLsbD_not, this, BitVec.getLsbD_shiftLeft,
    BitVec.getLsbD_setWidth, BitVec.getLsbD_ofBool]
  grind

/-- R130, R134: whatever bits 12 and 14 read as, the entry written back changes in its mask bit alone. -/
theorem written_withMaskBit {a : Ioapic} {n : Nat} {t : Word32} (m : Bool) (h12 : (a.redir n).getLsbD 12 = false)
    (h14 : (a.redir n).getLsbD 14 = false) (ht : ∀ j < 32, j ≠ 12 → j ≠ 14 → t.getLsbD j = (a.redir n).getLsbD j) :
    a.written (withMaskBit t m) (.windowWriteLo n) = a.withWord n (setBit (a.redir n) 16 m) := by
  rw [Ioapic.written]
  congr 1
  refine BitVec.eq_of_getLsbD_eq fun j hj => ?_
  have hmask := getLsbD_withMaskBit t m (j := j)
  have := ht j
  simp only [getLsbD_halves, getLsbD_hiHalf, getLsbD_setBit]
  grind

/-! ### The transactions of each request -/

/-- Settles O38, one write for each transaction. -/
theorem writeEntryTransactions : Obligations.WriteEntryTransactions := by
  intro l vec dm dsm pol trg dest s i hf hc hl
  have h120 := line_lt_of_valid hc hl
  let prog := ioapicWriteEntryProgram s.cfg l vec dm dsm pol trg dest
  refine ⟨fun h => ?_, fun h hi => ?_, fun h => ?_, fun h hi => ?_⟩
  · exact runRequest_indexWrite (prog := prog) (k := 0) (by omega) rfl hf hc h (loIndex_word h120)
  · exact runRequest_ioapicWrite (prog := prog) (k := 1) (r := .ioapicWindow) (by omega) rfl hf hc h (apicKind_lo hi) hl rfl
      (written_packLo _ _ vec dm.code dsm.bit pol.bit trg.bit true)
  · exact runRequest_indexWrite (prog := prog) (k := 2) (by omega) rfl hf hc h (hiIndex_word h120)
  · exact runRequest_ioapicWrite (prog := prog) (k := 3) (r := .ioapicWindow) (by omega) rfl hf hc h (apicKind_hi hi) hl rfl rfl

/-- Settles O40: the word read differs from the stored half in bits 12 and 14 at most, which are not stored. -/
theorem setMaskTransactions : Obligations.SetMaskTransactions := by
  intro l m s hf hc hl
  have h120 := line_lt_of_valid hc hl
  let prog := ioapicSetMaskProgram s.cfg l m
  refine ⟨fun h => ?_, fun h hi => ⟨s.lowHalfNow l.toNat, ?_, fun j => getLsbD_lowHalfNow s l.toNat⟩,
    fun h hi h12 h14 ht => ⟨withMaskBit s.seq.t m, ?_, fun j => getLsbD_withMaskBit s.seq.t m⟩⟩
  · exact runRequest_indexWrite (prog := prog) (k := 0) (by omega) rfl hf hc h (loIndex_word h120)
  · exact runRequest_lowHalfRead (prog := prog) (k := 1) (by omega) rfl (by decide : 2 ≠ 3) hf hc h hi hl
  · exact runRequest_ioapicWrite (prog := prog) (k := 2) (r := .ioapicWindow) (by omega) rfl hf hc h (apicKind_lo hi) hl rfl
      (written_withMaskBit m h12 h14 ht)

end Sys2Proof.Machine
end

section
/-!
SUPPORT. Whole runs of IOAPIC_WRITE_ENTRY and IOAPIC_SET_MASK (R135). A run is followed by what a later turn sees of it: the I/O
APIC, the sequencer, and the turns to come. Each request changes the index and one word of the table, so a run of several
requests is one change of that word.
-/

namespace Sys2Proof.Machine

/-! ### The table under the changes of its words -/

/-- R128: the index is no part of the table. -/
theorem withWord_select (a : Ioapic) (i : Byte) (n : Nat) (w : Word64) :
    (a.select i).withWord n w = (a.withWord n w).select i := rfl

/-- R128: selecting an entry changes none. -/
theorem redir_select (a : Ioapic) (i : Byte) (n : Nat) : (a.select i).redir n = a.redir n := rfl

/-- R130: a change of words keeps every remote IRR. -/
theorem remoteIrr_withWord (a : Ioapic) (n : Nat) (w : Word64) (m : Nat) :
    (a.withWord n w).remoteIrr m = a.remoteIrr m := by
  simp only [Ioapic.withWord, Ioapic.remoteIrr, List.getElem?_set]
  split
  · subst m; split <;> simp_all
  · rfl

/-- R130: an entry's word changed twice is changed to the second one. -/
theorem withWord_withWord (a : Ioapic) (n : Nat) (v w : Word64) : (a.withWord n v).withWord n w = a.withWord n w := by
  rw [Ioapic.withWord, remoteIrr_withWord]
  simp only [Ioapic.withWord, List.set_set]

/-- R130: the word of an entry of the table after it is changed. -/
theorem redir_withWord {a : Ioapic} {n : Nat} (h : n < a.entries.length) (w : Word64) : (a.withWord n w).redir n = w := by
  simp [Ioapic.withWord, Ioapic.redir, h]

/-- R130: the other entries keep their words and their remote IRR. -/
theorem entries_withWord_ne (a : Ioapic) {n m : Nat} (h : m ≠ n) (w : Word64) :
    (a.withWord n w).entries[m]? = a.entries[m]? := by
  rw [Ioapic.withWord, List.getElem?_set_ne h.symm]

/-- R133: the high half written after the low one makes the entry of both. -/
theorem written_hi_withWord {a : Ioapic} {n : Nat} (h : n < a.entries.length) (old low high : Word32) (j : Byte) :
    ((a.withWord n (old ++ low)).select j).written high (.windowWriteHi n) = (a.withWord n (high ++ low)).select j := by
  rw [Ioapic.written, redir_select, redir_withWord h, loHalf_append, withWord_select, withWord_withWord]

/-- R85, R134: setting the mask bit of a packed entry is packing it with that bit. -/
theorem setBit_mask_packedEntry (vec dest : Byte) (dm : BitVec 3) (dsm pol trg m m' : Bool) :
    setBit (packHi dest ++ packLo vec dm dsm pol trg m : Word64) 16 m' = packHi dest ++ packLo vec dm dsm pol trg m' :=
  BitVec.eq_of_getLsbD_eq fun j hj => by
    rw [getLsbD_setBit, getLsbD_packedEntry, getLsbD_packedEntry]
    grind

/-! ### What a later turn sees -/

/-- An APIC machine that is not refused, with the valid parameters `c`, the I/O APIC `a`, the sequencer's registers `q` and the
turns `xs` to come. -/
structure ApicStands (s : State) (c : Config) (a : Ioapic) (q : Sequencer) (xs : List Input) : Prop where
  refused : s.refused = none
  cfg : s.cfg = c
  family : c.family = .apic
  valid : validConfig c = true
  ioapic : s.ioapic = a
  seq : s.seq = q
  inputs : s.inputs = xs

/-- What a step leaves of the I/O APIC, the sequencer and the turns is seen; its events, draws and latches are not. -/
theorem ApicStands.next {s : State} {c : Config} {a : Ioapic} {q : Sequencer} {xs : List Input} (h : ApicStands s c a q xs)
    (b : Ioapic) (r : Sequencer) (ys : List Input) (es : List Event) (d : Nat) :
    ApicStands ({ s with ioapic := b, seq := r, inputs := ys, hist := es, draws := d } : State).latched c b r ys where
  refused := by rw [State_latched_refused, h.refused]
  cfg := by rw [State_latched_cfg, h.cfg]
  family := h.family
  valid := h.valid
  ioapic := State_latched_ioapic _
  seq := State_latched_seq _
  inputs := State_latched_inputs _

/-! ### The steps of a request -/

/-- R22, R96: the sequencer's turn, waiting or by default (log 2), runs the request in progress. -/
theorem step_of_sequencerTurn {i : Instr} {op : Opcode} (ho : opcodeOf i = some op) {k : Nat} {s : State}
    (hr : s.refused = none) (h : atTransaction i k s) (hn : s.nextInput = .sequencer) : step s = exec i s.takeInput := by
  have ⟨hbusy, hreq, _⟩ := h
  rw [step_of_not_refused hr, hn]
  exact sequencerTurn_of_busy (s := s.takeInput) hbusy (by rw [State_takeInput_seq, hreq, decode_encode_request ho])

section Request

variable {i : Instr} {op : Opcode} (ho : opcodeOf i = some op) {s : State} {c : Config} {a : Ioapic} {q : Sequencer}
include ho

/-- R94: a valid request submitted to an Idle machine is accepted. -/
theorem ApicStands.step_submit {xs : List Input} (hfam : op.family = .apic)
    (h : ApicStands s c a q (.submit (encode i) :: xs)) (hp : q.phase = .idle) (hc : contractFault c i = none) :
    ∃ t, step s = .next t ∧ ApicStands t c a (q.accepted (encode i)) xs := by
  obtain rfl := h.seq
  obtain rfl := h.cfg
  obtain rfl := h.ioapic
  exact ⟨_, step_of_submit_accepted ho h.refused hp (hfam.trans h.family.symm) hc h.inputs, h.next _ _ xs _ _⟩

variable {k : Nat} {ys : List Input} (h : ApicStands s c a q ys)
  (hat : q.phase = .busy ∧ q.req = encode i ∧ q.upc = BitVec.ofNat 4 k) (hturn : ys.headD .sequencer = .sequencer)
  {fam : Family} {chk : Option FaultCode} {prog : Program}
  (hexec : ∀ s, s.cfg = c → exec i s = runRequest fam i chk prog s) (hk : k < 16)
include h hat hturn hexec hk

/-- R96, R128, R130: a turn that writes the I/O APIC's index or an entry of its table. -/
theorem ApicStands.step_write {r : MmioReg} {e : Word32 → Word32} (hx : prog[k]? = some (.st32 (regAddr c r) e))
    {kind : ApicKind} (hkind : apicKind r a.ioregsel = .ok kind) (hin : InTable c.nRedir kind) {b : Ioapic}
    (hb : a.written (e q.t) kind = b) :
    ∃ t, step s = .next t ∧
      ApicStands t c b (if k + 1 = prog.length then q.completed else q.afterTransaction k) ys.tail := by
  obtain ⟨hr, rfl, hf, hc, rfl, rfl, rfl⟩ := h
  have hrun := runRequest_ioapicWrite (fam := fam) (chk := chk) (s := s.takeInput) hk hx hf hc hat hkind hin rfl hb
  exact ⟨_, (step_of_sequencerTurn ho hr hat hturn).trans ((hexec s.takeInput rfl).trans hrun),
    ApicStands.next ⟨hr, rfl, hf, hc, rfl, rfl, rfl⟩ _ _ _ _ _⟩

/-- R96, R128: a turn that writes the index `j`. -/
theorem ApicStands.step_select {j : Byte}
    (hx : prog[k]? = some (.st32 (regAddr c .ioapicIndex) fun _ => j.setWidth 32)) :
    ∃ t, step s = .next t ∧
      ApicStands t c (a.select j) (if k + 1 = prog.length then q.completed else q.afterTransaction k) ys.tail :=
  h.step_write (kind := .indexWrite) ho hat hturn hexec hk hx rfl trivial (written_index rfl)

/-- R96, R131: a turn that reads the low half of an entry of the table into `t`. -/
theorem ApicStands.step_read (hx : prog[k]? = some (.ld32 (regAddr c .ioapicWindow) .t)) (hlast : k + 1 ≠ prog.length)
    {n : Nat} (hi : a.ioregsel.toNat = 0x10 + 2 * n) (hn : n < c.nRedir) :
    ∃ t x, step s = .next t ∧ ApicStands t c a { q.afterTransaction k with t := x } ys.tail ∧
      ∀ j < 32, j ≠ 12 → j ≠ 14 → x.getLsbD j = (a.redir n).getLsbD j := by
  obtain ⟨hr, rfl, hf, hc, rfl, rfl, rfl⟩ := h
  have hrun := runRequest_lowHalfRead (fam := fam) (chk := chk) (s := s.takeInput) hk hx hlast hf hc hat hi hn
  exact ⟨_, s.lowHalfNow n, (step_of_sequencerTurn ho hr hat hturn).trans ((hexec s.takeInput rfl).trans hrun),
    ApicStands.next ⟨hr, rfl, hf, hc, rfl, rfl, rfl⟩ _ _ _ _ _, fun j => getLsbD_lowHalfNow s n⟩

end Request

/-! ### The host's raw accesses -/

section Raw

variable {s : State} {c : Config} {a : Ioapic} {q : Sequencer} {xs : List Input} (hp : q.phase ≠ .busy)
include hp

/-- R66, R128: the turn of a raw write of the index. -/
theorem ApicStands.step_rawIndexWrite {v : Word32} (h : ApicStands s c a q (.raw (.memWrite c.ioapicBase 4 v) :: xs))
    {j : Byte} (hv : j.setWidth 32 = v) : ∃ t, step s = .next t ∧ ApicStands t c (a.select j) q xs := by
  obtain ⟨hr, rfl, hf, hc, rfl, rfl, hi⟩ := h
  have hd := decode_mmio_word (r := .ioapicIndex) (x := s.ioapic.ioregsel) (k := .indexWrite) rfl v
  have hrun := exec_ioapicWrite (k := .indexWrite) (v := v) (s := { s with inputs := xs }) hf hp trivial
  rw [written_index hv] at hrun
  exact ⟨_, (stepRunsTheRawWrite.2 s v xs .ioapicIndex _ hr hp hf hc hi hd).trans hrun,
    ApicStands.next ⟨hr, rfl, hf, hc, rfl, rfl, hi⟩ _ _ _ _ _⟩

/-- R66, R131: the turn of a raw read of the low half of an entry of the table. -/
theorem ApicStands.step_rawRead (h : ApicStands s c a q (.raw (.memRead (c.ioapicBase + 0x10#32) 4) :: xs)) {n : Nat}
    (hi : a.ioregsel.toNat = 0x10 + 2 * n) (hn : n < c.nRedir) :
    ∃ t x, step s = .next t ∧ ApicStands t c a q xs ∧ t.hist.getLast? = some (evMr (c.ioapicBase + 0x10#32) x) ∧
      ∀ j < 32, j ≠ 12 → j ≠ 14 → x.getLsbD j = (a.redir n).getLsbD j := by
  obtain ⟨hr, rfl, hf, hc, rfl, rfl, hinputs⟩ := h
  have hread := windowRead_lo (s := { s with inputs := xs }) hi hn
  refine ⟨_, s.lowHalfNow n, step_of_regRead (r := .ioapicWindow) hr hp hf hc hread hinputs,
    ApicStands.next ⟨hr, rfl, hf, hc, rfl, rfl, hinputs⟩ _ _ _ _ _, ?_, fun j => getLsbD_lowHalfNow s n⟩
  rw [State_latched_hist, State_log_hist, List.getLast?_concat]
  rfl

end Raw

/-! ### The runs of the two requests -/

/-- R133: IOAPIC_WRITE_ENTRY ends Idle with the entry packed and masked, and its high half selected. -/
theorem ApicStands.run_writeEntry {s : State} {c : Config} {a : Ioapic} {q : Sequencer} {xs : List Input} {l vec : Byte}
    {dm : DeliveryMode} {dsm : DestMode} {pol : Polarity} {trg : TriggerMode} {dest : Byte}
    (h : ApicStands s c a q (.submit (encode (.ioapicWriteEntry l vec dm dsm pol trg dest)) ::
      .sequencer :: .sequencer :: .sequencer :: .sequencer :: xs))
    (hp : q.phase = .idle) (hl : l.toNat < c.nRedir) (hlen : l.toNat < a.entries.length) :
    ∃ t r, runs 5 s = .next t ∧ r.phase = .idle ∧ ApicStands t c ((a.withWord l.toNat
      (packHi dest ++ packLo vec dm.code dsm.bit pol.bit trg.bit true)).select (hiIndex l.toNat)) r xs := by
  let i : Instr := .ioapicWriteEntry l vec dm dsm pol trg dest
  let prog := ioapicWriteEntryProgram c l vec dm dsm pol trg dest
  let low := packLo vec dm.code dsm.bit pol.bit trg.bit true
  let r := q.accepted (encode i)
  let lo := loIndex l.toNat
  let hi := hiIndex l.toNat
  let b := (a.select lo).withWord l.toNat (hiHalf (a.redir l.toNat) ++ low)
  have h120 := line_lt_of_valid h.valid hl
  have hexec : ∀ s, s.cfg = c → exec i s = runRequest .apic i (checkLine l c.nRedir) prog s := by
    rintro s rfl
    rfl
  obtain ⟨t₀, hsubmit, h₀⟩ := h.step_submit (op := .ioapicWriteEntry) rfl rfl hp (if_neg (by omega))
  obtain ⟨t₁, hselectLo, h₁⟩ : ∃ t, step t₀ = .next t ∧ ApicStands t c (a.select lo) (r.afterTransaction 0) _ :=
    h₀.step_select (k := 0) rfl ⟨rfl, rfl, rfl⟩ rfl hexec (by omega) rfl
  obtain ⟨t₂, hlow, h₂⟩ : ∃ t, step t₁ = .next t ∧ ApicStands t c b (r.afterTransaction 1) _ :=
    h₁.step_write (k := 1) (r := .ioapicWindow) rfl ⟨rfl, rfl, rfl⟩ rfl hexec (by omega) rfl
      (apicKind_lo (loIndex_toNat h120)) hl (written_packLo ..)
  obtain ⟨t₃, hselectHi, h₃⟩ : ∃ t, step t₂ = .next t ∧ ApicStands t c (b.select hi) (r.afterTransaction 2) _ :=
    h₂.step_select (k := 2) rfl ⟨rfl, rfl, rfl⟩ rfl hexec (by omega) rfl
  obtain ⟨t₄, hhigh, h₄⟩ : ∃ t, step t₃ = .next t ∧ ApicStands t c _ r.completed _ :=
    h₃.step_write (k := 3) (r := .ioapicWindow) rfl ⟨rfl, rfl, rfl⟩ rfl hexec (by omega) rfl
      (apicKind_hi (hiIndex_toNat h120)) hl (written_hi_withWord hlen ..)
  exact ⟨t₄, r.completed,
    by rw [runs_succ hsubmit, runs_succ hselectLo, runs_succ hlow, runs_succ hselectHi, runs_succ hhigh, runs], rfl, h₄⟩

/-- R134: IOAPIC_SET_MASK ends Idle with the entry's mask bit set to `m`, and its low half selected. -/
theorem ApicStands.run_setMask {s : State} {c : Config} {a : Ioapic} {q : Sequencer} {xs : List Input} {l : Byte} {m : Bool}
    (h : ApicStands s c a q (.submit (encode (.ioapicSetMask l m)) :: xs)) (hp : q.phase = .idle) (hl : l.toNat < c.nRedir)
    (h12 : (a.redir l.toNat).getLsbD 12 = false) (h14 : (a.redir l.toNat).getLsbD 14 = false)
    (h0 : xs.headD .sequencer = .sequencer) (h1 : xs.tail.headD .sequencer = .sequencer)
    (h2 : xs.tail.tail.headD .sequencer = .sequencer) :
    ∃ t r, runs 4 s = .next t ∧ r.phase = .idle ∧ ApicStands t c
      ((a.withWord l.toNat (setBit (a.redir l.toNat) 16 m)).select (loIndex l.toNat)) r xs.tail.tail.tail := by
  let i : Instr := .ioapicSetMask l m
  let prog := ioapicSetMaskProgram c l m
  let r := (q.accepted (encode i)).afterTransaction 0
  let b := a.select (loIndex l.toNat)
  have h120 := line_lt_of_valid h.valid hl
  have hindex : b.ioregsel.toNat = 0x10 + 2 * l.toNat := loIndex_toNat h120
  have hexec : ∀ s, s.cfg = c → exec i s = runRequest .apic i (checkLine l c.nRedir) prog s := by
    rintro s rfl
    rfl
  obtain ⟨t₀, hsubmit, h₀⟩ := h.step_submit (op := .ioapicSetMask) rfl rfl hp (if_neg (by omega))
  obtain ⟨t₁, hselect, h₁⟩ : ∃ t, step t₀ = .next t ∧ ApicStands t c b r _ :=
    h₀.step_select (k := 0) rfl ⟨rfl, rfl, rfl⟩ h0 hexec (by omega) rfl
  obtain ⟨t₂, x, hread, h₂, hx⟩ :=
    h₁.step_read (k := 1) rfl ⟨rfl, rfl, rfl⟩ h1 hexec (by omega) rfl (by decide : 2 ≠ 3) hindex hl
  let r' : Sequencer := { r.afterTransaction 1 with t := x }
  obtain ⟨t₃, hwrite, h₃⟩ : ∃ t, step t₂ = .next t ∧ ApicStands t c _ r'.completed _ :=
    h₂.step_write (k := 2) (r := .ioapicWindow) rfl ⟨rfl, rfl, rfl⟩ h2 hexec (by omega) rfl (apicKind_lo hindex) hl
      (written_withMaskBit (a := b) m h12 h14 hx)
  exact ⟨t₃, r'.completed, by rw [runs_succ hsubmit, runs_succ hselect, runs_succ hread, runs_succ hwrite, runs], rfl, h₃⟩

/-! ### The runs of several requests -/

/-- R39, R130: the entry of a line of a machine with the invariant is in the table, with bits 12 and 14 clear. -/
theorem State.Inv.entry {s : State} (h : s.Inv) {n : Nat} (hn : n < s.cfg.nRedir) :
    n < s.ioapic.entries.length ∧ (s.ioapic.redir n).getLsbD 12 = false ∧ (s.ioapic.redir n).getLsbD 14 = false := by
  have hlen : n < s.ioapic.entries.length := h.entries ▸ hn
  obtain ⟨e, he, hw, -⟩ := redir_mem hlen
  exact ⟨hlen, hw ▸ h.readOnlyBits e he⟩

/-- R135: an entry written, its low half selected and read: the machine is Idle, the entry is packed and masked, and the word
read has bit 16 set. -/
theorem ApicStands.run_writeEntry_read {s : State} {c : Config} {a : Ioapic} {q : Sequencer} {xs : List Input} {l vec : Byte}
    {dm : DeliveryMode} {dsm : DestMode} {pol : Polarity} {trg : TriggerMode} {dest : Byte}
    (h : ApicStands s c a q (.submit (encode (.ioapicWriteEntry l vec dm dsm pol trg dest)) ::
      .sequencer :: .sequencer :: .sequencer :: .sequencer ::
      .raw (.memWrite c.ioapicBase 4 (BitVec.ofNat 32 (0x10 + 2 * l.toNat))) ::
      .raw (.memRead (c.ioapicBase + 0x10#32) 4) :: xs))
    (hp : q.phase = .idle) (hl : l.toNat < c.nRedir) (hlen : l.toNat < a.entries.length) :
    ∃ t r x, runs 7 s = .next t ∧ r.phase = .idle ∧ t.hist.getLast? = some (evMr (c.ioapicBase + 0x10#32) x) ∧
      x.getLsbD 16 = true ∧ ApicStands t c ((a.withWord l.toNat
        (packHi dest ++ packLo vec dm.code dsm.bit pol.bit trg.bit true)).select (loIndex l.toNat)) r xs := by
  have h120 := line_lt_of_valid h.valid hl
  obtain ⟨u, r, hwrite, hidle, hu⟩ := h.run_writeEntry hp hl hlen
  have hrest : r.phase ≠ .busy := by simp [hidle]
  obtain ⟨v, hselect, hv⟩ := hu.step_rawIndexWrite hrest (loIndex_word h120)
  obtain ⟨t, x, hread, ht, hlast, hx⟩ := hv.step_rawRead hrest (loIndex_toNat h120) hl
  refine ⟨t, r, x, by rw [runs_add (n := 2) hwrite, runs_succ hselect, runs_succ hread, runs], hidle, hlast, ?_, ht⟩
  rw [hx 16 (by omega) (by omega) (by omega), redir_select, redir_select, redir_withWord hlen]
  exact getLsbD_packedEntry vec dest dm.code dsm.bit pol.bit trg.bit true 16

/-- R135: IOAPIC_SET_MASK `m` and then `m'` ends Idle with the entry's mask bit set to `m'`. -/
theorem ApicStands.run_setMask_setMask {s : State} {c : Config} {a : Ioapic} {q : Sequencer} {l : Byte} {m m' : Bool}
    (h : ApicStands s c a q [.submit (encode (.ioapicSetMask l m)), .sequencer, .sequencer, .sequencer,
      .submit (encode (.ioapicSetMask l m'))])
    (hp : q.phase = .idle) (hl : l.toNat < c.nRedir) (hlen : l.toNat < a.entries.length)
    (h12 : (a.redir l.toNat).getLsbD 12 = false) (h14 : (a.redir l.toNat).getLsbD 14 = false) :
    ∃ t r, runs 8 s = .next t ∧ r.phase = .idle ∧
      ApicStands t c ((a.withWord l.toNat (setBit (a.redir l.toNat) 16 m')).select (loIndex l.toNat)) r [] := by
  obtain ⟨u, q', hfirst, hq', hu⟩ := h.run_setMask hp hl h12 h14 rfl rfl rfl
  obtain ⟨t, r, hsecond, hidle, ht⟩ := hu.run_setMask hq' hl
    (by rw [redir_select, redir_withWord hlen, getLsbD_setBit]; exact h12)
    (by rw [redir_select, redir_withWord hlen, getLsbD_setBit]; exact h14) rfl rfl rfl
  rw [redir_select, redir_withWord hlen, setBit_setBit, withWord_select, withWord_withWord] at ht
  exact ⟨t, r, (runs_add hfirst).trans hsecond, hidle, ht⟩

/-- Settles O41: each run is one change of the entry's word. -/
theorem redirectionEntryProperties : Obligations.RedirectionEntryProperties := by
  refine ⟨fun l vec dm dsm pol trg dest s hinv hr hf hp hl hi => ?_, fun l s hinv hr hf hp hl hi => ?_⟩
  · obtain ⟨hlen, -, -⟩ := hinv.entry hl
    have bit := getLsbD_packedEntry vec dest dm.code dsm.bit pol.bit trg.bit true
    obtain ⟨u, q, x, hread, hq, hlast, h16, hu⟩ :=
      ApicStands.run_writeEntry_read ⟨hr, rfl, hf, hinv.config, rfl, rfl, hi⟩ hp hl hlen
    have hword : u.ioapic.redir l.toNat = packHi dest ++ packLo vec dm.code dsm.bit pol.bit trg.bit true := by
      rw [hu.ioapic, redir_select, redir_withWord hlen]
    obtain ⟨t, r, hmask, hidle, ht⟩ := hu.run_setMask hq hl (by rw [← hu.ioapic, hword]; exact bit 12)
      (by rw [← hu.ioapic, hword]; exact bit 14) rfl rfl rfl
    rw [redir_select, redir_withWord hlen, setBit_mask_packedEntry, withWord_select, withWord_withWord] at ht
    refine ⟨⟨u, x, hread, hlast, h16, hword⟩, t, (runs_add hread).trans hmask, ht.seq ▸ hidle, ?_, fun n hn => ?_⟩
    · rw [ht.ioapic, redir_select, redir_select, redir_withWord hlen]
    · rw [ht.ioapic]
      exact entries_withWord_ne _ hn _
  · obtain ⟨hlen, h12, h14⟩ := hinv.entry hl
    obtain ⟨t, r, hrun, hidle, ht⟩ :=
      ApicStands.run_setMask_setMask ⟨hr, rfl, hf, hinv.config, rfl, rfl, hi⟩ hp hl hlen h12 h14
    have hend : t.ioapic.redir l.toNat = setBit (s.ioapic.redir l.toNat) 16 false := by
      rw [ht.ioapic, redir_select, redir_withWord hlen]
    refine ⟨t, hrun, ht.seq ▸ hidle, hend, ?_, ?_, fun n hn => ?_⟩
    · rw [ht.ioapic]
      exact remoteIrr_withWord ..
    · rw [hend]
      exact setBit_eq_self_iff (by omega)
    · rw [ht.ioapic]
      exact entries_withWord_ne _ hn _

end Sys2Proof.Machine
end

section
/-!
SUPPORT. The Local APIC's two requests (R142, R143) and the effect of an EOI write (R139).
-/

namespace Sys2Proof.Machine

/-! ### The EOI write -/

/-- R139: an EOI write with nothing in service. -/
theorem takeLapicEoi_of_highestVec_none {s : State} (h : highestVec s.lapic.isr = none) : s.takeLapicEoi = s := by
  rw [State.takeLapicEoi, h]

/-- R139: an EOI write with `v` the highest vector in service. -/
theorem takeLapicEoi_of_highestVec_some {s : State} {v : Byte} (h : highestVec s.lapic.isr = some v) :
    s.takeLapicEoi = { s with
      lapic := { s.lapic with isr := setBit s.lapic.isr v.toNat false }
      ioapic := { s.ioapic with
        entries := if s.lapic.tmr.getLsbD v.toNat && !s.lapic.svr.getLsbD 12 then broadcastEoi v s.ioapic.entries
          else s.ioapic.entries } } := by
  rw [State.takeLapicEoi, h]

/-- R139: a broadcast made under a condition, entry by entry. -/
theorem ite_broadcastEoi (p : Prop) [Decidable p] (v : Byte) (es : List Entry) :
    (if p then broadcastEoi v es else es) =
      es.map fun e => if p ∧ entryVector e.word = v then { e with remoteIrr := false } else e := by
  by_cases h : p
  · simp only [h, if_true, true_and, broadcastEoi]
  · simp only [h, if_false, false_and, List.map_id']

/-- R16: `highestVec` finds the one set vector that has no set vector above it, given as a number. -/
theorem highestVec_ofNat {xs : VectorSet} {x : Nat} (hx : x < 256) (hset : xs.getLsbD x = true)
    (habove : ∀ y, x < y → xs.getLsbD y = false) : highestVec xs = some (BitVec.ofNat 8 x) := by
  rw [highestVec_eq_some, BitVec.toNat_ofNat, Nat.mod_eq_of_lt hx]
  exact ⟨hset, habove⟩

/-- Settles O43: the highest vector in service decides both what ends and what is broadcast. -/
theorem lapicEoiEndsTheHighestVector : Obligations.LapicEoiEndsTheHighestVector := by
  refine fun s => ⟨fun h => takeLapicEoi_of_highestVec_none (highestVec_eq_none.mpr h), fun x hx hset habove => ?_⟩
  have hnum : (BitVec.ofNat 8 x).toNat = x := by rw [BitVec.toNat_ofNat, Nat.mod_eq_of_lt hx]
  have hvec (b : Byte) : b = BitVec.ofNat 8 x ↔ b.toNat = x := by rw [← BitVec.toNat_inj, hnum]
  rw [takeLapicEoi_of_highestVec_some (highestVec_ofNat hx hset habove), ite_broadcastEoi]
  simp only [hnum, hvec, Bool.and_eq_true, Bool.not_eq_true', and_assoc]

/-! ### The requests of one transaction -/

/-- R96: the transaction of a request whose micro-program is one write of `v` to an APIC register, where the device's
response leaves the sequencer alone. -/
theorem runRequest_onlyApicWrite {fam : Family} {i : Instr} {chk : Option FaultCode} {s t : State} {r : MmioReg} {v : Word32}
    (hf : s.cfg.family = .apic) (hc : validConfig s.cfg = true) (h : atTransaction i 0 s) {kind : ApicKind}
    (hkind : apicKind r s.ioapic.ioregsel = .ok kind) (ht : apicRespond kind v s = .ok t) (hseq : t.seq = s.seq) :
    runRequest fam i chk [.st32 (regAddr s.cfg r) fun _ => v] s =
      .next ({ t.log (evMw (regAddr s.cfg r) v) with seq := s.seq.completed } : State).latched := by
  have ⟨_, _, hat⟩ := h
  have hwrite : perform (.st32 (regAddr s.cfg r) fun _ => v) s = .ok (t.log (evMw (regAddr s.cfg r) v)) := by
    rw [perform, mmioWrite_regAddr hc hkind, apicTransaction, if_pos hf, ht, kindReg_of_apicKind hkind]
    rfl
  have hlog : (t.log (evMw (regAddr s.cfg r) v)).seq = s.seq := hseq
  rw [runRequest_at (k := 0) (by omega) rfl h, hwrite, Except.map, finish_ok,
    advance_at (k := 0) (hlog ▸ hat) (by omega), List.length_singleton, if_pos (Nat.zero_add 1), hlog]

/-- Settles O42: its one transaction is the SVR write of `0x100 | v`, which leaves the sequencer alone. -/
theorem lapicEnableTransaction : Obligations.LapicEnableTransaction := fun v _ hf hc h =>
  runRequest_onlyApicWrite (chk := none) (r := .lapicSvr) (v := 0x00000100#32 ||| v.setWidth 32) (kind := .svrWrite)
    hf hc h rfl rfl rfl

/-- Settles O44: what the EOI write does to the state is `takeLapicEoi`, which appends nothing itself. -/
theorem lapicEoiTransaction : Obligations.LapicEoiTransaction := by
  intro s hf hc h
  rw [← State_takeLapicEoi_hist s]
  exact runRequest_onlyApicWrite (chk := none) (r := .lapicEoi) (v := 0#32) (kind := .eoiWrite) hf hc h rfl rfl
    (State_takeLapicEoi_seq s)

end Sys2Proof.Machine
end

section
/-!
SUPPORT. The refused steps (R147): what the mark of a refusal says of the step before it, the host's steps while a request is
in progress (R148), a request of the absent family (R149), and the edges and acknowledges of the 8259 pair (R150, R153).
-/

namespace Sys2Proof.Machine

/-! ### The mark -/

/-- R147: what an instruction does when it is not refused leaves the mark alone. -/
theorem Effect.refused {s t : State} {i : Instr} (h : Effect s i t) : t.refused = s.refused := by
  cases h with
  | accepted => rfl
  | faulted => rfl
  | transaction u hp hr ho hu hl => rw [State_advance_refused, hu.refused]
  | raw _ hp ho hu hs => exact hu.refused

/-- R147: what an agent's turn does when it is not refused leaves the mark alone. -/
theorem Turn.refused {x : Input} {s t : State} (h : Turn x s t) : t.refused = s.refused := by
  cases h with
  | instruction i _ hx he hd => exact he.refused
  | illegal => rfl
  | read _ hx hp hu hs => exact hu.refused
  | environment _ hx he => exact he.refused

/-- Settles O16: no turn sets the mark but by refusing, and the mark stops every later step. -/
theorem refusalsMarkAndEndTheRun : Obligations.RefusalsMarkAndEndTheRun := by
  refine ⟨fun s t r h ht => ?_, fun s r hr => by rw [step, hr]⟩
  obtain ⟨hr, ⟨r', rfl⟩ | ⟨u, hu, rfl⟩⟩ := step_cases h
  · obtain rfl : r' = r := Option.some.inj ht
    rfl
  · rw [State_latched_refused, hu.refused, State_takeInput_refused, hr] at ht
    cases ht

/-! ### Refusals of the host's steps -/

/-- Settles O14: the family is checked before anything is written. -/
theorem absentFamilyRequestsAreRefused : Obligations.AbsentFamilyRequestsAreRefused := by
  intro i s f hp hf hne
  obtain ⟨op, hop, rfl⟩ := Option.map_eq_some_iff.mp hf
  obtain ⟨prog, hx⟩ := exec_request hop s
  rw [hx, runRequest_idle hp, if_neg hne]
  rfl

section Busy

variable {s : State} (hp : s.seq.phase = .busy)
include hp

/-- R148: a submission while a request is in progress. -/
theorem hostSubmit_of_busy (w : Word64) : hostSubmit w s = .next (s.markRefused .busy) := by
  simp only [hostSubmit, hp, finish_error]

/-- R148: a raw write while a request is in progress, whatever its address and width. -/
theorem rawWrite_of_busy (x : Transaction) (v : Word32) : rawWrite x v s = .next (s.markRefused .busy) := by
  simp only [rawWrite, hp, finish_error]

/-- R148: a raw read while a request is in progress, whatever its address and width. -/
theorem rawAccess_of_busy (f : State → Except Refusal State) : rawAccess f s = .next (s.markRefused .busy) := by
  simp only [rawAccess, hp, finish_error]

/-- R148: a raw access while a request is in progress. -/
theorem hostRaw_of_busy (x : Transaction) : hostRaw x s = .next (s.markRefused .busy) := by
  cases x with
  | ioWrite port width v => exact rawWrite_of_busy hp _ v
  | memWrite a width v => exact rawWrite_of_busy hp _ v
  | ioRead port width => exact rawAccess_of_busy hp _
  | memRead a width => exact rawAccess_of_busy hp _

end Busy

/-- Settles O15: the phase is checked before the word or the address. -/
theorem busyMachineRefusesTheHost : Obligations.BusyMachineRefusesTheHost := by
  refine fun s rest hr hp => ⟨fun w hi => ?_, fun x hi => ?_⟩ <;> rw [step_of_inputs hr hi]
  · exact hostSubmit_of_busy (s := { s with inputs := rest }) hp w
  · exact hostRaw_of_busy (s := { s with inputs := rest }) hp x

/-! ### The 8259 pair's own steps -/

/-- Settles O47, by the chip that owns the line. -/
theorem edgeLatchesTheRequest : Obligations.EdgeLatchesTheRequest := by
  intro s l rest hr hf hl h2 hi
  have hstep := (step_of_inputs hr hi).trans (picEdge_eq (s := { s with inputs := rest }) hl h2 hf)
  refine ⟨fun h => ?_, fun h => ?_⟩
  · obtain ⟨hchip, hbit⟩ := owner_master h
    rw [hstep, hchip, hbit]
    rfl
  · obtain ⟨hchip, hbit⟩ := owner_slave h
    rw [hstep, hchip, hbit]
    rfl

/-- R153: an acknowledge of the 8259 pair outside the modelled configuration. -/
theorem cpuIntaPic_unmodelled {s : State} (hf : s.cfg.family = .pic) (hl : s.env.picIntLatch = true)
    (hm : s.picModelled = false) : cpuIntaPic s = .next (s.markRefused .unmodelledMode) := by
  simp only [cpuIntaPic, hf, hl, hm, and_self, if_true, Bool.false_eq_true, if_false, finish_error]

/-- Settles O49: the configuration is checked before the latch is cleared. -/
theorem picAcknowledgeOutsideTheConfigurationIsRefused : Obligations.PicAcknowledgeOutsideTheConfigurationIsRefused := by
  intro s rest hr hf hl hm hi
  rw [step_of_inputs hr hi]
  exact cpuIntaPic_unmodelled (s := { s with inputs := rest }) hf hl hm

end Sys2Proof.Machine
end

section
/-!
SUPPORT. The messages of the I/O APIC: what sends one, and what becomes of it at the Local APIC (R155, R156).
-/

namespace Sys2Proof.Machine

/-! ### What becomes of a message -/

section Message

variable {s : State} {n : Nat} {e : Word64} (he : s.ioapic.redir n = e)
include he

/-- R155.3: a message of another delivery mode than FIXED and LOWEST is refused. -/
theorem sendMessage_of_mode (hm : ¬ (entryDeliveryMode e = 0#3 ∨ entryDeliveryMode e = 1#3)) :
    sendMessage n s = .error .unmodelledDeliveryMode := by
  rw [sendMessage, he]
  exact if_neg hm

variable (hm : entryDeliveryMode e = 0#3 ∨ entryDeliveryMode e = 1#3)
include hm

/-- R155.3: a FIXED or LOWEST message goes to the Local APIC. -/
theorem sendMessage_eq_lapicAccept : sendMessage n s = lapicAccept (entryVector e) (entryTriggerMode e) s := by
  rw [sendMessage, he]
  exact if_pos hm

/-- R156: a message with a vector below 0x10 is refused. -/
theorem sendMessage_of_lowVector (hv : (entryVector e).toNat < 0x10) : sendMessage n s = .error .unmodelledVector := by
  rw [sendMessage_eq_lapicAccept he hm, lapicAccept, if_pos hv]

variable (hv : 0x10 ≤ (entryVector e).toNat)
include hv

/-- R156: an enabled Local APIC accepts the message. -/
theorem sendMessage_of_enabled (hen : s.lapic.svr.getLsbD 8 = true) :
    sendMessage n s = .ok { s with lapic := s.lapic.register (entryVector e) (entryTriggerMode e) } := by
  rw [sendMessage_eq_lapicAccept he hm, lapicAccept, if_neg (Nat.not_lt.mpr hv), if_pos hen]

/-- R156: a software-disabled Local APIC accepts or drops the message, as the free value drawn says (log 12). -/
theorem sendMessage_of_disabled (hdis : s.lapic.svr.getLsbD 8 = false) :
    sendMessage n s = .ok { s with
      lapic := s.lapic.register (entryVector e) (entryTriggerMode e), draws := s.draws + 1 } ∨
    sendMessage n s = .ok { s with draws := s.draws + 1 } := by
  rw [sendMessage_eq_lapicAccept he hm, lapicAccept, if_neg (Nat.not_lt.mpr hv), if_neg (Bool.eq_false_iff.mp hdis)]
  cases Config.freeDrop s.draws
  · exact .inl rfl
  · exact .inr rfl

end Message

/-! ### What sends a message -/

/-- R155.1: a change of a pin sends a message, in the bits of the pin's entry (R85). -/
theorem edgeSends_iff {s : State} {n : Nat} {b : Bool} :
    s.edgeSends n b = true ↔
      (s.ioapic.redir n).getLsbD 15 = false ∧ (s.ioapic.redir n).getLsbD 16 = false ∧
        lapicMatches s.cfg ((s.ioapic.redir n).getLsbD 11) ((s.ioapic.redir n).extractLsb' 56 8) = true ∧
        (s.env.level n ^^ (s.ioapic.redir n).getLsbD 13) = false ∧ (b ^^ (s.ioapic.redir n).getLsbD 13) = true := by
  simp only [State.edgeSends, State.asserted, assertedAt, State.matched, entryTriggerMode, entryMask, entryPolarity,
    entryDestMode, entryDestination, Bool.and_eq_true, Bool.not_eq_true', and_assoc]

section Pin

variable {s : State} {n : Nat} {b : Bool} (hf : s.cfg.family = .apic) (hn : n < s.cfg.nRedir)
include hf hn

/-- R155.1: a change of a pin that sends nothing. -/
theorem setPin_of_silent (h : s.edgeSends n b = false) :
    setPin n b s = .next ({ s with env := { s.env with pin := s.env.pin.set n b } } : State).latched := by
  simp only [setPin, hf, hn, and_self, if_true, h, Bool.false_eq_true, if_false, finish_ok]

/-- R155.1: a change of a pin that sends its entry's message, from the state in which the pin is driven. -/
theorem setPin_of_sends (h : s.edgeSends n b = true) :
    setPin n b s = finish s (sendMessage n { s with env := { s.env with pin := s.env.pin.set n b } }) := by
  simp only [setPin, hf, hn, and_self, if_true, h]

end Pin

/-- Settles O53: a pin's change alone, or the change and what becomes of the entry's message. -/
theorem pinEdgeSendsTheMessage : Obligations.PinEdgeSendsTheMessage := by
  intro s n b rest hr hf hn hi e v u accepted rising sends plain
  let t : State := { s with inputs := rest }
  have hstep : step s = setPin n b t := step_of_inputs hr hi
  have hsends : t.edgeSends n b = true ↔ sends := edgeSends_iff
  have hsend (h : sends) : step s = finish t (sendMessage n u) :=
    hstep.trans (setPin_of_sends (s := t) hf hn (hsends.mpr h))
  have he : u.ioapic.redir n = e := rfl
  have hedge (h : sends) : accepted = u.lapic.register (entryVector e) (entryTriggerMode e) := by
    rw [show entryTriggerMode e = false from h.1]
    rfl
  refine ⟨fun h => ?_, fun h hm hv hen => ?_, fun h hm hv hdis => ?_, fun h hm hv => ?_, fun h hm => ?_⟩
  · exact hstep.trans (setPin_of_silent (s := t) hf hn (Bool.eq_false_iff.mpr (h ∘ hsends.mp)))
  · rw [hsend h, hedge h, sendMessage_of_enabled he hm hv hen, finish_ok]
  · rw [hsend h, hedge h]
    exact (sendMessage_of_disabled he hm hv hdis).imp (congrArg (finish t)) (congrArg (finish t))
  · rw [hsend h, sendMessage_of_lowVector he hm hv, finish_error]
    rfl
  · rw [hsend h, sendMessage_of_mode he hm, finish_error]
    rfl

/-- Setting an entry's remote IRR keeps its word. -/
theorem redir_setEntry_remoteIrr (s : State) (n : Nat) (b : Bool) :
    (s.setEntry n { word := s.ioapic.redir n, remoteIrr := b }).ioapic.redir n = s.ioapic.redir n := by
  rw [redir_setEntry]
  exact ite_self _

/-- R155.2: an enabled level message. -/
theorem ioapicLevel_eq {s : State} {n : Nat} (hf : s.cfg.family = .apic) (hn : n < s.cfg.nRedir)
    (h : s.levelEnabled n = true) :
    ioapicLevel n s = finish s (sendMessage n (s.setEntry n { word := s.ioapic.redir n, remoteIrr := true })) :=
  if_pos ⟨hf, hn, h⟩

/-- Settles O54: remote IRR is set in the state from which the message goes out, whatever becomes of it. -/
theorem levelMessageSetsRemoteIrr : Obligations.LevelMessageSetsRemoteIrr := by
  intro s n rest hr hf hn hi e v u accepted plain hlevel hmask hasserted hmatch hremote
  let t : State := { s with inputs := rest }
  have hsend : step s = finish t (sendMessage n u) :=
    (step_of_inputs hr hi).trans (ioapicLevel_eq (s := t) hf hn
      (levelEnabled_iff.mpr ⟨hlevel, hmask, hasserted, hmatch, hremote⟩))
  have he : u.ioapic.redir n = e := redir_setEntry_remoteIrr t n true
  have hlevelled : accepted = u.lapic.register (entryVector e) (entryTriggerMode e) := by
    rw [show entryTriggerMode e = true from hlevel]
    rfl
  rw [hsend, hlevelled]
  refine ⟨fun hm hv hen => ?_, fun hm hv hdis => ?_, fun hm hv => ?_, fun hm => ?_⟩
  · rw [sendMessage_of_enabled he hm hv hen, finish_ok]
  · exact (sendMessage_of_disabled he hm hv hdis).imp (congrArg (finish t)) (congrArg (finish t))
  · rw [sendMessage_of_lowVector he hm hv, finish_error]
    rfl
  · rw [sendMessage_of_mode he hm, finish_error]
    rfl

end Sys2Proof.Machine
end

section
/-!
SUPPORT. The Local APIC's output in the bits of its registers (R157) and its acknowledge (R158).
-/

namespace Sys2Proof.Machine

/-! ### The output -/

/-- R157: the class in service lies below a positive class exactly when the class of every vector in service does. -/
theorem serviceClass_lt {a : Lapic} {c : Nat} (hc : 0 < c) :
    a.serviceClass < c ↔ ∀ w, a.isr.getLsbD w = true → w / 16 < c := by
  rw [Lapic.serviceClass]
  cases h : highestVec a.isr with
  | none => simp [highestVec_eq_none.mp h, hc]
  | some x =>
    obtain ⟨hset, habove⟩ := highestVec_eq_some.mp h
    refine ⟨fun hx w hw => ?_, fun hall => hall _ hset⟩
    have hle : w ≤ x.toNat := Nat.not_lt.mp fun hlt => by simp [habove w hlt] at hw
    exact (Nat.div_le_div_right hle).trans_lt hx

/-- R157: a class is above the processor's exactly when it is above the TPR's and above every class in service. -/
theorem pprClass_lt {a : Lapic} {c : Nat} :
    a.pprClass < c ↔ (a.tpr.extractLsb' 4 4).toNat < c ∧ ∀ w, a.isr.getLsbD w = true → w / 16 < c := by
  rw [Lapic.pprClass, max_lt_iff]
  exact and_congr_right fun h => serviceClass_lt (Nat.zero_lt_of_lt h)

/-- R157: the output with `v` the highest vector requested. -/
theorem intr_of_highest {a : Lapic} {v : Nat} (hv : v < 256) (hset : a.irr.getLsbD v = true)
    (habove : ∀ w, v < w → a.irr.getLsbD w = false) :
    a.intr = true ↔ (a.tpr.extractLsb' 4 4).toNat < v / 16 ∧ ∀ w, a.isr.getLsbD w = true → w / 16 < v / 16 := by
  rw [Lapic.intr, highestVec_ofNat hv hset habove, ← pprClass_lt]
  simp only [decide_eq_true_eq, vectorClass, BitVec.toNat_ofNat, Nat.mod_eq_of_lt hv]

/-- R157: with nothing requested the output is down. -/
theorem intr_of_no_requests {a : Lapic} (h : a.irr = 0#256) : a.intr = false := by
  rw [Lapic.intr, highestVec_eq_none.mpr h]

/-! ### The acknowledge -/

section Acknowledge

variable {s : State} (hf : s.cfg.family = .apic) (hl : s.env.lapicIntLatch = true)
include hf hl

/-- R158: with the output up the highest vector requested goes into service and is delivered. -/
theorem cpuIntaLapic_vector {v : Byte} (hint : s.lapic.intr = true) (hv : highestVec s.lapic.irr = some v) :
    cpuIntaLapic s = .next (({ s with
      env := { s.env with lapicIntLatch := false }, lapic := s.lapic.acknowledge v } : State).deliver .lapic v).latched := by
  simp only [cpuIntaLapic, hf, hl, and_self, if_true, hint, hv, finish_ok]

/-- R158: with the output down the SVR's vector is delivered, and no register of the Local APIC changes. -/
theorem cpuIntaLapic_spurious (hint : s.lapic.intr = false) (hv : 0x10 ≤ (s.lapic.svr.extractLsb' 0 8).toNat) :
    cpuIntaLapic s = .next (({ s with env := { s.env with lapicIntLatch := false } } : State).deliver .lapic
      (s.lapic.svr.extractLsb' 0 8)).latched := by
  simp only [cpuIntaLapic, hf, hl, and_self, if_true, hint, if_neg (Nat.not_lt.mpr hv), finish_ok]

/-- R158: a spurious vector below 0x10 is refused. -/
theorem cpuIntaLapic_refused (hint : s.lapic.intr = false) (hv : (s.lapic.svr.extractLsb' 0 8).toNat < 0x10) :
    cpuIntaLapic s = .next (s.markRefused .unmodelledVector) := by
  simp only [cpuIntaLapic, hf, hl, and_self, if_true, hint, if_pos hv, finish_error]

end Acknowledge

/-- Settles O55: the output, in the bits of the registers, decides what the acknowledge delivers. -/
theorem lapicAcknowledgeDelivers : Obligations.LapicAcknowledgeDelivers := by
  intro s rest hr hf hl hi u nothingAbove
  let t : State := { s with inputs := rest }
  have hstep : step s = cpuIntaLapic t := step_of_inputs hr hi
  have hdown : nothingAbove → t.lapic.intr = false := by
    rintro (h | ⟨v, hv, hset, habove, hheld⟩)
    · exact intr_of_no_requests h
    · rw [Bool.eq_false_iff]
      intro hint
      obtain ⟨htpr, hisr⟩ := (intr_of_highest hv hset habove).mp hint
      rcases hheld with hheld | ⟨w, hw, hheld⟩
      · exact Nat.not_lt.mpr hheld htpr
      · exact Nat.not_lt.mpr hheld (hisr w hw)
  rw [hstep]
  refine ⟨fun v hv hset habove hclass => ?_, fun h hv => ?_, fun h hv => ?_⟩
  · have hnum : (BitVec.ofNat 8 v).toNat = v := by rw [BitVec.toNat_ofNat, Nat.mod_eq_of_lt hv]
    have hack : s.lapic.acknowledge (BitVec.ofNat 8 v) =
        { s.lapic with irr := setBit s.lapic.irr v false, isr := setBit s.lapic.isr v true } := by
      rw [Lapic.acknowledge, hnum]
    rw [← hack]
    exact cpuIntaLapic_vector (s := t) hf hl ((intr_of_highest hv hset habove).mpr hclass)
      (highestVec_ofNat hv hset habove)
  · exact cpuIntaLapic_spurious (s := t) hf hl (hdown h) hv
  · exact cpuIntaLapic_refused (s := t) hf hl (hdown h) hv

end Sys2Proof.Machine
end
